-- ==== Sys2Proof/Word.lean ====
section
/-! DEFINITION. The word types of the block: 00_scope.md rules R5 (widths), R6 (bytes and words, all unsigned) and R7 (digits). -/

namespace Sys2Proof

/-- A host register, a count, a weight, an error's information word: 32 bits, unsigned (R5 COUNT_W, WEIGHT_W, IOERR_W). -/
abbrev Word := BitVec 32

/-- A byte of the source or the sink, and a symbol (R6, R9). -/
abbrev Byte := BitVec 8

/-- A node index or a queue item's tag: 9 bits (R5 TAG_W). -/
abbrev NodeIdx := BitVec 9

/-- A digit: `false` is 0, `true` is 1 (R7). -/
abbrev Digit := Bool

end Sys2Proof
end

