-- ==== Sys2Proof/Syntax.lean ====
section
/-! DEFINITION. The command set HFC-CMD version 1 (30_encoding.md rules R46 and R47: fifteen commands, none with an operand
field) and the script lines of rules R56 and R57. -/

namespace Sys2Proof

/-- One constructor per row of spec/opcode_table.json. -/
inductive Instr where
  | nop
  | reset
  | pqInsert
  | pqPopmin
  | pqPeekmin
  | pqSize
  | count
  | build
  | gencode
  | encode
  | decode
  | wrhdr
  | rdhdr
  | compress
  | decompress
  deriving DecidableEq, Repr

/-- A line of a script (R56): one host action, the pseudo-instruction `PQ_INSERT w, t` (R57), or an environment set-up line.
Numbers are as written, so a line can be ill formed (WellFormed.lean). -/
inductive ScriptLine where
  /-- `<mnemonic>`: write the command word to CMD. -/
  | command (i : Instr)
  /-- `PQ_INSERT <w>, <t>`: write ARG0, ARG1, then the command word (R57). -/
  | pqInsertItem (w t : Nat)
  /-- `WR <regname>, <value>`, the register given by its number (R13). -/
  | wr (reg value : Nat)
  /-- `RD <regname>`. -/
  | rd (reg : Nat)
  /-- `SRC <bytes> @<pos>`: environment set-up. -/
  | src (bytes : List Byte) (pos : Nat)
  /-- `SNK <bytes>`: environment set-up. -/
  | snk (bytes : List Byte)
  deriving DecidableEq, Repr

end Sys2Proof
end

