-- ==== Sys2Proof/Config.lean ====
section
/-! DEFINITION. The fixed parameters of the block: 00_scope.md rule R5. The two OPEN parameters and the environment's
answers are no constants: OBSERVER_ATTACHED is the field `observerAttached` of the state (log 6), the port answers are the
field `answers` (log 2), and HOST_BUS is used by no rule (log 14). -/

namespace Sys2Proof.Config

/-- NSYM: byte values, table slots, code-table entries (R5). -/
abbrev nsym : Nat := 256

/-- MAX_LEN: the largest source length the block accepts (R5). -/
abbrev maxLen : Nat := 4294967295

/-- PQ_CAP: the largest number of items the queue holds (R5). -/
abbrev pqCap : Nat := 256

/-- NODE_CAP: node store entries (R5). -/
abbrev nodeCap : Nat := 511

/-- MAX_CODE_LEN: the largest number of digits in one code (R5, R87). -/
abbrev maxCodeLen : Nat := 255

/-- HDR_BYTES: bytes before the payload (R5). -/
abbrev hdrBytes : Nat := 1032

/-- PAD: the padding digits of the last payload byte (R5, R90). -/
abbrev pad : Digit := false

/-- MAGIC: `H` `U` `F` `F` (R5, R50; log 13). -/
abbrev magic : List Byte := [0x48, 0x55, 0x46, 0x46]

/-- The highest host register number (R13: HR[0] to HR[24]). -/
abbrev lastHostReg : Nat := 24

end Sys2Proof.Config
end

