-- ==== Sys2Proof/WellFormed.lean ====
section
/-! DEFINITION. Well-formed terms. A command has no operand field (30_encoding.md R46), so every `Instr` is well formed; a script
line is when its numbers are register numbers (10_state.md R13), 32-bit values (R13) and source positions (R26). -/

namespace Sys2Proof

/-- No command word carries an operand (R46), so there is nothing to check. -/
def Instr.wellFormed : Instr → Bool
  | .nop | .reset | .pqInsert | .pqPopmin | .pqPeekmin | .pqSize | .count | .build | .gencode | .encode | .decode
  | .wrhdr | .rdhdr | .compress | .decompress => true

/-- The checks on a script line (R56): a value fits 32 bits, a register has a number of rule R13, a source position lies
within the bytes (R26). -/
def ScriptLine.wellFormed : ScriptLine → Bool
  | .command i => i.wellFormed
  | .pqInsertItem w t => decide (w < 2 ^ 32) && decide (t < 2 ^ 32)
  | .wr reg value => decide (reg ≤ Config.lastHostReg) && decide (value < 2 ^ 32)
  | .rd reg => decide (reg ≤ Config.lastHostReg)
  | .src bytes pos => decide (pos ≤ bytes.length)
  | .snk _ => true

end Sys2Proof
end

