-- ==== Sys2Proof/Decode.lean ====
section
/-! DEFINITION. The decoder of command words (30_encoding.md rules R46 to R48), total, rejecting by name; then the encoder. -/

namespace Sys2Proof

/-- Why a word is no command (R48). -/
inductive IllegalWord where
  /-- The ZERO field, bits 31:8, is not 0. -/
  | zeroFieldSet
  /-- OPC, bits 7:0, is none of the fifteen codes. -/
  | undefinedOpc
  deriving DecidableEq, Repr

/-- A row of the table of rule R47: a word `w` is the command if `w AND mask = match`. -/
structure OpcodeRow where
  instr : Instr
  matchWord : Word
  mask : Word
  deriving DecidableEq, Repr

/-- A row whose mask covers the whole word, as every mask of R47 does. -/
def OpcodeRow.whole (i : Instr) (w : Word) : OpcodeRow := ⟨i, w, 0xFFFFFFFF⟩

/-- The table of rule R47, in its order. -/
def opcodeTable : List OpcodeRow := [
  .whole .nop 0x00000000,
  .whole .reset 0x00000001,
  .whole .pqInsert 0x00000010,
  .whole .pqPopmin 0x00000011,
  .whole .pqPeekmin 0x00000012,
  .whole .pqSize 0x00000013,
  .whole .count 0x00000020,
  .whole .build 0x00000021,
  .whole .gencode 0x00000022,
  .whole .encode 0x00000023,
  .whole .decode 0x00000024,
  .whole .wrhdr 0x00000030,
  .whole .rdhdr 0x00000031,
  .whole .compress 0x00000040,
  .whole .decompress 0x00000041]

/-- Whether word `w` is the row's command (R47). -/
def OpcodeRow.hits (r : OpcodeRow) (w : Word) : Bool := w &&& r.mask == r.matchWord

/-- The command a word encodes, or why it is illegal (R47, R48). -/
def decode (w : Word) : Except IllegalWord Instr :=
  match opcodeTable.find? (·.hits w) with
  | some r => .ok r.instr
  | none => .error (if w.extractLsb' 8 24 = 0 then .undefinedOpc else .zeroFieldSet)

/-- The operation code of a command (R47, column OPC). -/
def opc : Instr → BitVec 8
  | .nop => 0x00
  | .reset => 0x01
  | .pqInsert => 0x10
  | .pqPopmin => 0x11
  | .pqPeekmin => 0x12
  | .pqSize => 0x13
  | .count => 0x20
  | .build => 0x21
  | .gencode => 0x22
  | .encode => 0x23
  | .decode => 0x24
  | .wrhdr => 0x30
  | .rdhdr => 0x31
  | .compress => 0x40
  | .decompress => 0x41

/-- The word of a command in format C (R46): ZERO in 31:8, OPC in 7:0. -/
def encode (i : Instr) : Word := (0 : BitVec 24) ++ opc i

/-- The host's question to the decoder: the instruction read from a word of `nbits` bits numbered as the opcode table numbers
them. The block takes its command as one 32-bit register write (R14), so there is no byte order to undo; a word with a bit
above 31 is no command word. -/
def decodeTableWord (nbits w : Nat) : Option Instr :=
  if w % 2 ^ nbits < 2 ^ 32 then
    match decode (BitVec.ofNat 32 (w % 2 ^ nbits)) with
    | .ok i => some i
    | .error _ => none
  else none

end Sys2Proof
end

