-- ==== Sys2Proof/Machine/State.lean ====
section
/-! DEFINITION. The state of the block and of its environment (10_state.md rules R13 to R30), as plain data, with its reset
value, and the reasons a step can stop. -/

namespace Sys2Proof.Machine

open Sys2Proof

/-- A queue item: a weight and a node tag (10_state.md R21). -/
structure Item where
  weight : Word
  tag : NodeIdx
  deriving DecidableEq, Repr

/-- An entry of the node store (10_state.md R22): the document's tagged variant. -/
inductive Node where
  | leaf (byte : Byte) (weight : Word)
  | internal (weight : Word) (left right : NodeIdx)
  deriving DecidableEq, Repr

/-- The phases of 30_encoding.md R55; `Phase.code` (Ops.lean) gives their numbers. -/
inductive Phase where
  | counting
  | buildingTree
  | writingHeader
  | writingPayload
  | derivingCodes
  | readingHeader
  | readingPayload
  deriving DecidableEq, Repr

/-- The errors of 60_exceptions.md R121. `notComparable` is reserved and no command raises it (R123). -/
inductive Error where
  | emptyQueue
  | notComparable
  | treeShape
  | malformedContainer
  | sourceIO
  | sinkIO
  | lengthOverflow
  | queueFull
  | sequence
  | illegalCommand
  | noCode
  | sourceChanged
  deriving DecidableEq, Repr

/-- What the environment answers to one action of the engine, a port request or a notification (20_memory.md R38; log 2). -/
inductive Answer where
  /-- The request is served. -/
  | served
  /-- The port fails with this code; a notification cannot fail and takes this as served (R38). -/
  | failed (code : Word)
  /-- A hardware reset arrives before the request is served (70_reset_and_hazards.md R150; log 4). -/
  | reset
  deriving DecidableEq, Repr

/-- One action of the host or the platform between commands (30_encoding.md R56; log 1). -/
inductive Input where
  /-- The host writes a register, CMD among them (10_state.md R14, R29). -/
  | write (reg : Nat) (value : Word)
  /-- The host reads a register (R29). -/
  | read (reg : Nat)
  /-- Hardware reset (70_reset_and_hazards.md R150). -/
  | hardReset
  /-- The environment puts the bytes `before ++ after` in the source, positioned between the two parts (log 3). -/
  | setSource (before after : List Byte)
  /-- The environment puts a sink with these bytes in place (log 3). -/
  | setSink (bytes : List Byte)
  deriving DecidableEq, Repr

/-- The byte source (10_state.md R26). -/
structure Source where
  data : List Byte
  pos : Nat
  deriving DecidableEq, Repr

/-- Reasons a step stops with no next state. The spec's own errors (60_exceptions.md R121) are none of these: they are next
states with FAULT set. Both constructors are safe: the model stops where the spec's pseudocode gives no effect. -/
inductive Fault where
  /-- Raised by BUILD, GENCODE, and by the loops over the source: a loop or a walk does not end within the bound that rules
  R107 and R78 give it. Safe; only GENCODE on a node store that holds a cycle comes to it, which no run builds (log 8). -/
  | diverges
  /-- Raised by BUILD: the sum of two weights does not fit 32 bits. Safe; the table's sum is at most 2^32 - 1 in every run
  (R78; log 9). -/
  | weightOverflow
  deriving DecidableEq, Repr

/-- Reasons the model gives an instruction no meaning. -/
inductive Refusal where
  /-- Raised by an arm of `exec` without a meaning; no arm is. Safe. -/
  | notModelled (mnemonic : String)
  deriving DecidableEq, Repr

/-- Everything that lasts from one step to the next. -/
structure State where
  /-- STATUS.FAULT (R15). -/
  fault : Bool
  /-- STATUS.FREQ_VALID (R15). -/
  freqValid : Bool
  /-- STATUS.TREE_DONE (R15). -/
  treeDone : Bool
  /-- STATUS.CODE_VALID (R15). -/
  codeValid : Bool
  /-- STATUS.ERR (R15). -/
  err : BitVec 8
  /-- ERRINFO (R16). -/
  errInfo : Word
  /-- TOTAL (R17). -/
  total : Word
  /-- NDIST (R17). -/
  ndist : BitVec 9
  /-- NNODES (R17). -/
  nnodes : BitVec 9
  /-- ROOT.VALID (R17). -/
  rootValid : Bool
  /-- ROOT.IDX (R17). -/
  rootIdx : NodeIdx
  /-- EMITTED (R17). -/
  emitted : Word
  /-- ARG0 (R18). -/
  arg0 : Word
  /-- ARG1 (R18). -/
  arg1 : Word
  /-- RES0 (R18). -/
  res0 : Word
  /-- RES1 (R18). -/
  res1 : Word
  /-- SEL, the nine bits that are kept (R19). -/
  sel : BitVec 9
  /-- FREQ (R20). -/
  freq : Vector Word 256
  /-- PQ, front first (R21). -/
  pq : List Item
  /-- NODE (R22). -/
  node : Vector Node 511
  /-- CODE (R24). -/
  code : Vector (List Digit) 256
  /-- SRC (R26). -/
  src : Source
  /-- SNK.data (R26). -/
  snk : List Byte
  /-- OBS: phase codes, the numbers of 30_encoding.md R55 (R26). -/
  obs : List Nat
  /-- OBSERVER_ATTACHED (00_scope.md R5; log 6). -/
  observerAttached : Bool
  /-- The model's own: the environment's answers to the engine's coming actions; past the end, every one is served (log 2). -/
  answers : List Answer
  /-- The model's own: the inputs not yet taken, oldest first (log 1). -/
  inputs : List Input
  /-- The model's own: what the host's register reads have returned, oldest first (log 1). -/
  seen : List Word
  deriving DecidableEq, Repr

/-- An unallocated node entry is all zero (10_state.md R22), which is a leaf (KIND 0) of byte 0 and weight 0. -/
def Node.zero : Node := .leaf 0 0

/-- The state right after reset (10_state.md R30). The environment's fields, which reset does not give (R151), are empty, with an
observer attached (log 5, log 6). -/
def State.reset : State where
  fault := false
  freqValid := false
  treeDone := false
  codeValid := false
  err := 0
  errInfo := 0
  total := 0
  ndist := 0
  nnodes := 0
  rootValid := false
  rootIdx := 0
  emitted := 0
  arg0 := 0
  arg1 := 0
  res0 := 0
  res1 := 0
  sel := 0
  freq := Vector.replicate 256 0
  pq := []
  node := Vector.replicate 511 Node.zero
  code := Vector.replicate 256 []
  src := ⟨[], 0⟩
  snk := []
  obs := []
  observerAttached := true
  answers := []
  inputs := []
  seen := []

end Sys2Proof.Machine
end

