-- ==== Sys2Proof/Machine/Ops.lean ====
section
/-! DEFINITION. The shared operations: fault entry and reset, the outcome of a piece of a command, the port primitives of
00_scope.md R8, the tables' accessors, and the four queue functions of 41_priority_queue.md R67. -/

namespace Sys2Proof.Machine

open Sys2Proof

/-! ### Fault entry and the way out -/

/-- The error codes (60_exceptions.md R121). -/
def Error.code : Error → BitVec 8
  | .emptyQueue => 1
  | .notComparable => 2
  | .treeShape => 3
  | .malformedContainer => 4
  | .sourceIO => 5
  | .sinkIO => 6
  | .lengthOverflow => 7
  | .queueFull => 8
  | .sequence => 9
  | .illegalCommand => 10
  | .noCode => 11
  | .sourceChanged => 12

/-- Fault entry, the block's taking of an exception (60_exceptions.md R133): FAULT, ERR and ERRINFO are written and nothing else.
The transient state of R27 lives in loop arguments and ends with the command (log 15). -/
def State.enterFault (e : Error) (info : Word) (s : State) : State :=
  { s with fault := true, err := e.code, errInfo := info }

/-- ClearEngine (10_state.md R28). -/
def State.clearEngine (s : State) : State :=
  { s with
    freq := Vector.replicate 256 0
    total := 0
    ndist := 0
    nnodes := 0
    rootValid := false
    rootIdx := 0
    emitted := 0
    node := Vector.replicate 511 Node.zero
    code := Vector.replicate 256 []
    pq := []
    freqValid := false
    treeDone := false
    codeValid := false }

/-- Reset, the way out of the fault state (47_codec.md R109, 70_reset_and_hazards.md R150): the block's state takes its reset
value and the environment keeps its own (R151). -/
def State.resetBlock (s : State) : State :=
  { s.clearEngine with
    fault := false
    err := 0
    errInfo := 0
    arg0 := 0
    arg1 := 0
    res0 := 0
    res1 := 0
    sel := 0 }

/-! ### Pieces of a command -/

/-- What a piece of a command's pseudocode comes to. -/
inductive Result (α : Type) where
  /-- It ran to its end with this value. -/
  | done (value : α) (s : State)
  /-- The command ended in it: a `raise` (R133) or a hardware reset (R150). -/
  | ended (s : State)
  /-- The pseudocode gives no effect (logs 8 and 9). -/
  | stuck (f : Fault)

/-- First this piece, then the next one with its value; a `raise` ends the command there (00_scope.md R8). -/
def Result.andThen {α β : Type} (r : Result α) (k : α → State → Result β) : Result β :=
  match r with
  | .done a s => k a s
  | .ended s => .ended s
  | .stuck f => .stuck f

/-- The outcome of a command whose body came to `r`: the CMD write returns in the state the body left (R107, R133). -/
def Result.outcome (r : Result Unit) : Host.Outcome State Fault Refusal :=
  match r with
  | .done _ s => .next s
  | .ended s => .next s
  | .stuck f => .fault f

/-- `raise E(info)` (00_scope.md R8, 60_exceptions.md R133). -/
def raise {α : Type} (e : Error) (info : Word) (s : State) : Result α := .ended (s.enterFault e info)

/-- `require c else raise E(info)` (00_scope.md R8). -/
def require (c : Bool) (e : Error) (info : Word) (s : State) : Result Unit :=
  if c then .done () s else raise e info s

/-! ### The environment's ports -/

/-- The environment's answer to the coming action (20_memory.md R38; log 2). -/
def State.answer (s : State) : Answer := s.answers.headD .served

/-- The answer is used up. -/
def State.dropAnswer (s : State) : State := { s with answers := s.answers.tail }

/-- One action of the engine: served, failed, or cut off by a hardware reset, after which the block is in its reset state
(R38, R150; logs 2 and 4). -/
def request {α : Type} (onFail : Word → State → Result α) (serve : State → Result α) (s : State) : Result α :=
  match s.answer with
  | .served => serve s.dropAnswer
  | .failed e => onFail e s.dropAnswer
  | .reset => .ended s.dropAnswer.resetBlock

/-- The phase codes (30_encoding.md R55). -/
def Phase.code : Phase → Nat
  | .counting => 1
  | .buildingTree => 2
  | .writingHeader => 3
  | .writingPayload => 4
  | .derivingCodes => 5
  | .readingHeader => 6
  | .readingPayload => 7

/-- OBS gains a code if an observer is attached (20_memory.md R32, 30_encoding.md R55, 60_exceptions.md R140). -/
def State.appendPhase (p : Phase) (s : State) : State :=
  { s with obs := if s.observerAttached then s.obs ++ [p.code] else s.obs }

/-- `Notify(p)`: it cannot fail (R38, R140). -/
def notify (p : Phase) (s : State) : Result Unit :=
  request (fun _ s => .done () (s.appendPhase p)) (fun s => .done () (s.appendPhase p)) s

/-- SRC.pos takes a value. -/
def State.setPos (n : Nat) (s : State) : State := { s with src := { s.src with pos := n } }

/-- SNK.data grows by a byte. -/
def State.appendByte (b : Byte) (s : State) : State := { s with snk := s.snk ++ [b] }

/-- `SrcRewind()` (20_memory.md R32, R38). -/
def srcRewind (s : State) : Result Unit :=
  request (fun e s => raise .sourceIO e s) (fun s => .done () (s.setPos 0)) s

/-- `SrcRead()`: the next byte, or `none` for EOS, which does not move the position (R32, R36, R38). -/
def srcRead (s : State) : Result (Option Byte) :=
  request (fun e s => raise .sourceIO e s)
    (fun s => match s.src.data[s.src.pos]? with
      | some b => .done (some b) (s.setPos (s.src.pos + 1))
      | none => .done none s) s

/-- `SnkWrite(b)` (R32, R38). -/
def snkWrite (b : Byte) (s : State) : Result Unit :=
  request (fun e s => raise .sinkIO e s) (fun s => .done () (s.appendByte b)) s

/-- `SrcReadN(n)` (00_scope.md R8): `none` is EOS; the bytes before it are consumed, and no read is made after it (log 10). -/
def srcReadN : Nat → State → Result (Option (List Byte))
  | 0, s => .done (some []) s
  | n + 1, s => (srcRead s).andThen fun r s =>
    match r with
    | none => .done none s
    | some b => (srcReadN n s).andThen fun rest s => .done (rest.map (b :: ·)) s

/-- Successive `SnkWrite`s, in order. -/
def snkWriteAll : List Byte → State → Result Unit
  | [], s => .done () s
  | b :: bs, s => (snkWrite b s).andThen fun _ s => snkWriteAll bs s

/-- The bytes of the source still to be read. -/
def State.remaining (s : State) : Nat := s.src.data.length - s.src.pos

/-- The form the stream memories keep: the position lies within the source (10_state.md R26; log 7). -/
def Memory.wf (s : State) : Bool := decide (s.src.pos ≤ s.src.data.length)

/-! ### The tables -/

/-- The 256 symbols in ascending order. -/
def symbols : List Byte := (List.range Config.nsym).map (BitVec.ofNat 8)

/-- FREQ[b] (10_state.md R20). -/
def State.freqAt (s : State) (b : Byte) : Word := s.freq[b.toNat]'b.isLt

/-- FREQ[b] takes a value. -/
def State.setFreq (b : Byte) (w : Word) (s : State) : State := { s with freq := s.freq.set b.toNat w b.isLt }

/-- The sum of all counts, as a natural number (R20, 46_container.md R103). -/
def State.freqSum (s : State) : Nat := (symbols.map fun b => (s.freqAt b).toNat).sum

/-- CODE[b] (R24). -/
def State.codeAt (s : State) (b : Byte) : List Digit := s.code[b.toNat]'b.isLt

/-- CODE[b] takes a value. -/
def State.setCode (b : Byte) (ds : List Digit) (s : State) : State := { s with code := s.code.set b.toNat ds b.isLt }

/-- Every code emptied (R76, R84). -/
def State.clearCodes (s : State) : State := { s with code := Vector.replicate 256 [] }

/-- NODE[i] (R22); index 511, which NODE does not have, reads as zero, as the window NODE_WIN0 gives it (R19; log 11). -/
def State.nodeAt (s : State) (i : NodeIdx) : Node := s.node[i.toNat]?.getD Node.zero

/-- The entry at index NNODES takes a value. -/
def State.writeNode (n : Node) (s : State) : State := { s with node := s.node.setIfInBounds s.nnodes.toNat n }

/-- NNODES <- NNODES + 1. -/
def State.bumpNNodes (s : State) : State := { s with nnodes := s.nnodes + 1 }

/-- The weight of an entry. -/
def Node.weight : Node → Word
  | .leaf _ w => w
  | .internal w _ _ => w

/-- The left index of an entry; a leaf's field is zero. -/
def Node.left : Node → NodeIdx
  | .leaf _ _ => 0
  | .internal _ l _ => l

/-- The right index of an entry; a leaf's field is zero. -/
def Node.right : Node → NodeIdx
  | .leaf _ _ => 0
  | .internal _ _ r => r

/-! ### The queue -/

/-- PQ takes a value. -/
def State.setPq (q : List Item) (s : State) : State := { s with pq := q }

/-- Insert into sorted position, after all items of smaller or equal weight (41_priority_queue.md R67). -/
def insertItem (it : Item) (q : List Item) : List Item :=
  let k := q.countP fun x => decide (x.weight.toNat ≤ it.weight.toNat)
  q.take k ++ [it] ++ q.drop k

/-- `PQInsert((w, t))` (R67). -/
def pqInsert (it : Item) (s : State) : Result Unit :=
  if s.pq.length < Config.pqCap then .done () (s.setPq (insertItem it s.pq)) else raise .queueFull 0 s

/-- `PQPopMin()` (R67). -/
def pqPopMin (s : State) : Result Item :=
  match s.pq with
  | [] => raise .emptyQueue 0 s
  | m :: rest => .done m (s.setPq rest)

/-- `PQPeekMin()` (R67). -/
def pqPeekMin (s : State) : Result Item :=
  match s.pq with
  | [] => raise .emptyQueue 0 s
  | m :: _ => .done m s

/-- `PQSize()` (R67). -/
def pqSize (s : State) : Nat := s.pq.length

end Sys2Proof.Machine
end

