-- ==== Sys2Proof/Machine/Operands.lean ====
section
/-! DEFINITION. Operands and results of the queue commands (30_encoding.md R49), and the byte and digit assembly of 00_scope.md R7. -/

namespace Sys2Proof.Machine

open Sys2Proof

/-- The item PQ_INSERT takes: w = ARG0[31:0], t = ARG1[8:0] (R49). -/
def State.insertOperand (s : State) : Item := ⟨s.arg0, s.arg1.extractLsb' 0 9⟩

/-- RES0 <- w, RES1 <- zext_32(t) (R49, 41_priority_queue.md R69). -/
def State.setResult (it : Item) (s : State) : State := { s with res0 := it.weight, res1 := it.tag.setWidth 32 }

/-- RES0 <- the queue's size; RES1 stays (R71). -/
def State.setSize (n : Nat) (s : State) : State := { s with res0 := BitVec.ofNat 32 n }

/-- `LE32(v)` (R7): the less significant byte first. -/
def le32Bytes (v : Word) : List Byte :=
  [v.extractLsb' 0 8, v.extractLsb' 8 8, v.extractLsb' 16 8, v.extractLsb' 24 8]

/-- `le32([b0, b1, b2, b3])` (R7, 30_encoding.md R51). It is only given four bytes. -/
def le32 (bs : List Byte) : Word :=
  BitVec.ofNat 32 (bs.foldr (fun b acc => b.toNat + 256 * acc) 0)

/-- `byte_msb(d)` of eight digits (R7): the first digit in bit 7. -/
def byteMsb (ds : List Digit) : Byte :=
  BitVec.ofNat 8 (ds.foldl (fun acc d => 2 * acc + d.toNat) 0)

/-- `bits_msb(b)` (R7): bit 7 first. -/
def bitsMsb (b : Byte) : List Digit :=
  [b.getLsbD 7, b.getLsbD 6, b.getLsbD 5, b.getLsbD 4, b.getLsbD 3, b.getLsbD 2, b.getLsbD 1, b.getLsbD 0]

/-- A byte as an error's information word (60_exceptions.md R131). -/
def byteInfo (b : Byte) : Word := b.setWidth 32

/-- A command's operation code as an error's information word (R129). -/
def opcInfo (opc : BitVec 8) : Word := opc.setWidth 32

end Sys2Proof.Machine
end

