-- ==== Sys2Proof/Machine/Flags.lean ====
section
/-! DEFINITION. The STATUS flags: the words a host reads them in (10_state.md R15, R17), what sets and clears the validity flags
and what requires them (R25). The block has no arithmetic condition codes. -/

namespace Sys2Proof.Machine

open Sys2Proof

/-- A flag as a number. -/
def bit (b : Bool) : Word := if b then 1 else 0

/-- STATUS (R15). -/
def State.statusWord (s : State) : Word :=
  bit s.fault ||| (bit s.freqValid <<< 1) ||| (bit s.treeDone <<< 2) ||| (bit s.codeValid <<< 3) |||
    (s.err.setWidth 32 <<< 8)

/-- ROOT (R17): VALID in bit 31, IDX in 8:0. -/
def State.rootWord (s : State) : Word := (bit s.rootValid <<< 31) ||| s.rootIdx.setWidth 32

/-- FREQ_VALID <- 1 (R25: COUNT or RDHDR succeeds). -/
def State.setFreqValid (s : State) : State := { s with freqValid := true }

/-- TREE_DONE <- 1 (R25: BUILD succeeds). -/
def State.setTreeDone (s : State) : State := { s with treeDone := true }

/-- CODE_VALID <- 1 (R25: GENCODE succeeds). -/
def State.setCodeValid (s : State) : State := { s with codeValid := true }

/-- CODE_VALID <- 0 (R25: GENCODE starts). -/
def State.clearCodeValid (s : State) : State := { s with codeValid := false }

/-- The head of a stage command: a missing validity flag raises SequenceError with the command's operation code, before any
notification or port access (60_exceptions.md R129, R134). -/
def requireFlags (flags : Bool) (opc : BitVec 8) (s : State) : Result Unit :=
  require flags .sequence (opcInfo opc) s

end Sys2Proof.Machine
end

