-- ==== Sys2Proof/Machine/Container.lean ====
section
/-! DEFINITION. Family 7, the container serializer and deserializer: WRHDR, RDHDR (46_container.md R101 to R106). -/

namespace Sys2Proof.Machine

open Sys2Proof

/-- The 1032 header bytes of the table the block holds (30_encoding.md R50). -/
def headerBytes (s : State) : List Byte :=
  Config.magic ++ le32Bytes s.total ++ symbols.flatMap fun b => le32Bytes (s.freqAt b)

/-- The body of WRHDR (R102). -/
def wrhdrBody (s : State) : Result Unit :=
  (requireFlags s.freqValid (opc .wrhdr) s).andThen fun _ s =>
  (notify .writingHeader s).andThen fun _ s =>
  snkWriteAll (headerBytes s) s

/-- WRHDR: append the header to the sink (R102). -/
def execWrhdr (s : State) : Host.Outcome State Fault Refusal := (wrhdrBody s).outcome

/-- TOTAL takes a value. -/
def State.setTotal (w : Word) (s : State) : State := { s with total := w }

/-- Four header bytes, or MalformedContainerError(2), truncated header (R103). -/
def readField (s : State) : Result (List Byte) :=
  (srcReadN 4 s).andThen fun r s =>
    match r with
    | none => raise .malformedContainer 2 s
    | some bs => .done bs s

/-- The counts of the symbols of the list are read, in its order (R103). -/
def readCounts : List Byte → State → Result Unit
  | [], s => .done () s
  | b :: bs, s => (readField s).andThen fun c s => readCounts bs (s.setFreq b (le32 c))

/-- The body of RDHDR (R103, R104, R105). -/
def rdhdrBody (s : State) : Result Unit :=
  (notify .readingHeader s.clearEngine).andThen fun _ s =>
  (readField s).andThen fun m s =>
  (require (decide (m = Config.magic)) .malformedContainer 1 s).andThen fun _ s =>
  (readField s).andThen fun l s =>
  (readCounts symbols (s.setTotal (le32 l))).andThen fun _ s =>
  (require (decide (s.freqSum = s.total.toNat)) .malformedContainer 3 s).andThen fun _ s =>
  .done () s.setFreqValid

/-- RDHDR: read and check the header from the source (R103). -/
def execRdhdr (s : State) : Host.Outcome State Fault Refusal := (rdhdrBody s).outcome

end Sys2Proof.Machine
end

