-- ==== Sys2Proof/Machine/Counter.lean ====
section
/-! DEFINITION. Family 1, the frequency counter: COUNT (40_frequency_counter.md R63 to R66). -/

namespace Sys2Proof.Machine

open Sys2Proof

/-- FREQ[b] <- FREQ[b] + 1, TOTAL <- TOTAL + 1 (R64). -/
def State.countByte (b : Byte) (s : State) : State :=
  { s.setFreq b (s.freqAt b + 1) with total := s.total + 1 }

/-- The loop of COUNT (R64). `fuel` bounds its rounds: one for each byte left and one for EOS. -/
def countLoop : Nat → State → Result Unit
  | 0, _ => .stuck .diverges
  | fuel + 1, s => (srcRead s).andThen fun r s =>
    match r with
    | none => .done () s
    | some b =>
      (require (decide (s.total.toNat < Config.maxLen)) .lengthOverflow 0 s).andThen fun _ s =>
        countLoop fuel (s.countByte b)

/-- The body of COUNT (R64). -/
def countBody (s : State) : Result Unit :=
  (notify .counting s.clearEngine).andThen fun _ s =>
  (srcRewind s).andThen fun _ s =>
  (countLoop (s.remaining + 1) s).andThen fun _ s =>
  .done () s.setFreqValid

/-- COUNT: count the bytes of the source (R64). -/
def execCount (s : State) : Host.Outcome State Fault Refusal := (countBody s).outcome

end Sys2Proof.Machine
end

