-- ==== Sys2Proof/Machine/Tree.lean ====
section
/-! DEFINITION. Family 3, the tree builder: BUILD (42_tree_builder.md R75 to R80), and the tree that NODE and ROOT denote
(10_state.md R23). -/

namespace Sys2Proof.Machine

open Sys2Proof

/-- What BUILD clears before it seeds (R76). -/
def State.startBuild (s : State) : State :=
  { s.clearCodes with
    treeDone := false
    codeValid := false
    node := Vector.replicate 511 Node.zero
    nnodes := 0
    ndist := 0
    rootValid := false
    rootIdx := 0
    pq := [] }

/-- NODE[NNODES] <- n; PQInsert((weight of n, NNODES)); NNODES <- NNODES + 1 (R76, R79). -/
def addNode (n : Node) (s : State) : Result Unit :=
  (pqInsert ⟨n.weight, s.nnodes⟩ (s.writeNode n)).andThen fun _ s => .done () s.bumpNNodes

/-- Seeding: one leaf for each symbol of the list with a count above 0, in the list's order (R76). -/
def seedLoop : List Byte → State → Result Unit
  | [], s => .done () s
  | b :: bs, s =>
    if 0 < (s.freqAt b).toNat then
      (addNode (.leaf b (s.freqAt b)) s).andThen fun _ s => seedLoop bs s
    else seedLoop bs s

/-- NDIST <- NNODES (R76). -/
def State.recordNDist (s : State) : State := { s with ndist := s.nnodes }

/-- Merging (R76): the item popped first becomes the right child, the item popped second the left child. The sum of the weights
is taken on natural numbers (00_scope.md R6); one that does not fit its 32 bits has no meaning (log 9). `fuel` bounds the
rounds: the queue gets one shorter in each (R78). -/
def mergeLoop : Nat → State → Result Unit
  | 0, _ => .stuck .diverges
  | fuel + 1, s =>
    if pqSize s > 1 then
      (pqPopMin s).andThen fun first s =>
      (pqPopMin s).andThen fun second s =>
      if first.weight.toNat + second.weight.toNat ≤ Config.maxLen then
        (addNode (.internal (first.weight + second.weight) second.tag first.tag) s).andThen fun _ s =>
        mergeLoop fuel s
      else .stuck .weightOverflow
    else .done () s

/-- ROOT <- (VALID = 1, IDX = t) (R76). -/
def State.setRoot (t : NodeIdx) (s : State) : State := { s with rootValid := true, rootIdx := t }

/-- The last pop, made when one item is left (R76). -/
def takeRoot (s : State) : Result Unit :=
  if pqSize s = 1 then (pqPopMin s).andThen fun it s => .done () (s.setRoot it.tag) else .done () s

/-- The body of BUILD (R76). -/
def buildBody (s : State) : Result Unit :=
  (requireFlags s.freqValid (opc .build) s).andThen fun _ s =>
  (notify .buildingTree s).andThen fun _ s =>
  (seedLoop symbols s.startBuild).andThen fun _ s =>
  (mergeLoop Config.pqCap s.recordNDist).andThen fun _ s =>
  (takeRoot s).andThen fun _ s =>
  .done () s.setTreeDone

/-- BUILD: build the tree from the frequency table (R76). -/
def execBuild (s : State) : Host.Outcome State Fault Refusal := (buildBody s).outcome

/-- The document's tree as a value (10_state.md R23). -/
inductive Tree where
  | leaf (byte : Byte) (weight : Word)
  | internal (weight : Word) (left right : Tree)
  deriving DecidableEq, Repr

/-- The weight at the top of a tree. -/
def Tree.weight : Tree → Word
  | .leaf _ w => w
  | .internal w _ _ => w

/-- The leaves of a tree with the digits of the path to each, root end first: 0 for a step to a left child, 1 for a step to a right
child (43_code_table.md R85). -/
def Tree.leafPaths : Tree → List (Byte × List Digit)
  | .leaf b _ => [(b, [])]
  | .internal _ l r =>
    (l.leafPaths.map fun x => (x.1, false :: x.2)) ++ r.leafPaths.map fun x => (x.1, true :: x.2)

/-- The symbols at the leaves of a tree, left to right. -/
def Tree.symbols : Tree → List Byte
  | .leaf b _ => [b]
  | .internal _ l r => l.symbols ++ r.symbols

/-- Every internal node's weight is the sum of its children's (10_state.md R22). -/
def Tree.weightsAdd : Tree → Bool
  | .leaf _ _ => true
  | .internal w l r =>
    decide (w.toNat = l.weight.toNat + r.weight.toNat) && l.weightsAdd && r.weightsAdd

/-- Every leaf's weight is its symbol's count in the state's table (10_state.md R22, R23). -/
def Tree.leavesCount (s : State) : Tree → Bool
  | .leaf b w => decide (w = s.freqAt b)
  | .internal _ l r => l.leavesCount s && r.leavesCount s

/-- `Tree(i)` (10_state.md R23), or `none` when the walk from `i` does not end within `fuel` levels. -/
def treeAt (s : State) : Nat → NodeIdx → Option Tree
  | 0, _ => none
  | fuel + 1, i =>
    match s.nodeAt i with
    | .leaf b w => some (.leaf b w)
    | .internal w l r =>
      match treeAt s fuel l, treeAt s fuel r with
      | some tl, some tr => some (.internal w tl tr)
      | _, _ => none

/-- The block's tree: none if ROOT.VALID = 0 (10_state.md R23). -/
def State.tree (s : State) : Option Tree := if s.rootValid then treeAt s Config.nodeCap s.rootIdx else none

end Sys2Proof.Machine
end

