-- ==== Sys2Proof/Machine/Decoder.lean ====
section
/-! DEFINITION. Family 6, the bit-unpacking decoder: DECODE (45_decoder.md R94 to R99). -/

namespace Sys2Proof.Machine

open Sys2Proof

/-- EMITTED <- EMITTED + 1 (R95). -/
def State.bumpEmitted (s : State) : State := { s with emitted := s.emitted + 1 }

/-- EMITTED <- 0 (R95). -/
def State.clearEmitted (s : State) : State := { s with emitted := 0 }

/-- A decoded byte goes to the sink and is counted (R95). -/
def emit (b : Byte) (s : State) : Result Unit :=
  (snkWrite b s).andThen fun _ s => .done () s.bumpEmitted

/-- The child a bit descends to (R95): 0 is left, 1 is right. -/
def Node.child (bit : Digit) (n : Node) : NodeIdx := if bit then n.right else n.left

/-- One bit of the walk (R95, R96): the value is the new walk position. -/
def decodeBit (root : NodeIdx) (bit : Digit) (cur : NodeIdx) (s : State) : Result NodeIdx :=
  match s.nodeAt root with
  | .leaf b _ =>
    (require (!bit) .treeShape 0 s).andThen fun _ s =>
    (emit b s).andThen fun _ s => .done cur s
  | .internal _ _ _ =>
    match s.nodeAt ((s.nodeAt cur).child bit) with
    | .leaf b _ => (emit b s).andThen fun _ s => .done root s
    | .internal _ _ _ => .done ((s.nodeAt cur).child bit) s

/-- The bits of one byte, until EMITTED = TOTAL (R95): the remaining bits are discarded. -/
def decodeBits (root : NodeIdx) : List Digit → NodeIdx → State → Result NodeIdx
  | [], cur, s => .done cur s
  | bit :: bits, cur, s =>
    (decodeBit root bit cur s).andThen fun cur s =>
    if s.emitted = s.total then .done cur s else decodeBits root bits cur s

/-- The outer loop of DECODE (R95). `fuel` bounds its rounds: one for each byte left and one for the end. -/
def decodeLoop (root : NodeIdx) : Nat → NodeIdx → State → Result Unit
  | 0, _, _ => .stuck .diverges
  | fuel + 1, cur, s =>
    if s.emitted.toNat < s.total.toNat then
      (srcRead s).andThen fun r s =>
      match r with
      | none => raise .malformedContainer 4 s
      | some b => (decodeBits root (bitsMsb b) cur s).andThen fun cur s => decodeLoop root fuel cur s
    else .done () s

/-- The body of DECODE (R95). -/
def decodeBody (s : State) : Result Unit :=
  (requireFlags (s.freqValid && s.treeDone) (opc .decode) s).andThen fun _ s =>
  (notify .readingPayload s).andThen fun _ s =>
  let s := s.clearEmitted
  if 0 < s.total.toNat then decodeLoop s.rootIdx (s.remaining + 1) s.rootIdx s else .done () s

/-- DECODE: read packed codes from the source and write the decoded bytes to the sink (R95). -/
def execDecode (s : State) : Host.Outcome State Fault Refusal := (decodeBody s).outcome

end Sys2Proof.Machine
end

