-- ==== Sys2Proof/Machine/Codes.lean ====
section
/-! DEFINITION. Family 4, the code-table generator: GENCODE (43_code_table.md R83 to R87). -/

namespace Sys2Proof.Machine

open Sys2Proof

/-- `Walk(i, acc)` (R84): left appends digit 0, right appends digit 1, a leaf records the digits. `fuel` bounds the levels by the
number of node entries (R107); the walk of a node store that holds a cycle does not end (log 8). -/
def walk : Nat → NodeIdx → List Digit → State → Result Unit
  | 0, _, _, _ => .stuck .diverges
  | fuel + 1, i, acc, s =>
    match s.nodeAt i with
    | .leaf b _ => .done () (s.setCode b acc)
    | .internal _ l r =>
      (walk fuel l (acc ++ [false]) s).andThen fun _ s => walk fuel r (acc ++ [true]) s

/-- The codes of the tree at the root (R84): the one-digit code of a single leaf, or the walk. -/
def codesFromRoot (s : State) : Result Unit :=
  if s.rootValid then
    match s.nodeAt s.rootIdx with
    | .leaf b _ => .done () (s.setCode b [false])
    | .internal _ _ _ => walk Config.nodeCap s.rootIdx [] s
  else .done () s

/-- The body of GENCODE (R84). -/
def gencodeBody (s : State) : Result Unit :=
  (requireFlags s.treeDone (opc .gencode) s).andThen fun _ s =>
  (notify .derivingCodes s).andThen fun _ s =>
  (codesFromRoot s.clearCodeValid.clearCodes).andThen fun _ s =>
  .done () s.setCodeValid

/-- GENCODE: derive the code of every symbol present (R84). -/
def execGencode (s : State) : Host.Outcome State Fault Refusal := (gencodeBody s).outcome

end Sys2Proof.Machine
end

