-- ==== Sys2Proof/Machine/Encoder.lean ====
section
/-! DEFINITION. Family 5, the bit-packing encoder: ENCODE (44_encoder.md R88 to R92). -/

namespace Sys2Proof.Machine

open Sys2Proof

/-- The inner loop of ENCODE (R89): the digits join the buffer, and a full buffer is written and emptied. The value is the buffer
that is left. -/
def pushDigits : List Digit → List Digit → State → Result (List Digit)
  | [], buf, s => .done buf s
  | d :: ds, buf, s =>
    if (buf ++ [d]).length = 8 then
      (snkWrite (byteMsb (buf ++ [d])) s).andThen fun _ s => pushDigits ds [] s
    else pushDigits ds (buf ++ [d]) s

/-- The outer loop of ENCODE (R89), with the transient BUF and N; the value is both at EOS. `fuel` bounds its rounds: one for each
byte left and one for EOS. -/
def encodeLoop : Nat → List Digit → Nat → State → Result (List Digit × Nat)
  | 0, _, _, _ => .stuck .diverges
  | fuel + 1, buf, n, s => (srcRead s).andThen fun r s =>
    match r with
    | none => .done (buf, n) s
    | some b =>
      (require (decide (n < s.total.toNat)) .sourceChanged (BitVec.ofNat 32 n) s).andThen fun _ s =>
      (require (decide (0 < (s.codeAt b).length)) .noCode (byteInfo b) s).andThen fun _ s =>
      (pushDigits (s.codeAt b) buf s).andThen fun buf s =>
      encodeLoop fuel buf (n + 1) s

/-- The last byte of the payload: the digits that are left and PAD in every other bit (R89, R90). -/
def padByte (buf : List Digit) : Byte := byteMsb (buf ++ List.replicate (8 - buf.length) Config.pad)

/-- The end of ENCODE (R89): the digits that are left, if any, are written as a final byte. -/
def flushBuf (buf : List Digit) (s : State) : Result Unit :=
  if 0 < buf.length then snkWrite (padByte buf) s else .done () s

/-- The body of ENCODE (R89). -/
def encodeBody (s : State) : Result Unit :=
  (requireFlags (s.freqValid && s.codeValid) (opc .encode) s).andThen fun _ s =>
  (notify .writingPayload s).andThen fun _ s =>
  (srcRewind s).andThen fun _ s =>
  (encodeLoop (s.remaining + 1) [] 0 s).andThen fun (buf, n) s =>
  (require (decide (n = s.total.toNat)) .sourceChanged (BitVec.ofNat 32 n) s).andThen fun _ s =>
  flushBuf buf s

/-- ENCODE: write the packed codes of the source bytes to the sink (R89). -/
def execEncode (s : State) : Host.Outcome State Fault Refusal := (encodeBody s).outcome

end Sys2Proof.Machine
end

