-- ==== Sys2Proof/Machine/Codec.lean ====
section
/-! DEFINITION. Family 8, the codec and the system commands: COMPRESS, DECOMPRESS, NOP, RESET (47_codec.md R108 to R114). -/

namespace Sys2Proof.Machine

open Sys2Proof

/-- NOP: no state changes, no notification, no port access (R108). -/
def execNop (s : State) : Host.Outcome State Fault Refusal := .next s

/-- RESET: the block's reset state; the environment keeps its own (R109, 70_reset_and_hazards.md R151). -/
def execReset (s : State) : Host.Outcome State Fault Refusal := .next s.resetBlock

/-- The second half of COMPRESS, run when TOTAL > 0 (R110). -/
def payloadBody (s : State) : Result Unit :=
  (buildBody s).andThen fun _ s =>
  (gencodeBody s).andThen fun _ s =>
  encodeBody s

/-- The body of COMPRESS (R110). -/
def compressBody (s : State) : Result Unit :=
  (countBody s).andThen fun _ s =>
  (wrhdrBody s).andThen fun _ s =>
  if 0 < s.total.toNat then payloadBody s else .done () s

/-- COMPRESS: the whole compression, source to container (R110). -/
def execCompress (s : State) : Host.Outcome State Fault Refusal := (compressBody s).outcome

/-- The body of DECOMPRESS (R111). -/
def decompressBody (s : State) : Result Unit :=
  (rdhdrBody s).andThen fun _ s =>
  (buildBody s).andThen fun _ s =>
  decodeBody s

/-- DECOMPRESS: the whole decompression, container to reconstructed bytes (R111). -/
def execDecompress (s : State) : Host.Outcome State Fault Refusal := (decompressBody s).outcome

end Sys2Proof.Machine
end

