-- ==== Sys2Proof/Machine/Queue.lean ====
section
/-! DEFINITION. Family 2, the priority queue: PQ_INSERT, PQ_POPMIN, PQ_PEEKMIN, PQ_SIZE (41_priority_queue.md R68 to R74). -/

namespace Sys2Proof.Machine

open Sys2Proof

/-- PQ_INSERT (R68). -/
def execPqInsert (s : State) : Host.Outcome State Fault Refusal := (pqInsert s.insertOperand s).outcome

/-- PQ_POPMIN (R69). -/
def execPqPopmin (s : State) : Host.Outcome State Fault Refusal :=
  ((pqPopMin s).andThen fun it s => .done () (s.setResult it)).outcome

/-- PQ_PEEKMIN (R70). -/
def execPqPeekmin (s : State) : Host.Outcome State Fault Refusal :=
  ((pqPeekMin s).andThen fun it s => .done () (s.setResult it)).outcome

/-- PQ_SIZE (R71). -/
def execPqSize (s : State) : Host.Outcome State Fault Refusal := .next (s.setSize (Sys2Proof.Machine.pqSize s))

end Sys2Proof.Machine
end

