-- ==== Sys2Proof/Machine/HostRegs.lean ====
section
/-! DEFINITION. The host's side: the register file's reads and writes (10_state.md R13 to R19, R29), the command dispatch
(47_codec.md R107), the inputs of a step, and the expansion of a script (30_encoding.md R56, R57). -/

namespace Sys2Proof.Machine

open Sys2Proof

/-- SEL[7:0] as a symbol (R19). -/
def State.selSymbol (s : State) : Byte := s.sel.extractLsb' 0 8

/-- NODE_WIN1 (R19). -/
def State.nodeWin1 (s : State) : Word :=
  if s.sel.toNat < s.nnodes.toNat then
    match s.nodeAt s.sel with
    | .leaf b _ => (1 <<< 30) ||| b.setWidth 32
    | .internal _ l r => (1 <<< 31) ||| (1 <<< 30) ||| (r.setWidth 32 <<< 9) ||| l.setWidth 32
  else 0

/-- CODE_BITS_WINj (R19): bit (31 - i) is digit number 32*j + i; a digit beyond the code's length is 0. -/
def codeBits (ds : List Digit) (j : Nat) : Word :=
  BitVec.ofNat 32 ((List.range 32).foldl (fun acc i => 2 * acc + (ds.getD (32 * j + i) false).toNat) 0)

/-- A host read of register number `n` (R13 to R19, R29): a pure function of the state; CMD reads 0, and so does a number
above 24. -/
def hostRead (n : Nat) (s : State) : Word :=
  match n with
  | 1 => s.statusWord
  | 2 => s.errInfo
  | 3 => s.total
  | 4 => s.ndist.setWidth 32
  | 5 => s.nnodes.setWidth 32
  | 6 => s.rootWord
  | 7 => s.emitted
  | 8 => s.arg0
  | 9 => s.arg1
  | 10 => s.res0
  | 11 => s.res1
  | 12 => s.sel.setWidth 32
  | 13 => s.freqAt s.selSymbol
  | 14 => (s.nodeAt s.sel).weight
  | 15 => s.nodeWin1
  | 16 => BitVec.ofNat 32 (s.codeAt s.selSymbol).length
  | 17 => codeBits (s.codeAt s.selSymbol) 0
  | 18 => codeBits (s.codeAt s.selSymbol) 1
  | 19 => codeBits (s.codeAt s.selSymbol) 2
  | 20 => codeBits (s.codeAt s.selSymbol) 3
  | 21 => codeBits (s.codeAt s.selSymbol) 4
  | 22 => codeBits (s.codeAt s.selSymbol) 5
  | 23 => codeBits (s.codeAt s.selSymbol) 6
  | 24 => codeBits (s.codeAt s.selSymbol) 7
  | _ => 0

/-- A host write of a register other than CMD (R18, R19, R29): ARG0, ARG1 and the nine kept bits of SEL take the value; every
other write is ignored. -/
def hostWrite (n : Nat) (v : Word) (s : State) : State :=
  match n with
  | 8 => { s with arg0 := v }
  | 9 => { s with arg1 := v }
  | 12 => { s with sel := v.extractLsb' 0 9 }
  | _ => s

/-- A write of CMD (47_codec.md R107, 60_exceptions.md R136): in the fault state every word but RESET is ignored; otherwise an
illegal word raises IllegalCommandError with the word, and a command is executed. -/
def commandWrite (w : Word) (s : State) : Host.Outcome State Fault Refusal :=
  if s.fault then
    if w = encode .reset then exec .reset s else .next s
  else
    match decode w with
    | .ok i => exec i s
    | .error _ => (raise .illegalCommand w s : Result Unit).outcome

/-- One input is taken (logs 1, 3, 4). -/
def takeInput (i : Input) (s : State) : Host.Outcome State Fault Refusal :=
  match i with
  | .write reg v => if reg = 0 then commandWrite v s else .next (hostWrite reg v s)
  | .read reg => .next { s with seen := s.seen ++ [hostRead reg s] }
  | .hardReset => .next s.resetBlock
  | .setSource before after => .next { s with src := ⟨before ++ after, before.length⟩ }
  | .setSink bytes => .next { s with snk := bytes }

/-- One step: the oldest input is taken; with none the block waits (70_reset_and_hazards.md R150). -/
def stepInput (s : State) : Host.Outcome State Fault Refusal :=
  match s.inputs with
  | [] => .next s
  | i :: rest => takeInput i { s with inputs := rest }

/-- The word of at most 32 bits that the host of the model places: a write of CMD before every other input. -/
def placeWord (nbits w : Nat) (s : State) : State :=
  { s with inputs := .write 0 (BitVec.ofNat 32 (w % 2 ^ nbits)) :: s.inputs }

/-- The inputs a script line stands for (30_encoding.md R56, R57); of a line that is not well formed nothing is said. -/
def expandLine : ScriptLine → List Input
  | .command i => [.write 0 (encode i)]
  | .pqInsertItem w t => [.write 8 (BitVec.ofNat 32 w), .write 9 (BitVec.ofNat 32 t), .write 0 (encode .pqInsert)]
  | .wr reg value => [.write reg (BitVec.ofNat 32 value)]
  | .rd reg => [.read reg]
  | .src bytes pos => [.setSource (bytes.take pos) (bytes.drop pos)]
  | .snk bytes => [.setSink bytes]

/-- The inputs of a script, in its order (R56). -/
def expandScript (ls : List ScriptLine) : List Input := ls.flatMap expandLine

end Sys2Proof.Machine
end

