-- ==== Sys2Proof/Machine/Step.lean ====
section
/-! DEFINITION. One step of the machine (10_state.md R10, 47_codec.md R107): the engine takes the oldest input and finishes it. -/

namespace Sys2Proof.Machine

/-- One step; the work is `stepInput`'s (Machine/HostRegs.lean). -/
def step (s : State) : Host.Outcome State Fault Refusal := stepInput s

/-- The state in which the next step runs the command word `w`: the block fetches no instruction, it executes the word written to
CMD (10_state.md R12, R14), so the write stands before every other input (log 12). -/
def State.withFetchWord (s : State) (nbits w : Nat) : State := placeWord nbits w s

end Sys2Proof.Machine
end

