-- ==== Sys2Proof/Safety.lean ====
section
/-! DEFINITION. The terms statements use: what a well-behaved environment is, the invariant of the machine's states, and the
functions of the rules that the engine computes step by step (the payload of 30_encoding.md R52). -/

namespace Sys2Proof.Machine

open Sys2Proof

/-- The environment serves every coming request: no port fails and no reset cuts a command off. -/
abbrev Quiet (s : State) : Prop := s.answers = []

/-- No hardware reset cuts a coming command off; ports may fail. -/
abbrev NoCut (s : State) : Prop := Answer.reset ∉ s.answers

/-- The block is in the fault state with this error and information word (60_exceptions.md R133). -/
def Faulted (e : Error) (info : Word) (s : State) : Prop := s.fault = true ∧ s.err = e.code ∧ s.errInfo = info

/-- The weights along the queue do not decrease (10_state.md R21). -/
def SortedQueue (q : List Item) : Prop := q.Pairwise fun a b => a.weight.toNat ≤ b.weight.toNat

/-- The distinct symbols present, in ascending order (00_scope.md R9). -/
def State.present (s : State) : List Byte := symbols.filter fun b => decide (0 < (s.freqAt b).toNat)

/-- The payload of a digit sequence (30_encoding.md R52): byte k holds digits 8k to 8k + 7 of the sequence padded with PAD. -/
def payload (ds : List Digit) : List Byte :=
  let n := (ds.length + 7) / 8
  let padded := ds ++ List.replicate (8 * n - ds.length) Config.pad
  (List.range n).map fun k => byteMsb ((padded.drop (8 * k)).take 8)

/-- The concatenation of the codes of a byte sequence (R52). -/
def State.codesOf (s : State) (xs : List Byte) : List Digit := xs.flatMap s.codeAt

/-- The codes rule R84 of 43_code_table.md gives to a tree: the one-digit code of a single leaf, or the paths. -/
def Tree.codes : Tree → List (Byte × List Digit)
  | .leaf b _ => [(b, [false])]
  | .internal w l r => (Tree.internal w l r).leafPaths

/-- The codes of the state's tree: none where there is no tree (R84). -/
def State.treeCodes (s : State) : List (Byte × List Digit) :=
  match s.tree with
  | some T => T.codes
  | none => []

/-- The code the state's tree gives to a symbol; a symbol that is at no leaf has none (R84). -/
def State.treeCode (s : State) (b : Byte) : List Digit := (s.treeCodes.lookup b).getD []

/-- A tree goes behind every tree of smaller or equal weight and before every tree of larger weight
(41_priority_queue.md R67). -/
def insertTree (T : Tree) (q : List Tree) : List Tree :=
  q.filter (fun x => decide (x.weight.toNat ≤ T.weight.toNat)) ++ [T] ++
    q.filter fun x => decide (T.weight.toNat < x.weight.toNat)

/-- One leaf for each symbol present, inserted in ascending order of byte value (42_tree_builder.md R76, seeding). -/
def State.seedTrees (s : State) : List Tree :=
  s.present.foldl (fun q b => insertTree (.leaf b (s.freqAt b)) q) []

/-- The merging of R76 on trees as values, without node indices: the tree taken first becomes the right child, the tree taken second
the left child. `fuel` bounds the rounds. -/
def mergeTrees : Nat → List Tree → Option Tree
  | _, [] => none
  | _, [T] => some T
  | 0, _ :: _ :: _ => none
  | fuel + 1, a :: b :: q => mergeTrees fuel (insertTree (.internal (a.weight + b.weight) b a) q)

/-- The tree of a table, as the document describes it (R75, R76): a function of FREQ alone. -/
def State.tableTree (s : State) : Option Tree := mergeTrees Config.pqCap s.seedTrees

/-- The code that the tree of the table gives to a symbol (43_code_table.md R84). -/
def State.tableCode (s : State) (b : Byte) : List Digit :=
  match s.tableTree with
  | some T => (T.codes.lookup b).getD []
  | none => []

/-- PQ_INSERT executed once for each item of a list, in its order, the host writing ARG0 and ARG1 before each
(41_priority_queue.md R72). -/
def insertRun : List Item → State → Host.Outcome State Fault Refusal
  | [], s => .next s
  | it :: its, s =>
    match exec .pqInsert { s with arg0 := it.weight, arg1 := it.tag.setWidth 32 } with
    | .next t => insertRun its t
    | .fault f => .fault f
    | .refused r => .refused r

/-- What RES0 and RES1 hold after each of `n` successive PQ_POPMINs, up to the first that does not answer a next state (R72). -/
def popRun : Nat → State → List (Word × Word)
  | 0, _ => []
  | n + 1, s =>
    match exec .pqPopmin s with
    | .next t => (t.res0, t.res1) :: popRun n t
    | .fault _ => []
    | .refused _ => []

/-- The bytes from the source's position on. -/
def State.rest (s : State) : List Byte := s.src.data.drop s.src.pos

/-- The state without its observer (60_exceptions.md R140). -/
def State.unobserved (s : State) : State := { s with observerAttached := false, obs := [] }

/-- OBS when these phase codes have been notified (30_encoding.md R55, 60_exceptions.md R140). -/
def State.notified (s : State) (codes : List Nat) : List Nat := if s.observerAttached then s.obs ++ codes else s.obs

/-- The state of a run that asks what a command's next action is: with an observer, and with these answers. Statements compare it with
the run in the state itself, up to that action. -/
def State.probe (s : State) (as : List Answer) : State := { s with observerAttached := true, answers := as }

/-- What BUILD leaves for the table of the state (10_state.md R23, 42_tree_builder.md R78, R79): no tree for the empty table, and
otherwise one tree whose leaves are the symbols present with their counts. -/
def TreeOfTable (s : State) : Prop :=
  s.ndist.toNat = s.present.length ∧
  (s.present = [] → s.rootValid = false ∧ s.rootIdx = 0 ∧ s.nnodes = 0) ∧
  (s.present ≠ [] → s.rootValid = true ∧ s.nnodes.toNat = 2 * s.ndist.toNat - 1 ∧
    s.rootIdx.toNat = s.nnodes.toNat - 1 ∧
    ∃ t, s.tree = some t ∧ t.symbols.Perm s.present ∧ t.weight.toNat = s.freqSum ∧ t.weightsAdd = true ∧
      t.leavesCount s = true)

/-- The invariant: it holds at reset and every step keeps it. -/
structure Inv (s : State) : Prop where
  /-- 10_state.md R26. -/
  sourcePos : Memory.wf s = true
  /-- STATUS.ERR and ERRINFO are 0 while FAULT is (R15, R16, 60_exceptions.md R121). -/
  errClear : s.fault = false → s.err = 0 ∧ s.errInfo = 0
  /-- In the fault state ERR is the code of an error that can be raised (R121, R123). -/
  errCode : s.fault = true → ∃ e : Error, e ≠ .notComparable ∧ s.err = e.code
  /-- 10_state.md R21. -/
  queueSorted : SortedQueue s.pq
  /-- 10_state.md R21. -/
  queueCap : s.pq.length ≤ Config.pqCap
  /-- Whenever FREQ_VALID = 1 the counts add up to TOTAL (R20). -/
  tableSum : s.freqValid = true → s.freqSum = s.total.toNat
  /-- TREE_DONE comes after FREQ_VALID and CODE_VALID after TREE_DONE (R25). -/
  flagOrder : (s.codeValid = true → s.treeDone = true) ∧ (s.treeDone = true → s.freqValid = true)
  /-- An unallocated entry is all zero (R22). -/
  nodesFree : ∀ i : NodeIdx, s.nnodes.toNat ≤ i.toNat → s.nodeAt i = Node.zero
  /-- 10_state.md R23. -/
  treeOfTable : s.treeDone = true → TreeOfTable s
  /-- A symbol has a code exactly when it is present (R24). -/
  codeTable : s.codeValid = true → ∀ b, s.codeAt b ≠ [] ↔ 0 < (s.freqAt b).toNat
  /-- CODE_VALID = 1 says that CODE is derived from the current tree (R25, 43_code_table.md R84). -/
  codeOfTree : s.codeValid = true → ∀ b, s.codeAt b = s.treeCode b
  /-- A code has at most 255 digits (R24, 43_code_table.md R87). -/
  codeLength : ∀ b, (s.codeAt b).length ≤ Config.maxCodeLen

end Sys2Proof.Machine
end

