-- ==== Sys2Proof/Certificates/Slice0/Obligations.lean ====
section
/-! DEFINITION. The statements about the model, one for each numbered rule or group of rules of spec/ that it formalises. `exec` is the
execution of a command's body, `step` takes the host's or the platform's oldest input. -/

open Sys2Proof Sys2Proof.Machine

/-! ### Encodings -/

/-- The fifteen command words of 30_encoding.md R47, each written out, decode to their commands, and no other word decodes. -/
def Obligations.CommandWordsDecode : Prop :=
  decode 0x00000000 = .ok .nop ∧ decode 0x00000001 = .ok .reset ∧ decode 0x00000010 = .ok .pqInsert ∧
  decode 0x00000011 = .ok .pqPopmin ∧ decode 0x00000012 = .ok .pqPeekmin ∧ decode 0x00000013 = .ok .pqSize ∧
  decode 0x00000020 = .ok .count ∧ decode 0x00000021 = .ok .build ∧ decode 0x00000022 = .ok .gencode ∧
  decode 0x00000023 = .ok .encode ∧ decode 0x00000024 = .ok .decode ∧ decode 0x00000030 = .ok .wrhdr ∧
  decode 0x00000031 = .ok .rdhdr ∧ decode 0x00000040 = .ok .compress ∧ decode 0x00000041 = .ok .decompress ∧
  ∀ w i, decode w = .ok i →
    w ∈ [(0x00 : Word), 0x01, 0x10, 0x11, 0x12, 0x13, 0x20, 0x21, 0x22, 0x23, 0x24, 0x30, 0x31, 0x40, 0x41]

/-- A word decodes to a command exactly when it is the command's encoding, ZERO in 31:8 and OPC in 7:0 (R46, R47): decoding loses no
bit and accepts no other word. -/
def Obligations.DecodeAndEncodeAgree : Prop :=
  ∀ (w : Word) (i : Instr),
    (decode w = .ok i ↔ w = encode i) ∧
    (w = encode i ↔ w.extractLsb' 8 24 = 0 ∧ w.extractLsb' 0 8 = opc i)

/-- The value of a four-byte field, the byte at the lower offset the less significant (30_encoding.md R51), and that writing the
value gives the bytes back (00_scope.md R7). -/
def Obligations.FieldAssembly : Prop :=
  ∀ b0 b1 b2 b3 : Byte,
    (le32 [b0, b1, b2, b3]).toNat = b0.toNat + 2 ^ 8 * b1.toNat + 2 ^ 16 * b2.toNat + 2 ^ 24 * b3.toNat ∧
    le32Bytes (le32 [b0, b1, b2, b3]) = [b0, b1, b2, b3]

/-- The first digit of a byte stands in bit 7 and the last in bit 0, in both directions (00_scope.md R7, 20_memory.md R34). -/
def Obligations.BitOrder : Prop :=
  (∀ ds : List Digit, ds.length = 8 → ∀ k, k < 8 → (byteMsb ds).getLsbD (7 - k) = ds.getD k false) ∧
  ∀ (b : Byte) (k : Nat), k < 8 → (bitsMsb b)[k]? = some (b.getLsbD (7 - k))

/-- A payload of n digits has ceil(n / 8) bytes; digit number n is bit 7 - n mod 8 of byte n div 8, and every bit behind the last digit is
PAD = 0 (30_encoding.md R52, R53, 44_encoder.md R90). -/
def Obligations.PayloadLayout : Prop :=
  ∀ ds : List Digit,
    (payload ds).length = (ds.length + 7) / 8 ∧
    ∀ n, n < 8 * ((ds.length + 7) / 8) → ((payload ds).getD (n / 8) 0).getLsbD (7 - n % 8) = ds.getD n false

/-- The header has 1032 bytes; magic, length and counts stand at the offsets of 30_encoding.md R50. -/
def Obligations.HeaderLayout : Prop :=
  ∀ s : State,
    (headerBytes s).length = 1032 ∧
    (headerBytes s).take 4 = [0x48, 0x55, 0x46, 0x46] ∧
    ((headerBytes s).drop 4).take 4 = le32Bytes s.total ∧
    ∀ b : Byte, ((headerBytes s).drop (8 + 4 * b.toNat)).take 4 = le32Bytes (s.freqAt b)

/-! ### The host's side -/

/-- A write of a command word to CMD in the normal state executes that command's body (47_codec.md R107). The input that is taken leaves
the queue of inputs, which is the model's own (log 1). -/
def Obligations.StepRunsDecodedCommand : Prop :=
  ∀ (s : State) (w : Word) (rest : List Input) (i : Instr),
    s.inputs = .write 0 w :: rest → s.fault = false → decode w = .ok i → step s = exec i { s with inputs := rest }

/-- A word whose ZERO field is not 0 or whose OPC is none of the fifteen codes raises IllegalCommandError with the word, and nothing else
changes (60_exceptions.md R130). -/
def Obligations.IllegalWordRaises : Prop :=
  ∀ (s : State) (w : Word) (rest : List Input),
    s.inputs = .write 0 w :: rest → s.fault = false →
    (w.extractLsb' 8 24 ≠ 0 ∨ ∀ i, w.extractLsb' 0 8 ≠ opc i) →
    step s = .next { s with inputs := rest, fault := true, err := 10, errInfo := w }

/-- In the fault state every command word but RESET is ignored without any effect (47_codec.md R107, 60_exceptions.md R136). -/
def Obligations.FaultStateIgnoresCommands : Prop :=
  ∀ (s : State) (w : Word) (rest : List Input),
    s.inputs = .write 0 w :: rest → s.fault = true →
    (w ≠ 0x00000001 → step s = .next { s with inputs := rest }) ∧
    (w = 0x00000001 → step s = exec .reset { s with inputs := rest })

/-- Whatever the step, the fault state stays, with its error code and its information word, unless the step is RESET or a hardware
reset, which give the reset state (60_exceptions.md R136). -/
def Obligations.FaultStateOnlyLeftByReset : Prop :=
  ∀ s t : State, s.fault = true → step s = .next t →
    (t.fault = true ∧ t.err = s.err ∧ t.errInfo = s.errInfo) ∨
    ∃ rest, (s.inputs = .write 0 0x00000001 :: rest ∨ s.inputs = .hardReset :: rest) ∧
      exec .reset { s with inputs := rest } = .next t

/-- A host write reaches ARG0, ARG1 and the nine kept bits of SEL; a write to any other register but CMD is ignored, in every state
(10_state.md R18, R19, R29). -/
def Obligations.HostWrites : Prop :=
  ∀ (s : State) (n : Nat) (v : Word) (rest : List Input),
    s.inputs = .write n v :: rest → n ≠ 0 →
    (n = 8 → step s = .next { s with inputs := rest, arg0 := v }) ∧
    (n = 9 → step s = .next { s with inputs := rest, arg1 := v }) ∧
    (n = 12 → step s = .next { s with inputs := rest, sel := BitVec.ofNat 9 v.toNat }) ∧
    (n ≠ 8 → n ≠ 9 → n ≠ 12 → step s = .next { s with inputs := rest })

/-- A host read changes nothing of the block or the environment, in any state (R29); the value read joins the model's own list of what
the host has seen (log 1). -/
def Obligations.HostReadsChangeNothing : Prop :=
  ∀ (s : State) (n : Nat) (rest : List Input),
    s.inputs = .read n :: rest → step s = .next { s with inputs := rest, seen := s.seen ++ [hostRead n s] }

/-- What CMD, STATUS, ERRINFO, the data, operand, result and select registers read (10_state.md R14 to R19), and what a number above 24
reads (R29). -/
def Obligations.RegisterValues : Prop :=
  ∀ s : State,
    hostRead 0 s = 0 ∧
    ((hostRead 1 s).getLsbD 0 = s.fault ∧ (hostRead 1 s).getLsbD 1 = s.freqValid ∧ (hostRead 1 s).getLsbD 2 = s.treeDone ∧
      (hostRead 1 s).getLsbD 3 = s.codeValid ∧ (hostRead 1 s).extractLsb' 4 4 = 0 ∧ (hostRead 1 s).extractLsb' 8 8 = s.err ∧
      (hostRead 1 s).extractLsb' 16 16 = 0) ∧
    hostRead 2 s = s.errInfo ∧ hostRead 3 s = s.total ∧ (hostRead 4 s).toNat = s.ndist.toNat ∧
    (hostRead 5 s).toNat = s.nnodes.toNat ∧
    ((hostRead 6 s).getLsbD 31 = s.rootValid ∧ (hostRead 6 s).extractLsb' 9 22 = 0 ∧ (hostRead 6 s).extractLsb' 0 9 = s.rootIdx) ∧
    hostRead 7 s = s.emitted ∧ hostRead 8 s = s.arg0 ∧ hostRead 9 s = s.arg1 ∧ hostRead 10 s = s.res0 ∧
    hostRead 11 s = s.res1 ∧ (hostRead 12 s).toNat = s.sel.toNat ∧
    ∀ n, 24 < n → hostRead n s = 0

/-- What the read windows give for SEL (10_state.md R19). -/
def Obligations.ReadWindows : Prop :=
  ∀ (s : State) (b : Byte), b.toNat = s.sel.toNat % 256 →
    hostRead 13 s = s.freqAt b ∧
    (s.sel.toNat = 511 → hostRead 14 s = 0) ∧
    (∀ h : s.sel.toNat < 511, hostRead 14 s = (s.node[s.sel.toNat]'h).weight) ∧
    (s.nnodes.toNat ≤ s.sel.toNat → hostRead 15 s = 0) ∧
    (∀ h : s.sel.toNat < 511, s.sel.toNat < s.nnodes.toNat →
      (∀ c w, s.node[s.sel.toNat]'h = .leaf c w → (hostRead 15 s).toNat = 2 ^ 30 + c.toNat) ∧
      (∀ w l r, s.node[s.sel.toNat]'h = .internal w l r →
        (hostRead 15 s).toNat = 2 ^ 31 + 2 ^ 30 + 2 ^ 9 * r.toNat + l.toNat)) ∧
    ((s.codeAt b).length ≤ 255 → (hostRead 16 s).toNat = (s.codeAt b).length) ∧
    ∀ j i, j < 8 → i < 32 → (hostRead (17 + j) s).getLsbD (31 - i) = (s.codeAt b).getD (32 * j + i) false

/-- The script line `PQ_INSERT w, t` is three writes: ARG0, ARG1, then the command word (30_encoding.md R56, R57). -/
def Obligations.PqInsertScriptLine : Prop :=
  ∀ (s : State) (w t : Nat) (rest : List Input),
    s.inputs = expandLine (.pqInsertItem w t) ++ rest → s.fault = false →
    ∃ s1 s2, step s = .next s1 ∧ step s1 = .next s2 ∧
      step s2 = exec .pqInsert { s with inputs := rest, arg0 := BitVec.ofNat 32 w, arg1 := BitVec.ofNat 32 t }

/-! ### Reset and NOP -/

/-- RESET and hardware reset put every piece of the block's state to its reset value and leave the environment alone (10_state.md R30,
47_codec.md R109, 70_reset_and_hazards.md R151). -/
def Obligations.ResetState : Prop :=
  ∀ s : State,
    (∃ t, exec .reset s = .next t ∧
      (t.fault = false ∧ t.freqValid = false ∧ t.treeDone = false ∧ t.codeValid = false ∧ t.err = 0 ∧ t.errInfo = 0) ∧
      (t.total = 0 ∧ t.ndist = 0 ∧ t.nnodes = 0 ∧ t.rootValid = false ∧ t.rootIdx = 0 ∧ t.emitted = 0) ∧
      (t.arg0 = 0 ∧ t.arg1 = 0 ∧ t.res0 = 0 ∧ t.res1 = 0 ∧ t.sel = 0) ∧
      ((∀ b, t.freqAt b = 0) ∧ (∀ i, t.nodeAt i = .leaf 0 0) ∧ (∀ b, t.codeAt b = []) ∧ t.pq = []) ∧
      t.src = s.src ∧ t.snk = s.snk ∧ t.obs = s.obs ∧ t.observerAttached = s.observerAttached ∧ t.answers = s.answers ∧
      t.inputs = s.inputs ∧ t.seen = s.seen) ∧
    ∀ rest, s.inputs = .hardReset :: rest → step s = exec .reset { s with inputs := rest }

/-- The state right after reset is in its reset state, with the environment that log 5 and log 6 choose: empty streams and an attached
observer. -/
def Obligations.InitialState : Prop :=
  exec .reset State.reset = .next State.reset ∧ State.reset.src = ⟨[], 0⟩ ∧ State.reset.snk = [] ∧ State.reset.obs = [] ∧
  State.reset.observerAttached = true ∧ State.reset.answers = [] ∧ State.reset.inputs = [] ∧ State.reset.seen = []

/-- The word 0 is NOP, and NOP changes nothing (47_codec.md R108). -/
def Obligations.NopChangesNothing : Prop := decode 0x00000000 = .ok .nop ∧ ∀ s : State, exec .nop s = .next s

/-- A hardware reset during a command abandons it and gives the reset state (70_reset_and_hazards.md R150; the place of the reset among the
command's actions is log 4). First, cut off before WRHDR's sink write number k: what was written stays. Second, cut off at its first
notification: nothing has happened yet. Third, cut off before any action of any command: the block's own state is the reset state,
unless the command ended before that action and left answers unread. -/
def Obligations.ResetDuringCommand : Prop :=
  (∀ (s t : State) (n : Answer) (k : Nat) (rest : List Answer),
    s.freqValid = true → n ≠ .reset → k < 1032 → s.answers = n :: (List.replicate k .served ++ .reset :: rest) →
    exec .reset { s with
      snk := s.snk ++ (headerBytes s).take k
      obs := s.notified [3]
      answers := rest } = .next t →
    exec .wrhdr s = .next t) ∧
  (∀ (i : Instr) (s : State) (rest : List Answer), s.answers = .reset :: rest →
    (i ∈ [Instr.count, .rdhdr, .compress, .decompress] ∨ (i ∈ [Instr.build, .wrhdr] ∧ s.freqValid = true) ∨
      (i = .gencode ∧ s.treeDone = true) ∨ (i = .encode ∧ s.freqValid = true ∧ s.codeValid = true) ∨
      (i = .decode ∧ s.freqValid = true ∧ s.treeDone = true)) →
    exec i s = exec .reset { s with answers := rest }) ∧
  ∀ (i : Instr) (s t : State) (as rest : List Answer), Answer.reset ∉ as → s.answers = as ++ .reset :: rest →
    exec i s = .next t → rest.length < t.answers.length ∨ (t.answers = rest ∧ exec .reset t = .next t)

/-! ### The queue -/

/-- PQ_INSERT puts the item behind every item of smaller or equal weight and before every item of larger weight, or, when the queue holds
256 items, raises QueueFullError with the queue unchanged (41_priority_queue.md R68, 60_exceptions.md R128). -/
def Obligations.PqInsertResult : Prop :=
  decode 0x00000010 = .ok .pqInsert ∧ ∀ s : State, SortedQueue s.pq →
    (s.pq.length < 256 →
      exec .pqInsert s = .next { s with
        pq := s.pq.filter (fun x => decide (x.weight.toNat ≤ s.arg0.toNat)) ++ [⟨s.arg0, BitVec.ofNat 9 s.arg1.toNat⟩] ++
          s.pq.filter fun x => decide (s.arg0.toNat < x.weight.toNat) }) ∧
    (256 ≤ s.pq.length → exec .pqInsert s = .next { s with fault := true, err := 8, errInfo := 0 })

/-- PQ_POPMIN returns and removes the front item, or raises EmptyQueueError (41_priority_queue.md R69). -/
def Obligations.PqPopminResult : Prop :=
  decode 0x00000011 = .ok .pqPopmin ∧ ∀ s : State,
    (∀ m q, s.pq = m :: q → exec .pqPopmin s = .next { s with pq := q, res0 := m.weight, res1 := m.tag.setWidth 32 }) ∧
    (s.pq = [] → exec .pqPopmin s = .next { s with fault := true, err := 1, errInfo := 0 })

/-- PQ_PEEKMIN returns the front item without removing it, or raises EmptyQueueError (41_priority_queue.md R70). -/
def Obligations.PqPeekminResult : Prop :=
  decode 0x00000012 = .ok .pqPeekmin ∧ ∀ s : State,
    (∀ m q, s.pq = m :: q → exec .pqPeekmin s = .next { s with res0 := m.weight, res1 := m.tag.setWidth 32 }) ∧
    (s.pq = [] → exec .pqPeekmin s = .next { s with fault := true, err := 1, errInfo := 0 })

/-- PQ_SIZE returns the number of items in RES0 and leaves RES1 (41_priority_queue.md R71); the queue's bound is R21. -/
def Obligations.PqSizeResult : Prop :=
  decode 0x00000013 = .ok .pqSize ∧
  ∀ s : State, s.pq.length ≤ 256 → ∃ n : Word, n.toNat = s.pq.length ∧ exec .pqSize s = .next { s with res0 := n }

/-- Items inserted into an empty queue come out of it sorted by weight, items of equal weight in the order of their insertion
(41_priority_queue.md R72). -/
def Obligations.QueueOrderLaw : Prop :=
  ∀ (s : State) (its : List Item), s.pq = [] → its.length ≤ 256 →
    ∃ t q, insertRun its s = .next t ∧ popRun its.length t = q.map (fun it => (it.weight, it.tag.setWidth 32)) ∧
      SortedQueue q ∧ q.Perm its ∧
      ∀ w, q.filter (fun x => decide (x.weight = w)) = its.filter fun x => decide (x.weight = w)

/-! ### Errors of the stages -/

/-- A stage command whose validity flag is missing raises SequenceError with its operation code; nothing precedes it
(60_exceptions.md R129). -/
def Obligations.SequenceErrors : Prop :=
  ∀ s : State,
    (s.freqValid = false →
      exec .wrhdr s = .next { s with fault := true, err := 9, errInfo := 0x30 } ∧
      exec .build s = .next { s with fault := true, err := 9, errInfo := 0x21 }) ∧
    (s.treeDone = false → exec .gencode s = .next { s with fault := true, err := 9, errInfo := 0x22 }) ∧
    (s.freqValid = false ∨ s.codeValid = false →
      exec .encode s = .next { s with fault := true, err := 9, errInfo := 0x23 }) ∧
    (s.freqValid = false ∨ s.treeDone = false →
      exec .decode s = .next { s with fault := true, err := 9, errInfo := 0x24 })

/-- A source port that fails any SrcRewind or SrcRead of any command raises SourceIOError with the port's code, streams as the last
successful action left them (60_exceptions.md R126, R135, 20_memory.md R38). The action is found by two probing runs, which a hardware
reset cuts off before it and right behind it: between them nothing was notified or written, so it is a source request. For COUNT's
rewind and its read number k it is also said what the tables hold: the counts of the bytes read. -/
def Obligations.SourceFailure : Prop :=
  (∀ (i : Instr) (s a u : State) (as rest : List Answer) (e : Word), s.answers = as ++ .failed e :: rest →
    exec i (s.probe (as ++ .reset :: rest)) = .next a → a.answers = rest →
    exec i (s.probe (as ++ .served :: .reset :: rest)) = .next u → u.obs = a.obs → u.snk = a.snk →
    ∃ t, exec i s = .next t ∧ t.fault = true ∧ t.err = 5 ∧ t.errInfo = e ∧ t.src = a.src ∧ t.snk = a.snk ∧ t.answers = rest) ∧
  ∀ (s : State) (n : Answer) (e : Word) (rest : List Answer), n ≠ .reset →
    (s.answers = n :: .failed e :: rest →
      ∃ t, exec .count s = .next t ∧ t.fault = true ∧ t.err = 5 ∧ t.errInfo = e ∧ t.src = s.src ∧ t.total = 0 ∧
        t.freqValid = false ∧ t.snk = s.snk ∧ t.obs = s.notified [1] ∧ t.answers = rest) ∧
    ∀ k, k ≤ s.src.data.length → k ≤ 4294967295 →
      s.answers = n :: .served :: (List.replicate k .served ++ .failed e :: rest) →
      ∃ t, exec .count s = .next t ∧ t.fault = true ∧ t.err = 5 ∧ t.errInfo = e ∧ t.src = ⟨s.src.data, k⟩ ∧
        t.total.toNat = k ∧ (∀ b, (t.freqAt b).toNat = (s.src.data.take k).count b) ∧ t.freqValid = false ∧ t.snk = s.snk ∧
        t.obs = s.notified [1] ∧ t.answers = rest

/-- A sink port that fails any SnkWrite of any command raises SinkIOError with the port's code, streams as the last successful action left
them (60_exceptions.md R126, R135, 20_memory.md R38). The action is found by two probing runs, which a hardware reset cuts off before it
and right behind it: a byte was written between them. For WRHDR's write number k it is also said that nothing else changes. -/
def Obligations.SinkFailure : Prop :=
  (∀ (i : Instr) (s a u : State) (as rest : List Answer) (e : Word), s.answers = as ++ .failed e :: rest →
    exec i (s.probe (as ++ .reset :: rest)) = .next a → a.answers = rest →
    exec i (s.probe (as ++ .served :: .reset :: rest)) = .next u → u.snk ≠ a.snk →
    ∃ t, exec i s = .next t ∧ t.fault = true ∧ t.err = 6 ∧ t.errInfo = e ∧ t.src = a.src ∧ t.snk = a.snk ∧ t.answers = rest) ∧
  ∀ (s : State) (n : Answer) (k : Nat) (e : Word) (rest : List Answer),
    s.freqValid = true → n ≠ .reset → k < 1032 → s.answers = n :: (List.replicate k .served ++ .failed e :: rest) →
    exec .wrhdr s = .next { s with
      fault := true
      err := 6
      errInfo := e
      snk := s.snk ++ (headerBytes s).take k
      obs := s.notified [3]
      answers := rest }

/-! ### COUNT -/

/-- COUNT on a source it accepts, the environment serving every request: TOTAL is the length, FREQ[b] the number of positions that hold b,
their sum TOTAL; everything else as ClearEngine and the command leave it (40_frequency_counter.md R66, R64, 10_state.md R28). -/
def Obligations.CountResult : Prop :=
  ∀ s : State, Quiet s → s.src.data.length ≤ 4294967295 →
    ∃ t, exec .count s = .next t ∧
      t.total.toNat = s.src.data.length ∧ (∀ b, (t.freqAt b).toNat = s.src.data.count b) ∧ t.freqSum = t.total.toNat ∧
      t = { s with
        freq := t.freq, total := t.total, freqValid := true, treeDone := false, codeValid := false
        ndist := 0, nnodes := 0, rootValid := false, rootIdx := 0, emitted := 0, pq := []
        node := Vector.replicate 511 (.leaf 0 0), code := Vector.replicate 256 []
        src := ⟨s.src.data, s.src.data.length⟩, obs := s.notified [1] }

/-- A source of more than 2^32 - 1 bytes: LengthOverflowError, with the state at the fault that 60_exceptions.md R127 gives. -/
def Obligations.CountOverflow : Prop :=
  ∀ s : State, Quiet s → 4294967295 < s.src.data.length →
    ∃ t, exec .count s = .next t ∧
      (∀ b, (t.freqAt b).toNat = (s.src.data.take 4294967295).count b) ∧
      t = { s with
        fault := true, err := 7, errInfo := 0
        freq := t.freq, total := 0xFFFFFFFF, freqValid := false, treeDone := false, codeValid := false
        ndist := 0, nnodes := 0, rootValid := false, rootIdx := 0, emitted := 0, pq := []
        node := Vector.replicate 511 (.leaf 0 0), code := Vector.replicate 256 []
        src := ⟨s.src.data, 4294967296⟩, obs := s.notified [1] }

/-! ### BUILD and GENCODE -/

/-- BUILD on a complete table: the tree of the table with its bounds (42_tree_builder.md R78), the leaves at indices 0 to NDIST - 1 in
ascending order of byte value, no entry allocated from NNODES on (R79, 10_state.md R22), and its frame (R76). -/
def Obligations.BuildResult : Prop :=
  ∀ s : State, Quiet s → s.freqValid = true → s.freqSum ≤ 4294967295 →
    ∃ t, exec .build s = .next t ∧ TreeOfTable t ∧
      (∀ j b, s.present[j]? = some b → t.nodeAt (BitVec.ofNat 9 j) = .leaf b (s.freqAt b)) ∧
      (∀ i : NodeIdx, t.nnodes.toNat ≤ i.toNat → t.nodeAt i = .leaf 0 0) ∧
      t = { s with
        node := t.node, nnodes := t.nnodes, ndist := t.ndist, rootValid := t.rootValid, rootIdx := t.rootIdx
        code := Vector.replicate 256 [], pq := [], treeDone := true, codeValid := false
        obs := s.notified [2] }

/-- The tree BUILD leaves in NODE and ROOT is the one the document describes on trees as values: leaves inserted in ascending byte order,
then the two lightest merged, the first taken becoming the right child (42_tree_builder.md R76, 41_priority_queue.md R67). -/
def Obligations.BuildMakesTheDescribedTree : Prop :=
  ∀ s : State, Quiet s → s.freqValid = true → s.freqSum ≤ 4294967295 →
    ∃ t, exec .build s = .next t ∧ t.tree = s.tableTree

/-- BUILD is a function of FREQ alone: equal tables give the same NODE, NNODES, NDIST and ROOT, so the same tree and the same codes,
whatever else the two states hold
(42_tree_builder.md R80). -/
def Obligations.BuildDeterministic : Prop :=
  ∀ s s' : State, Quiet s → Quiet s' → s.freqValid = true → s'.freqValid = true → s.freq = s'.freq →
    s.freqSum ≤ 4294967295 →
    ∃ t t', exec .build s = .next t ∧ exec .build s' = .next t' ∧ t.node = t'.node ∧ t.nnodes = t'.nnodes ∧
      t.ndist = t'.ndist ∧ t.rootValid = t'.rootValid ∧ t.rootIdx = t'.rootIdx ∧ t.tree = t'.tree ∧
      ∀ b, t.treeCode b = t'.treeCode b

/-- GENCODE on the tree of a table: every symbol gets the digits of the path to its leaf, or [0] in a single leaf, and has a code exactly when
it is present (43_code_table.md R84, R85, 10_state.md R24); nothing else changes. -/
def Obligations.GencodeResult : Prop :=
  ∀ s : State, Quiet s → s.treeDone = true → TreeOfTable s →
    ∃ t, exec .gencode s = .next t ∧ (∀ b, t.codeAt b = s.treeCode b) ∧
      (∀ b, t.codeAt b ≠ [] ↔ 0 < (s.freqAt b).toNat) ∧
      t = { s with code := t.code, codeValid := true, obs := s.notified [5] }

/-- In a built code table no code is a prefix of the code of another symbol; a table of one entry is {s -> [0]}, and one with no entry
is empty (43_code_table.md R86). -/
def Obligations.CodesArePrefixFree : Prop :=
  ∀ s : State, Inv s → s.codeValid = true →
    (∀ b c, b ≠ c → s.codeAt b ≠ [] → s.codeAt c ≠ [] → ¬ s.codeAt b <+: s.codeAt c) ∧
    (∀ b, s.present = [b] → s.codeAt b = [false]) ∧
    (s.present = [] → ∀ b, s.codeAt b = [])

/-- The code of a symbol present has at least 1 digit and at most 255, and with NDIST symbols at most NDIST - 1 where there are two or
more (43_code_table.md R87). -/
def Obligations.CodeLengths : Prop :=
  ∀ s : State, Inv s → s.codeValid = true → ∀ b, 0 < (s.freqAt b).toNat →
    1 ≤ (s.codeAt b).length ∧ (s.codeAt b).length ≤ 255 ∧ (s.codeAt b).length ≤ max 1 (s.ndist.toNat - 1)

/-! ### ENCODE -/

/-- ENCODE on the source that was counted appends the payload of its bytes and changes nothing else but SRC.pos and OBS
(44_encoder.md R89, 30_encoding.md R52). -/
def Obligations.EncodeResult : Prop :=
  ∀ s : State, Quiet s → s.freqValid = true → s.codeValid = true → s.src.data.length = s.total.toNat →
    (∀ b ∈ s.src.data, s.codeAt b ≠ []) →
    exec .encode s = .next { s with
      snk := s.snk ++ payload (s.codesOf s.src.data)
      src := ⟨s.src.data, s.src.data.length⟩
      obs := s.notified [4] }

/-- A byte without a code stops ENCODE with NoCodeError and the byte (60_exceptions.md R131): the whole bytes of the codes before it are in
the sink, the position is behind it. -/
def Obligations.EncodeNoCode : Prop :=
  ∀ (s : State) (xs ys : List Byte) (b : Byte), Quiet s → s.freqValid = true → s.codeValid = true →
    s.src.data = xs ++ b :: ys → (∀ c ∈ xs, s.codeAt c ≠ []) → s.codeAt b = [] → xs.length < s.total.toNat →
    exec .encode s = .next { s with
      fault := true
      err := 11
      errInfo := b.setWidth 32
      snk := s.snk ++ (payload (s.codesOf xs)).take ((s.codesOf xs).length / 8)
      src := ⟨s.src.data, xs.length + 1⟩
      obs := s.notified [4] }

/-- A source with more than TOTAL bytes, or with fewer, stops ENCODE with SourceChangedError and the number of bytes accepted
(60_exceptions.md R132). -/
def Obligations.EncodeSourceChanged : Prop :=
  ∀ (s : State) (xs ys : List Byte), Quiet s → s.freqValid = true → s.codeValid = true →
    s.src.data = xs ++ ys → (∀ c ∈ xs, s.codeAt c ≠ []) →
    (xs.length = s.total.toNat → ys ≠ [] →
      exec .encode s = .next { s with
        fault := true
        err := 12
        errInfo := s.total
        snk := s.snk ++ (payload (s.codesOf xs)).take ((s.codesOf xs).length / 8)
        src := ⟨s.src.data, xs.length + 1⟩
        obs := s.notified [4] }) ∧
    (xs.length < s.total.toNat → ys = [] →
      exec .encode s = .next { s with
        fault := true
        err := 12
        errInfo := BitVec.ofNat 32 xs.length
        snk := s.snk ++ (payload (s.codesOf xs)).take ((s.codesOf xs).length / 8)
        src := ⟨s.src.data, xs.length⟩
        obs := s.notified [4] })

/-! ### DECODE -/

/-- DECODE on bytes that hold the codes of TOTAL symbols writes the symbols and counts them, for every value of the bits behind the last
code, and reads no byte behind them (45_decoder.md R95, R97, R99). -/
def Obligations.DecodeResult : Prop :=
  ∀ (s : State) (xs pl tail : List Byte) (junk : List Digit), Quiet s → s.freqValid = true → s.treeDone = true →
    TreeOfTable s → (∀ b ∈ xs, 0 < (s.freqAt b).toNat) → xs.length = s.total.toNat →
    pl.flatMap bitsMsb = xs.flatMap s.treeCode ++ junk → junk.length < 8 → s.rest = pl ++ tail →
    exec .decode s = .next { s with
      snk := s.snk ++ xs
      emitted := s.total
      src := ⟨s.src.data, s.src.pos + pl.length⟩
      obs := s.notified [7] }

/-- A source that ends inside the payload: MalformedContainerError(4) at the end of the source. The bytes decoded so far, written and
counted, are those whose codes lie whole in the bytes the source still had: the code of the next byte does not fit
(45_decoder.md R95, 60_exceptions.md R125). -/
def Obligations.DecodeTruncated : Prop :=
  ∀ (s : State) (xs more : List Byte), Quiet s → s.freqValid = true → s.treeDone = true → TreeOfTable s →
    (∀ b ∈ xs, 0 < (s.freqAt b).toNat) → xs.length = s.total.toNat →
    payload (xs.flatMap s.treeCode) = s.rest ++ more → more ≠ [] →
    ∃ as b bs, xs = as ++ b :: bs ∧ (as.flatMap s.treeCode).length ≤ 8 * s.rest.length ∧
      8 * s.rest.length < ((as ++ [b]).flatMap s.treeCode).length ∧
      exec .decode s = .next { s with
        fault := true
        err := 4
        errInfo := 4
        snk := s.snk ++ as
        emitted := BitVec.ofNat 32 as.length
        src := ⟨s.src.data, s.src.pos + s.rest.length⟩
        obs := s.notified [7] }

/-- In a single-leaf tree a 1 bit, the first after 8 m + k bits 0, raises TreeShapeError: one byte has been written for each 0 bit, and
the position is behind the byte that holds the 1 (45_decoder.md R96, 60_exceptions.md R124). -/
def Obligations.DecodeSingleLeafOneBit : Prop :=
  ∀ (s : State) (sym b : Byte) (w : Word) (m k : Nat) (tail : List Byte), Quiet s → s.freqValid = true → s.treeDone = true →
    s.nodeAt s.rootIdx = .leaf sym w → s.rest = List.replicate m 0 ++ b :: tail → k < 8 →
    (∀ j, j < k → b.getLsbD (7 - j) = false) → b.getLsbD (7 - k) = true → 8 * m + k < s.total.toNat →
    exec .decode s = .next { s with
      fault := true
      err := 3
      errInfo := 0
      snk := s.snk ++ List.replicate (8 * m + k) sym
      emitted := BitVec.ofNat 32 (8 * m + k)
      src := ⟨s.src.data, s.src.pos + m + 1⟩
      obs := s.notified [7] }

/-! ### WRHDR and RDHDR -/

/-- WRHDR appends the 1032 header bytes and changes no state of the block (46_container.md R102; HeaderLayout says what the bytes are). -/
def Obligations.WrhdrResult : Prop :=
  ∀ s : State, Quiet s → s.freqValid = true →
    (headerBytes s).length = 1032 ∧
    exec .wrhdr s = .next { s with snk := s.snk ++ headerBytes s, obs := s.notified [3] }

/-- RDHDR on a header, at any position, whose counts add up to its length reads the table back and stands at the first payload byte
(46_container.md R103). The header is given as that of the table of a state `h`. -/
def Obligations.RdhdrResult : Prop :=
  ∀ (s h : State) (tail : List Byte), Quiet s → s.rest = headerBytes h ++ tail → h.freqSum = h.total.toNat →
    exec .rdhdr s = .next { s with
      freq := h.freq, total := h.total, freqValid := true, treeDone := false, codeValid := false
      ndist := 0, nnodes := 0, rootValid := false, rootIdx := 0, emitted := 0, pq := []
      node := Vector.replicate 511 (.leaf 0 0), code := Vector.replicate 256 []
      src := ⟨s.src.data, s.src.pos + 1032⟩, obs := s.notified [6] }

/-- Counts that do not add up, as natural numbers, to the length: MalformedContainerError(3) after the last count
(46_container.md R103, R104). -/
def Obligations.RdhdrSumMismatch : Prop :=
  ∀ (s h : State) (tail : List Byte), Quiet s → s.rest = headerBytes h ++ tail → h.freqSum ≠ h.total.toNat →
    exec .rdhdr s = .next { s with
      fault := true, err := 4, errInfo := 3
      freq := h.freq, total := h.total, freqValid := false, treeDone := false, codeValid := false
      ndist := 0, nnodes := 0, rootValid := false, rootIdx := 0, emitted := 0, pq := []
      node := Vector.replicate 511 (.leaf 0 0), code := Vector.replicate 256 []
      src := ⟨s.src.data, s.src.pos + 1032⟩, obs := s.notified [6] }

/-- Four bytes that are not the magic: MalformedContainerError(1) after the fourth, whatever follows (46_container.md R103, R105). -/
def Obligations.RdhdrBadMagic : Prop :=
  ∀ s : State, Quiet s → 4 ≤ s.rest.length → s.rest.take 4 ≠ [0x48, 0x55, 0x46, 0x46] →
    exec .rdhdr s = .next { s with
      fault := true, err := 4, errInfo := 1
      freq := Vector.replicate 256 0, total := 0, freqValid := false, treeDone := false, codeValid := false
      ndist := 0, nnodes := 0, rootValid := false, rootIdx := 0, emitted := 0, pq := []
      node := Vector.replicate 511 (.leaf 0 0), code := Vector.replicate 256 []
      src := ⟨s.src.data, s.src.pos + 4⟩, obs := s.notified [6] }

/-- A source that ends inside the header, its first four bytes the magic if there are four: MalformedContainerError(2), the source at
its end, even where fewer than four wrong bytes are present (46_container.md R103, 60_exceptions.md R134). -/
def Obligations.RdhdrTruncated : Prop :=
  ∀ s : State, Quiet s → s.src.pos ≤ s.src.data.length → s.rest.length < 1032 →
    (4 ≤ s.rest.length → s.rest.take 4 = [0x48, 0x55, 0x46, 0x46]) →
    ∃ t, exec .rdhdr s = .next t ∧
      t = { s with
        fault := true, err := 4, errInfo := 2
        freq := t.freq, total := t.total, freqValid := false, treeDone := false, codeValid := false
        ndist := 0, nnodes := 0, rootValid := false, rootIdx := 0, emitted := 0, pq := []
        node := Vector.replicate 511 (.leaf 0 0), code := Vector.replicate 256 []
        src := ⟨s.src.data, s.src.data.length⟩, obs := s.notified [6] }

/-! ### COMPRESS and DECOMPRESS -/

/-- COMPRESS on a source that is not empty appends the header and the payload of the table's codes, with all flags set and the queue
empty; the registers the host owns and the error registers stay (47_codec.md R110). -/
def Obligations.CompressResult : Prop :=
  ∀ s : State, Quiet s → s.src.data ≠ [] → s.src.data.length ≤ 4294967295 →
    ∃ t, exec .compress s = .next t ∧
      t.total.toNat = s.src.data.length ∧ (∀ b, (t.freqAt b).toNat = s.src.data.count b) ∧ TreeOfTable t ∧
      t.tree = t.tableTree ∧ (∀ b, t.codeAt b = t.tableCode b) ∧
      t = { s with
        freq := t.freq, total := t.total, freqValid := true, treeDone := true, codeValid := true
        ndist := t.ndist, nnodes := t.nnodes, rootValid := true, rootIdx := t.rootIdx, emitted := 0, pq := []
        node := t.node, code := t.code
        snk := s.snk ++ headerBytes t ++ payload (s.src.data.flatMap t.tableCode)
        src := ⟨s.src.data, s.src.data.length⟩
        obs := s.notified [1, 3, 2, 5, 4] }

/-- COMPRESS on the empty source appends exactly the magic, a zero length and 256 zero counts, and builds no tree (47_codec.md R110). -/
def Obligations.CompressEmpty : Prop :=
  ∀ s : State, Quiet s → s.src.data = [] →
    exec .compress s = .next { s with
      freq := Vector.replicate 256 0, total := 0, freqValid := true, treeDone := false, codeValid := false
      ndist := 0, nnodes := 0, rootValid := false, rootIdx := 0, emitted := 0, pq := []
      node := Vector.replicate 511 (.leaf 0 0), code := Vector.replicate 256 []
      snk := s.snk ++ [0x48, 0x55, 0x46, 0x46] ++ List.replicate 1028 0
      src := ⟨[], 0⟩, obs := s.notified [1, 3] }

/-- DECOMPRESS on a container, a header whose counts add up and bytes that hold the codes of TOTAL symbols, writes the symbols, whatever the
padding bits and whatever follows (47_codec.md R111, 45_decoder.md R97). -/
def Obligations.DecompressResult : Prop :=
  ∀ (s h : State) (xs pl tail : List Byte) (junk : List Digit), Quiet s → h.freqSum = h.total.toNat →
    (∀ b ∈ xs, 0 < (h.freqAt b).toNat) → xs.length = h.total.toNat →
    pl.flatMap bitsMsb = xs.flatMap h.tableCode ++ junk → junk.length < 8 → s.rest = headerBytes h ++ pl ++ tail →
    ∃ t, exec .decompress s = .next t ∧ TreeOfTable t ∧ t.tree = h.tableTree ∧
      t = { s with
        freq := h.freq, total := h.total, freqValid := true, treeDone := true, codeValid := false
        ndist := t.ndist, nnodes := t.nnodes, rootValid := t.rootValid, rootIdx := t.rootIdx, emitted := h.total, pq := []
        node := t.node, code := Vector.replicate 256 []
        snk := s.snk ++ xs
        src := ⟨s.src.data, s.src.pos + 1032 + pl.length⟩
        obs := s.notified [6, 2, 7] }

/-- Round trip: what COMPRESS appends for a source, followed by anything, decompresses to exactly that source, for every source of at most
2^32 - 1 bytes, the empty one included (47_codec.md R114, 45_decoder.md R99). -/
def Obligations.RoundTrip : Prop :=
  ∀ s u : State, Quiet s → Quiet u → s.src.data.length ≤ 4294967295 →
    ∃ t c, exec .compress s = .next t ∧ t.snk = s.snk ++ c ∧
      ∀ tail, u.rest = c ++ tail →
        ∃ v, exec .decompress u = .next v ∧ v.snk = u.snk ++ s.src.data ∧ v.fault = u.fault ∧
          v.src.pos = u.src.pos + c.length

/-- The bytes COMPRESS appends are a function of SRC.data alone (47_codec.md R114). -/
def Obligations.CompressDeterministic : Prop :=
  ∀ s s' : State, Quiet s → Quiet s' → s.src.data = s'.src.data → s.src.data.length ≤ 4294967295 →
    ∃ t t' c, exec .compress s = .next t ∧ exec .compress s' = .next t' ∧ t.snk = s.snk ++ c ∧ t'.snk = s'.snk ++ c

/-! ### The whole machine -/

/-- The invariant holds right after reset. -/
def Obligations.InvAtReset : Prop := Inv State.reset

/-- Every step keeps the invariant: the order and the bound of the queue (10_state.md R21), the sum of the counts (R20), the tree of the
table (R23), codes exactly for the symbols present and derived from the tree (R24), the order of the flags (R25), the source position
(R26), the error registers clear outside the fault state (R15, R16). -/
def Obligations.StepKeepsInv : Prop := ∀ s t : State, Inv s → step s = .next t → Inv t

/-- Every command terminates, and with it every step: in a state with the invariant, whatever the environment answers, there is a next state
(47_codec.md R107). -/
def Obligations.EveryStepCompletes : Prop :=
  ∀ s : State, Inv s → (∃ t, step s = .next t) ∧ ∀ i, ∃ t, exec i s = .next t

/-- The observer changes nothing else: without it every command has the same outcome and every other part of the state is the same. And
Notify cannot fail: where the action of any command that two probing runs find between them is a notification, an environment that
would fail it gives the outcome of one that serves it (60_exceptions.md R140, 20_memory.md R38). -/
def Obligations.ObserverChangesNothingElse : Prop :=
  (∀ (i : Instr) (s : State),
    (∀ t, exec i s = .next t → exec i s.unobserved = .next t.unobserved) ∧
    ∀ f, exec i s = .fault f → exec i s.unobserved = .fault f) ∧
  ∀ (i : Instr) (s a u : State) (as rest : List Answer) (e : Word), s.answers = as ++ .failed e :: rest →
    exec i (s.probe (as ++ .reset :: rest)) = .next a → a.answers = rest →
    exec i (s.probe (as ++ .served :: .reset :: rest)) = .next u → u.obs ≠ a.obs →
    exec i s = exec i { s with answers := as ++ .served :: rest }

/-- No command but RESET writes ARG0, ARG1 or SEL, and only PQ_POPMIN, PQ_PEEKMIN, PQ_SIZE and RESET write RES0 or RES1 (10_state.md R18), where
no hardware reset cuts the command off. -/
def Obligations.HostRegisterFrame : Prop :=
  ∀ (i : Instr) (s t : State), NoCut s → i ≠ .reset → exec i s = .next t →
    t.arg0 = s.arg0 ∧ t.arg1 = s.arg1 ∧ t.sel = s.sel ∧
    (i ∉ [Instr.pqPopmin, .pqPeekmin, .pqSize] → t.res0 = s.res0 ∧ t.res1 = s.res1)

/-- In every environment: no command changes SRC.data, SRC.pos stays within it, SNK and OBS only grow, OBS only if an observer is attached
(10_state.md R26); a command that writes no sink byte leaves the sink, and RESET leaves all three. -/
def Obligations.StreamFrame : Prop :=
  ∀ (i : Instr) (s t : State), exec i s = .next t →
    t.src.data = s.src.data ∧ (s.src.pos ≤ s.src.data.length → t.src.pos ≤ t.src.data.length) ∧ s.snk <+: t.snk ∧
    s.obs <+: t.obs ∧ (s.observerAttached = false → t.obs = s.obs) ∧ t.observerAttached = s.observerAttached ∧
    t.inputs = s.inputs ∧ t.seen = s.seen ∧
    (i ∉ [Instr.wrhdr, .encode, .decode, .compress, .decompress] → t.snk = s.snk) ∧
    (i = .reset → t.src = s.src ∧ t.snk = s.snk ∧ t.obs = s.obs)

/-- Where WRHDR, ENCODE and DECODE store, in every environment: behind the sink's old end, WRHDR the header's bytes and ENCODE the payload's
bytes from the first on, as many as were written, DECODE at most TOTAL bytes; every byte before them stays (46_container.md R102,
44_encoder.md R89, 45_decoder.md R95, 60_exceptions.md R135). -/
def Obligations.SinkStores : Prop :=
  ∀ s t : State,
    (exec .wrhdr s = .next t → ∃ k, t.snk = s.snk ++ (headerBytes s).take k) ∧
    (exec .encode s = .next t → ∃ k, t.snk = s.snk ++ (payload (s.codesOf s.src.data)).take k) ∧
    (exec .decode s = .next t → ∃ p : List Byte, t.snk = s.snk ++ p ∧ p.length ≤ s.total.toNat)

/-- What each command leaves of the tables, the flags and the position, where no hardware reset cuts it off, whether it succeeds or raises
(10_state.md R17, R20 to R25, 20_memory.md R31): FREQ and TOTAL are written by COUNT, RDHDR and the two composite commands only, NODE and
ROOT besides by BUILD, CODE besides by GENCODE, PQ besides by the queue commands, EMITTED besides by DECODE. -/
def Obligations.TableFrame : Prop :=
  ∀ (i : Instr) (s t : State), NoCut s → exec i s = .next t →
    (i ∉ [Instr.reset, .count, .rdhdr, .compress, .decompress] →
      t.freq = s.freq ∧ t.total = s.total ∧ t.freqValid = s.freqValid) ∧
    (i ∉ [Instr.reset, .count, .rdhdr, .compress, .decompress, .build] →
      t.node = s.node ∧ t.nnodes = s.nnodes ∧ t.ndist = s.ndist ∧ t.rootValid = s.rootValid ∧ t.rootIdx = s.rootIdx ∧
      t.treeDone = s.treeDone) ∧
    (i ∉ [Instr.reset, .count, .rdhdr, .compress, .decompress, .build, .gencode] →
      t.code = s.code ∧ t.codeValid = s.codeValid) ∧
    (i ∉ [Instr.reset, .count, .rdhdr, .compress, .decompress, .build, .pqInsert, .pqPopmin] → t.pq = s.pq) ∧
    (i ∉ [Instr.reset, .count, .rdhdr, .compress, .decompress, .decode] → t.emitted = s.emitted) ∧
    (i ∉ [Instr.count, .encode, .decode, .rdhdr, .compress, .decompress] → t.src = s.src)

/-- What fault entry writes. Where no hardware reset cuts the command off, a command other than RESET leaves FAULT, ERR and ERRINFO, or it
has raised an error: FAULT is 1 and ERR is the code of an error other than NotComparableError, which nothing raises
(60_exceptions.md R121, R123, R133). In every environment, a command that raises SourceIOError or SinkIOError was failed by a port, and
ERRINFO is that port's code (R126). -/
def Obligations.ErrorRegisterFrame : Prop :=
  (∀ (i : Instr) (s t : State), NoCut s → i ≠ .reset → exec i s = .next t →
    (t.fault = s.fault ∧ t.err = s.err ∧ t.errInfo = s.errInfo) ∨
    (t.fault = true ∧ t.err.toNat ∈ [1, 3, 4, 5, 6, 7, 8, 9, 11, 12])) ∧
  ∀ (i : Instr) (s t : State), s.fault = false → exec i s = .next t → t.fault = true → t.err = 5 ∨ t.err = 6 →
    Answer.failed t.errInfo ∈ s.answers
end

