-- ==== Sys2Proof/Laws/State.lean ====
section
/-! SUPPORT. What each update does to each field of the state: one lemma per field per update, true by unfolding. -/

namespace Sys2Proof.Machine

open Sys2Proof

/-! `enterFault` -/

@[simp] theorem State.enterFault_fault (e : Error) (i : Word) (s : State) : (s.enterFault e i).fault = true := rfl
@[simp] theorem State.enterFault_freqValid (e : Error) (i : Word) (s : State) : (s.enterFault e i).freqValid = s.freqValid := rfl
@[simp] theorem State.enterFault_treeDone (e : Error) (i : Word) (s : State) : (s.enterFault e i).treeDone = s.treeDone := rfl
@[simp] theorem State.enterFault_codeValid (e : Error) (i : Word) (s : State) : (s.enterFault e i).codeValid = s.codeValid := rfl
@[simp] theorem State.enterFault_err (e : Error) (i : Word) (s : State) : (s.enterFault e i).err = e.code := rfl
@[simp] theorem State.enterFault_errInfo (e : Error) (i : Word) (s : State) : (s.enterFault e i).errInfo = i := rfl
@[simp] theorem State.enterFault_total (e : Error) (i : Word) (s : State) : (s.enterFault e i).total = s.total := rfl
@[simp] theorem State.enterFault_ndist (e : Error) (i : Word) (s : State) : (s.enterFault e i).ndist = s.ndist := rfl
@[simp] theorem State.enterFault_nnodes (e : Error) (i : Word) (s : State) : (s.enterFault e i).nnodes = s.nnodes := rfl
@[simp] theorem State.enterFault_rootValid (e : Error) (i : Word) (s : State) : (s.enterFault e i).rootValid = s.rootValid := rfl
@[simp] theorem State.enterFault_rootIdx (e : Error) (i : Word) (s : State) : (s.enterFault e i).rootIdx = s.rootIdx := rfl
@[simp] theorem State.enterFault_emitted (e : Error) (i : Word) (s : State) : (s.enterFault e i).emitted = s.emitted := rfl
@[simp] theorem State.enterFault_arg0 (e : Error) (i : Word) (s : State) : (s.enterFault e i).arg0 = s.arg0 := rfl
@[simp] theorem State.enterFault_arg1 (e : Error) (i : Word) (s : State) : (s.enterFault e i).arg1 = s.arg1 := rfl
@[simp] theorem State.enterFault_res0 (e : Error) (i : Word) (s : State) : (s.enterFault e i).res0 = s.res0 := rfl
@[simp] theorem State.enterFault_res1 (e : Error) (i : Word) (s : State) : (s.enterFault e i).res1 = s.res1 := rfl
@[simp] theorem State.enterFault_sel (e : Error) (i : Word) (s : State) : (s.enterFault e i).sel = s.sel := rfl
@[simp] theorem State.enterFault_freq (e : Error) (i : Word) (s : State) : (s.enterFault e i).freq = s.freq := rfl
@[simp] theorem State.enterFault_pq (e : Error) (i : Word) (s : State) : (s.enterFault e i).pq = s.pq := rfl
@[simp] theorem State.enterFault_node (e : Error) (i : Word) (s : State) : (s.enterFault e i).node = s.node := rfl
@[simp] theorem State.enterFault_code (e : Error) (i : Word) (s : State) : (s.enterFault e i).code = s.code := rfl
@[simp] theorem State.enterFault_src (e : Error) (i : Word) (s : State) : (s.enterFault e i).src = s.src := rfl
@[simp] theorem State.enterFault_snk (e : Error) (i : Word) (s : State) : (s.enterFault e i).snk = s.snk := rfl
@[simp] theorem State.enterFault_obs (e : Error) (i : Word) (s : State) : (s.enterFault e i).obs = s.obs := rfl
@[simp] theorem State.enterFault_observerAttached (e : Error) (i : Word) (s : State) : (s.enterFault e i).observerAttached = s.observerAttached := rfl
@[simp] theorem State.enterFault_answers (e : Error) (i : Word) (s : State) : (s.enterFault e i).answers = s.answers := rfl
@[simp] theorem State.enterFault_inputs (e : Error) (i : Word) (s : State) : (s.enterFault e i).inputs = s.inputs := rfl
@[simp] theorem State.enterFault_seen (e : Error) (i : Word) (s : State) : (s.enterFault e i).seen = s.seen := rfl

/-! `clearEngine` -/

@[simp] theorem State.clearEngine_fault (s : State) : s.clearEngine.fault = s.fault := rfl
@[simp] theorem State.clearEngine_freqValid (s : State) : s.clearEngine.freqValid = false := rfl
@[simp] theorem State.clearEngine_treeDone (s : State) : s.clearEngine.treeDone = false := rfl
@[simp] theorem State.clearEngine_codeValid (s : State) : s.clearEngine.codeValid = false := rfl
@[simp] theorem State.clearEngine_err (s : State) : s.clearEngine.err = s.err := rfl
@[simp] theorem State.clearEngine_errInfo (s : State) : s.clearEngine.errInfo = s.errInfo := rfl
@[simp] theorem State.clearEngine_total (s : State) : s.clearEngine.total = 0 := rfl
@[simp] theorem State.clearEngine_ndist (s : State) : s.clearEngine.ndist = 0 := rfl
@[simp] theorem State.clearEngine_nnodes (s : State) : s.clearEngine.nnodes = 0 := rfl
@[simp] theorem State.clearEngine_rootValid (s : State) : s.clearEngine.rootValid = false := rfl
@[simp] theorem State.clearEngine_rootIdx (s : State) : s.clearEngine.rootIdx = 0 := rfl
@[simp] theorem State.clearEngine_emitted (s : State) : s.clearEngine.emitted = 0 := rfl
@[simp] theorem State.clearEngine_arg0 (s : State) : s.clearEngine.arg0 = s.arg0 := rfl
@[simp] theorem State.clearEngine_arg1 (s : State) : s.clearEngine.arg1 = s.arg1 := rfl
@[simp] theorem State.clearEngine_res0 (s : State) : s.clearEngine.res0 = s.res0 := rfl
@[simp] theorem State.clearEngine_res1 (s : State) : s.clearEngine.res1 = s.res1 := rfl
@[simp] theorem State.clearEngine_sel (s : State) : s.clearEngine.sel = s.sel := rfl
@[simp] theorem State.clearEngine_freq (s : State) : s.clearEngine.freq = Vector.replicate 256 0 := rfl
@[simp] theorem State.clearEngine_pq (s : State) : s.clearEngine.pq = [] := rfl
@[simp] theorem State.clearEngine_node (s : State) : s.clearEngine.node = Vector.replicate 511 Node.zero := rfl
@[simp] theorem State.clearEngine_code (s : State) : s.clearEngine.code = Vector.replicate 256 [] := rfl
@[simp] theorem State.clearEngine_src (s : State) : s.clearEngine.src = s.src := rfl
@[simp] theorem State.clearEngine_snk (s : State) : s.clearEngine.snk = s.snk := rfl
@[simp] theorem State.clearEngine_obs (s : State) : s.clearEngine.obs = s.obs := rfl
@[simp] theorem State.clearEngine_observerAttached (s : State) : s.clearEngine.observerAttached = s.observerAttached := rfl
@[simp] theorem State.clearEngine_answers (s : State) : s.clearEngine.answers = s.answers := rfl
@[simp] theorem State.clearEngine_inputs (s : State) : s.clearEngine.inputs = s.inputs := rfl
@[simp] theorem State.clearEngine_seen (s : State) : s.clearEngine.seen = s.seen := rfl

/-! `resetBlock` -/

@[simp] theorem State.resetBlock_fault (s : State) : s.resetBlock.fault = false := rfl
@[simp] theorem State.resetBlock_freqValid (s : State) : s.resetBlock.freqValid = false := rfl
@[simp] theorem State.resetBlock_treeDone (s : State) : s.resetBlock.treeDone = false := rfl
@[simp] theorem State.resetBlock_codeValid (s : State) : s.resetBlock.codeValid = false := rfl
@[simp] theorem State.resetBlock_err (s : State) : s.resetBlock.err = 0 := rfl
@[simp] theorem State.resetBlock_errInfo (s : State) : s.resetBlock.errInfo = 0 := rfl
@[simp] theorem State.resetBlock_total (s : State) : s.resetBlock.total = 0 := rfl
@[simp] theorem State.resetBlock_ndist (s : State) : s.resetBlock.ndist = 0 := rfl
@[simp] theorem State.resetBlock_nnodes (s : State) : s.resetBlock.nnodes = 0 := rfl
@[simp] theorem State.resetBlock_rootValid (s : State) : s.resetBlock.rootValid = false := rfl
@[simp] theorem State.resetBlock_rootIdx (s : State) : s.resetBlock.rootIdx = 0 := rfl
@[simp] theorem State.resetBlock_emitted (s : State) : s.resetBlock.emitted = 0 := rfl
@[simp] theorem State.resetBlock_arg0 (s : State) : s.resetBlock.arg0 = 0 := rfl
@[simp] theorem State.resetBlock_arg1 (s : State) : s.resetBlock.arg1 = 0 := rfl
@[simp] theorem State.resetBlock_res0 (s : State) : s.resetBlock.res0 = 0 := rfl
@[simp] theorem State.resetBlock_res1 (s : State) : s.resetBlock.res1 = 0 := rfl
@[simp] theorem State.resetBlock_sel (s : State) : s.resetBlock.sel = 0 := rfl
@[simp] theorem State.resetBlock_freq (s : State) : s.resetBlock.freq = Vector.replicate 256 0 := rfl
@[simp] theorem State.resetBlock_pq (s : State) : s.resetBlock.pq = [] := rfl
@[simp] theorem State.resetBlock_node (s : State) : s.resetBlock.node = Vector.replicate 511 Node.zero := rfl
@[simp] theorem State.resetBlock_code (s : State) : s.resetBlock.code = Vector.replicate 256 [] := rfl
@[simp] theorem State.resetBlock_src (s : State) : s.resetBlock.src = s.src := rfl
@[simp] theorem State.resetBlock_snk (s : State) : s.resetBlock.snk = s.snk := rfl
@[simp] theorem State.resetBlock_obs (s : State) : s.resetBlock.obs = s.obs := rfl
@[simp] theorem State.resetBlock_observerAttached (s : State) : s.resetBlock.observerAttached = s.observerAttached := rfl
@[simp] theorem State.resetBlock_answers (s : State) : s.resetBlock.answers = s.answers := rfl
@[simp] theorem State.resetBlock_inputs (s : State) : s.resetBlock.inputs = s.inputs := rfl
@[simp] theorem State.resetBlock_seen (s : State) : s.resetBlock.seen = s.seen := rfl

/-! `dropAnswer` -/

@[simp] theorem State.dropAnswer_fault (s : State) : s.dropAnswer.fault = s.fault := rfl
@[simp] theorem State.dropAnswer_freqValid (s : State) : s.dropAnswer.freqValid = s.freqValid := rfl
@[simp] theorem State.dropAnswer_treeDone (s : State) : s.dropAnswer.treeDone = s.treeDone := rfl
@[simp] theorem State.dropAnswer_codeValid (s : State) : s.dropAnswer.codeValid = s.codeValid := rfl
@[simp] theorem State.dropAnswer_err (s : State) : s.dropAnswer.err = s.err := rfl
@[simp] theorem State.dropAnswer_errInfo (s : State) : s.dropAnswer.errInfo = s.errInfo := rfl
@[simp] theorem State.dropAnswer_total (s : State) : s.dropAnswer.total = s.total := rfl
@[simp] theorem State.dropAnswer_ndist (s : State) : s.dropAnswer.ndist = s.ndist := rfl
@[simp] theorem State.dropAnswer_nnodes (s : State) : s.dropAnswer.nnodes = s.nnodes := rfl
@[simp] theorem State.dropAnswer_rootValid (s : State) : s.dropAnswer.rootValid = s.rootValid := rfl
@[simp] theorem State.dropAnswer_rootIdx (s : State) : s.dropAnswer.rootIdx = s.rootIdx := rfl
@[simp] theorem State.dropAnswer_emitted (s : State) : s.dropAnswer.emitted = s.emitted := rfl
@[simp] theorem State.dropAnswer_arg0 (s : State) : s.dropAnswer.arg0 = s.arg0 := rfl
@[simp] theorem State.dropAnswer_arg1 (s : State) : s.dropAnswer.arg1 = s.arg1 := rfl
@[simp] theorem State.dropAnswer_res0 (s : State) : s.dropAnswer.res0 = s.res0 := rfl
@[simp] theorem State.dropAnswer_res1 (s : State) : s.dropAnswer.res1 = s.res1 := rfl
@[simp] theorem State.dropAnswer_sel (s : State) : s.dropAnswer.sel = s.sel := rfl
@[simp] theorem State.dropAnswer_freq (s : State) : s.dropAnswer.freq = s.freq := rfl
@[simp] theorem State.dropAnswer_pq (s : State) : s.dropAnswer.pq = s.pq := rfl
@[simp] theorem State.dropAnswer_node (s : State) : s.dropAnswer.node = s.node := rfl
@[simp] theorem State.dropAnswer_code (s : State) : s.dropAnswer.code = s.code := rfl
@[simp] theorem State.dropAnswer_src (s : State) : s.dropAnswer.src = s.src := rfl
@[simp] theorem State.dropAnswer_snk (s : State) : s.dropAnswer.snk = s.snk := rfl
@[simp] theorem State.dropAnswer_obs (s : State) : s.dropAnswer.obs = s.obs := rfl
@[simp] theorem State.dropAnswer_observerAttached (s : State) : s.dropAnswer.observerAttached = s.observerAttached := rfl
@[simp] theorem State.dropAnswer_answers (s : State) : s.dropAnswer.answers = s.answers.tail := rfl
@[simp] theorem State.dropAnswer_inputs (s : State) : s.dropAnswer.inputs = s.inputs := rfl
@[simp] theorem State.dropAnswer_seen (s : State) : s.dropAnswer.seen = s.seen := rfl

/-! `appendPhase` -/

@[simp] theorem State.appendPhase_fault (p : Phase) (s : State) : (s.appendPhase p).fault = s.fault := rfl
@[simp] theorem State.appendPhase_freqValid (p : Phase) (s : State) : (s.appendPhase p).freqValid = s.freqValid := rfl
@[simp] theorem State.appendPhase_treeDone (p : Phase) (s : State) : (s.appendPhase p).treeDone = s.treeDone := rfl
@[simp] theorem State.appendPhase_codeValid (p : Phase) (s : State) : (s.appendPhase p).codeValid = s.codeValid := rfl
@[simp] theorem State.appendPhase_err (p : Phase) (s : State) : (s.appendPhase p).err = s.err := rfl
@[simp] theorem State.appendPhase_errInfo (p : Phase) (s : State) : (s.appendPhase p).errInfo = s.errInfo := rfl
@[simp] theorem State.appendPhase_total (p : Phase) (s : State) : (s.appendPhase p).total = s.total := rfl
@[simp] theorem State.appendPhase_ndist (p : Phase) (s : State) : (s.appendPhase p).ndist = s.ndist := rfl
@[simp] theorem State.appendPhase_nnodes (p : Phase) (s : State) : (s.appendPhase p).nnodes = s.nnodes := rfl
@[simp] theorem State.appendPhase_rootValid (p : Phase) (s : State) : (s.appendPhase p).rootValid = s.rootValid := rfl
@[simp] theorem State.appendPhase_rootIdx (p : Phase) (s : State) : (s.appendPhase p).rootIdx = s.rootIdx := rfl
@[simp] theorem State.appendPhase_emitted (p : Phase) (s : State) : (s.appendPhase p).emitted = s.emitted := rfl
@[simp] theorem State.appendPhase_arg0 (p : Phase) (s : State) : (s.appendPhase p).arg0 = s.arg0 := rfl
@[simp] theorem State.appendPhase_arg1 (p : Phase) (s : State) : (s.appendPhase p).arg1 = s.arg1 := rfl
@[simp] theorem State.appendPhase_res0 (p : Phase) (s : State) : (s.appendPhase p).res0 = s.res0 := rfl
@[simp] theorem State.appendPhase_res1 (p : Phase) (s : State) : (s.appendPhase p).res1 = s.res1 := rfl
@[simp] theorem State.appendPhase_sel (p : Phase) (s : State) : (s.appendPhase p).sel = s.sel := rfl
@[simp] theorem State.appendPhase_freq (p : Phase) (s : State) : (s.appendPhase p).freq = s.freq := rfl
@[simp] theorem State.appendPhase_pq (p : Phase) (s : State) : (s.appendPhase p).pq = s.pq := rfl
@[simp] theorem State.appendPhase_node (p : Phase) (s : State) : (s.appendPhase p).node = s.node := rfl
@[simp] theorem State.appendPhase_code (p : Phase) (s : State) : (s.appendPhase p).code = s.code := rfl
@[simp] theorem State.appendPhase_src (p : Phase) (s : State) : (s.appendPhase p).src = s.src := rfl
@[simp] theorem State.appendPhase_snk (p : Phase) (s : State) : (s.appendPhase p).snk = s.snk := rfl
@[simp] theorem State.appendPhase_obs (p : Phase) (s : State) : (s.appendPhase p).obs = if s.observerAttached then s.obs ++ [p.code] else s.obs := rfl
@[simp] theorem State.appendPhase_observerAttached (p : Phase) (s : State) : (s.appendPhase p).observerAttached = s.observerAttached := rfl
@[simp] theorem State.appendPhase_answers (p : Phase) (s : State) : (s.appendPhase p).answers = s.answers := rfl
@[simp] theorem State.appendPhase_inputs (p : Phase) (s : State) : (s.appendPhase p).inputs = s.inputs := rfl
@[simp] theorem State.appendPhase_seen (p : Phase) (s : State) : (s.appendPhase p).seen = s.seen := rfl

/-! `setPos` -/

@[simp] theorem State.setPos_fault (n : Nat) (s : State) : (s.setPos n).fault = s.fault := rfl
@[simp] theorem State.setPos_freqValid (n : Nat) (s : State) : (s.setPos n).freqValid = s.freqValid := rfl
@[simp] theorem State.setPos_treeDone (n : Nat) (s : State) : (s.setPos n).treeDone = s.treeDone := rfl
@[simp] theorem State.setPos_codeValid (n : Nat) (s : State) : (s.setPos n).codeValid = s.codeValid := rfl
@[simp] theorem State.setPos_err (n : Nat) (s : State) : (s.setPos n).err = s.err := rfl
@[simp] theorem State.setPos_errInfo (n : Nat) (s : State) : (s.setPos n).errInfo = s.errInfo := rfl
@[simp] theorem State.setPos_total (n : Nat) (s : State) : (s.setPos n).total = s.total := rfl
@[simp] theorem State.setPos_ndist (n : Nat) (s : State) : (s.setPos n).ndist = s.ndist := rfl
@[simp] theorem State.setPos_nnodes (n : Nat) (s : State) : (s.setPos n).nnodes = s.nnodes := rfl
@[simp] theorem State.setPos_rootValid (n : Nat) (s : State) : (s.setPos n).rootValid = s.rootValid := rfl
@[simp] theorem State.setPos_rootIdx (n : Nat) (s : State) : (s.setPos n).rootIdx = s.rootIdx := rfl
@[simp] theorem State.setPos_emitted (n : Nat) (s : State) : (s.setPos n).emitted = s.emitted := rfl
@[simp] theorem State.setPos_arg0 (n : Nat) (s : State) : (s.setPos n).arg0 = s.arg0 := rfl
@[simp] theorem State.setPos_arg1 (n : Nat) (s : State) : (s.setPos n).arg1 = s.arg1 := rfl
@[simp] theorem State.setPos_res0 (n : Nat) (s : State) : (s.setPos n).res0 = s.res0 := rfl
@[simp] theorem State.setPos_res1 (n : Nat) (s : State) : (s.setPos n).res1 = s.res1 := rfl
@[simp] theorem State.setPos_sel (n : Nat) (s : State) : (s.setPos n).sel = s.sel := rfl
@[simp] theorem State.setPos_freq (n : Nat) (s : State) : (s.setPos n).freq = s.freq := rfl
@[simp] theorem State.setPos_pq (n : Nat) (s : State) : (s.setPos n).pq = s.pq := rfl
@[simp] theorem State.setPos_node (n : Nat) (s : State) : (s.setPos n).node = s.node := rfl
@[simp] theorem State.setPos_code (n : Nat) (s : State) : (s.setPos n).code = s.code := rfl
@[simp] theorem State.setPos_src (n : Nat) (s : State) : (s.setPos n).src = ⟨s.src.data, n⟩ := rfl
@[simp] theorem State.setPos_snk (n : Nat) (s : State) : (s.setPos n).snk = s.snk := rfl
@[simp] theorem State.setPos_obs (n : Nat) (s : State) : (s.setPos n).obs = s.obs := rfl
@[simp] theorem State.setPos_observerAttached (n : Nat) (s : State) : (s.setPos n).observerAttached = s.observerAttached := rfl
@[simp] theorem State.setPos_answers (n : Nat) (s : State) : (s.setPos n).answers = s.answers := rfl
@[simp] theorem State.setPos_inputs (n : Nat) (s : State) : (s.setPos n).inputs = s.inputs := rfl
@[simp] theorem State.setPos_seen (n : Nat) (s : State) : (s.setPos n).seen = s.seen := rfl

/-! `appendByte` -/

@[simp] theorem State.appendByte_fault (b : Byte) (s : State) : (s.appendByte b).fault = s.fault := rfl
@[simp] theorem State.appendByte_freqValid (b : Byte) (s : State) : (s.appendByte b).freqValid = s.freqValid := rfl
@[simp] theorem State.appendByte_treeDone (b : Byte) (s : State) : (s.appendByte b).treeDone = s.treeDone := rfl
@[simp] theorem State.appendByte_codeValid (b : Byte) (s : State) : (s.appendByte b).codeValid = s.codeValid := rfl
@[simp] theorem State.appendByte_err (b : Byte) (s : State) : (s.appendByte b).err = s.err := rfl
@[simp] theorem State.appendByte_errInfo (b : Byte) (s : State) : (s.appendByte b).errInfo = s.errInfo := rfl
@[simp] theorem State.appendByte_total (b : Byte) (s : State) : (s.appendByte b).total = s.total := rfl
@[simp] theorem State.appendByte_ndist (b : Byte) (s : State) : (s.appendByte b).ndist = s.ndist := rfl
@[simp] theorem State.appendByte_nnodes (b : Byte) (s : State) : (s.appendByte b).nnodes = s.nnodes := rfl
@[simp] theorem State.appendByte_rootValid (b : Byte) (s : State) : (s.appendByte b).rootValid = s.rootValid := rfl
@[simp] theorem State.appendByte_rootIdx (b : Byte) (s : State) : (s.appendByte b).rootIdx = s.rootIdx := rfl
@[simp] theorem State.appendByte_emitted (b : Byte) (s : State) : (s.appendByte b).emitted = s.emitted := rfl
@[simp] theorem State.appendByte_arg0 (b : Byte) (s : State) : (s.appendByte b).arg0 = s.arg0 := rfl
@[simp] theorem State.appendByte_arg1 (b : Byte) (s : State) : (s.appendByte b).arg1 = s.arg1 := rfl
@[simp] theorem State.appendByte_res0 (b : Byte) (s : State) : (s.appendByte b).res0 = s.res0 := rfl
@[simp] theorem State.appendByte_res1 (b : Byte) (s : State) : (s.appendByte b).res1 = s.res1 := rfl
@[simp] theorem State.appendByte_sel (b : Byte) (s : State) : (s.appendByte b).sel = s.sel := rfl
@[simp] theorem State.appendByte_freq (b : Byte) (s : State) : (s.appendByte b).freq = s.freq := rfl
@[simp] theorem State.appendByte_pq (b : Byte) (s : State) : (s.appendByte b).pq = s.pq := rfl
@[simp] theorem State.appendByte_node (b : Byte) (s : State) : (s.appendByte b).node = s.node := rfl
@[simp] theorem State.appendByte_code (b : Byte) (s : State) : (s.appendByte b).code = s.code := rfl
@[simp] theorem State.appendByte_src (b : Byte) (s : State) : (s.appendByte b).src = s.src := rfl
@[simp] theorem State.appendByte_snk (b : Byte) (s : State) : (s.appendByte b).snk = s.snk ++ [b] := rfl
@[simp] theorem State.appendByte_obs (b : Byte) (s : State) : (s.appendByte b).obs = s.obs := rfl
@[simp] theorem State.appendByte_observerAttached (b : Byte) (s : State) : (s.appendByte b).observerAttached = s.observerAttached := rfl
@[simp] theorem State.appendByte_answers (b : Byte) (s : State) : (s.appendByte b).answers = s.answers := rfl
@[simp] theorem State.appendByte_inputs (b : Byte) (s : State) : (s.appendByte b).inputs = s.inputs := rfl
@[simp] theorem State.appendByte_seen (b : Byte) (s : State) : (s.appendByte b).seen = s.seen := rfl

/-! `setFreq` -/

@[simp] theorem State.setFreq_fault (b : Byte) (w : Word) (s : State) : (s.setFreq b w).fault = s.fault := rfl
@[simp] theorem State.setFreq_freqValid (b : Byte) (w : Word) (s : State) : (s.setFreq b w).freqValid = s.freqValid := rfl
@[simp] theorem State.setFreq_treeDone (b : Byte) (w : Word) (s : State) : (s.setFreq b w).treeDone = s.treeDone := rfl
@[simp] theorem State.setFreq_codeValid (b : Byte) (w : Word) (s : State) : (s.setFreq b w).codeValid = s.codeValid := rfl
@[simp] theorem State.setFreq_err (b : Byte) (w : Word) (s : State) : (s.setFreq b w).err = s.err := rfl
@[simp] theorem State.setFreq_errInfo (b : Byte) (w : Word) (s : State) : (s.setFreq b w).errInfo = s.errInfo := rfl
@[simp] theorem State.setFreq_total (b : Byte) (w : Word) (s : State) : (s.setFreq b w).total = s.total := rfl
@[simp] theorem State.setFreq_ndist (b : Byte) (w : Word) (s : State) : (s.setFreq b w).ndist = s.ndist := rfl
@[simp] theorem State.setFreq_nnodes (b : Byte) (w : Word) (s : State) : (s.setFreq b w).nnodes = s.nnodes := rfl
@[simp] theorem State.setFreq_rootValid (b : Byte) (w : Word) (s : State) : (s.setFreq b w).rootValid = s.rootValid := rfl
@[simp] theorem State.setFreq_rootIdx (b : Byte) (w : Word) (s : State) : (s.setFreq b w).rootIdx = s.rootIdx := rfl
@[simp] theorem State.setFreq_emitted (b : Byte) (w : Word) (s : State) : (s.setFreq b w).emitted = s.emitted := rfl
@[simp] theorem State.setFreq_arg0 (b : Byte) (w : Word) (s : State) : (s.setFreq b w).arg0 = s.arg0 := rfl
@[simp] theorem State.setFreq_arg1 (b : Byte) (w : Word) (s : State) : (s.setFreq b w).arg1 = s.arg1 := rfl
@[simp] theorem State.setFreq_res0 (b : Byte) (w : Word) (s : State) : (s.setFreq b w).res0 = s.res0 := rfl
@[simp] theorem State.setFreq_res1 (b : Byte) (w : Word) (s : State) : (s.setFreq b w).res1 = s.res1 := rfl
@[simp] theorem State.setFreq_sel (b : Byte) (w : Word) (s : State) : (s.setFreq b w).sel = s.sel := rfl
@[simp] theorem State.setFreq_freq (b : Byte) (w : Word) (s : State) : (s.setFreq b w).freq = s.freq.set b.toNat w b.isLt := rfl
@[simp] theorem State.setFreq_pq (b : Byte) (w : Word) (s : State) : (s.setFreq b w).pq = s.pq := rfl
@[simp] theorem State.setFreq_node (b : Byte) (w : Word) (s : State) : (s.setFreq b w).node = s.node := rfl
@[simp] theorem State.setFreq_code (b : Byte) (w : Word) (s : State) : (s.setFreq b w).code = s.code := rfl
@[simp] theorem State.setFreq_src (b : Byte) (w : Word) (s : State) : (s.setFreq b w).src = s.src := rfl
@[simp] theorem State.setFreq_snk (b : Byte) (w : Word) (s : State) : (s.setFreq b w).snk = s.snk := rfl
@[simp] theorem State.setFreq_obs (b : Byte) (w : Word) (s : State) : (s.setFreq b w).obs = s.obs := rfl
@[simp] theorem State.setFreq_observerAttached (b : Byte) (w : Word) (s : State) : (s.setFreq b w).observerAttached = s.observerAttached := rfl
@[simp] theorem State.setFreq_answers (b : Byte) (w : Word) (s : State) : (s.setFreq b w).answers = s.answers := rfl
@[simp] theorem State.setFreq_inputs (b : Byte) (w : Word) (s : State) : (s.setFreq b w).inputs = s.inputs := rfl
@[simp] theorem State.setFreq_seen (b : Byte) (w : Word) (s : State) : (s.setFreq b w).seen = s.seen := rfl

/-! `setCode` -/

@[simp] theorem State.setCode_fault (b : Byte) (ds : List Digit) (s : State) : (s.setCode b ds).fault = s.fault := rfl
@[simp] theorem State.setCode_freqValid (b : Byte) (ds : List Digit) (s : State) : (s.setCode b ds).freqValid = s.freqValid := rfl
@[simp] theorem State.setCode_treeDone (b : Byte) (ds : List Digit) (s : State) : (s.setCode b ds).treeDone = s.treeDone := rfl
@[simp] theorem State.setCode_codeValid (b : Byte) (ds : List Digit) (s : State) : (s.setCode b ds).codeValid = s.codeValid := rfl
@[simp] theorem State.setCode_err (b : Byte) (ds : List Digit) (s : State) : (s.setCode b ds).err = s.err := rfl
@[simp] theorem State.setCode_errInfo (b : Byte) (ds : List Digit) (s : State) : (s.setCode b ds).errInfo = s.errInfo := rfl
@[simp] theorem State.setCode_total (b : Byte) (ds : List Digit) (s : State) : (s.setCode b ds).total = s.total := rfl
@[simp] theorem State.setCode_ndist (b : Byte) (ds : List Digit) (s : State) : (s.setCode b ds).ndist = s.ndist := rfl
@[simp] theorem State.setCode_nnodes (b : Byte) (ds : List Digit) (s : State) : (s.setCode b ds).nnodes = s.nnodes := rfl
@[simp] theorem State.setCode_rootValid (b : Byte) (ds : List Digit) (s : State) : (s.setCode b ds).rootValid = s.rootValid := rfl
@[simp] theorem State.setCode_rootIdx (b : Byte) (ds : List Digit) (s : State) : (s.setCode b ds).rootIdx = s.rootIdx := rfl
@[simp] theorem State.setCode_emitted (b : Byte) (ds : List Digit) (s : State) : (s.setCode b ds).emitted = s.emitted := rfl
@[simp] theorem State.setCode_arg0 (b : Byte) (ds : List Digit) (s : State) : (s.setCode b ds).arg0 = s.arg0 := rfl
@[simp] theorem State.setCode_arg1 (b : Byte) (ds : List Digit) (s : State) : (s.setCode b ds).arg1 = s.arg1 := rfl
@[simp] theorem State.setCode_res0 (b : Byte) (ds : List Digit) (s : State) : (s.setCode b ds).res0 = s.res0 := rfl
@[simp] theorem State.setCode_res1 (b : Byte) (ds : List Digit) (s : State) : (s.setCode b ds).res1 = s.res1 := rfl
@[simp] theorem State.setCode_sel (b : Byte) (ds : List Digit) (s : State) : (s.setCode b ds).sel = s.sel := rfl
@[simp] theorem State.setCode_freq (b : Byte) (ds : List Digit) (s : State) : (s.setCode b ds).freq = s.freq := rfl
@[simp] theorem State.setCode_pq (b : Byte) (ds : List Digit) (s : State) : (s.setCode b ds).pq = s.pq := rfl
@[simp] theorem State.setCode_node (b : Byte) (ds : List Digit) (s : State) : (s.setCode b ds).node = s.node := rfl
@[simp] theorem State.setCode_code (b : Byte) (ds : List Digit) (s : State) : (s.setCode b ds).code = s.code.set b.toNat ds b.isLt := rfl
@[simp] theorem State.setCode_src (b : Byte) (ds : List Digit) (s : State) : (s.setCode b ds).src = s.src := rfl
@[simp] theorem State.setCode_snk (b : Byte) (ds : List Digit) (s : State) : (s.setCode b ds).snk = s.snk := rfl
@[simp] theorem State.setCode_obs (b : Byte) (ds : List Digit) (s : State) : (s.setCode b ds).obs = s.obs := rfl
@[simp] theorem State.setCode_observerAttached (b : Byte) (ds : List Digit) (s : State) : (s.setCode b ds).observerAttached = s.observerAttached := rfl
@[simp] theorem State.setCode_answers (b : Byte) (ds : List Digit) (s : State) : (s.setCode b ds).answers = s.answers := rfl
@[simp] theorem State.setCode_inputs (b : Byte) (ds : List Digit) (s : State) : (s.setCode b ds).inputs = s.inputs := rfl
@[simp] theorem State.setCode_seen (b : Byte) (ds : List Digit) (s : State) : (s.setCode b ds).seen = s.seen := rfl

/-! `clearCodes` -/

@[simp] theorem State.clearCodes_fault (s : State) : s.clearCodes.fault = s.fault := rfl
@[simp] theorem State.clearCodes_freqValid (s : State) : s.clearCodes.freqValid = s.freqValid := rfl
@[simp] theorem State.clearCodes_treeDone (s : State) : s.clearCodes.treeDone = s.treeDone := rfl
@[simp] theorem State.clearCodes_codeValid (s : State) : s.clearCodes.codeValid = s.codeValid := rfl
@[simp] theorem State.clearCodes_err (s : State) : s.clearCodes.err = s.err := rfl
@[simp] theorem State.clearCodes_errInfo (s : State) : s.clearCodes.errInfo = s.errInfo := rfl
@[simp] theorem State.clearCodes_total (s : State) : s.clearCodes.total = s.total := rfl
@[simp] theorem State.clearCodes_ndist (s : State) : s.clearCodes.ndist = s.ndist := rfl
@[simp] theorem State.clearCodes_nnodes (s : State) : s.clearCodes.nnodes = s.nnodes := rfl
@[simp] theorem State.clearCodes_rootValid (s : State) : s.clearCodes.rootValid = s.rootValid := rfl
@[simp] theorem State.clearCodes_rootIdx (s : State) : s.clearCodes.rootIdx = s.rootIdx := rfl
@[simp] theorem State.clearCodes_emitted (s : State) : s.clearCodes.emitted = s.emitted := rfl
@[simp] theorem State.clearCodes_arg0 (s : State) : s.clearCodes.arg0 = s.arg0 := rfl
@[simp] theorem State.clearCodes_arg1 (s : State) : s.clearCodes.arg1 = s.arg1 := rfl
@[simp] theorem State.clearCodes_res0 (s : State) : s.clearCodes.res0 = s.res0 := rfl
@[simp] theorem State.clearCodes_res1 (s : State) : s.clearCodes.res1 = s.res1 := rfl
@[simp] theorem State.clearCodes_sel (s : State) : s.clearCodes.sel = s.sel := rfl
@[simp] theorem State.clearCodes_freq (s : State) : s.clearCodes.freq = s.freq := rfl
@[simp] theorem State.clearCodes_pq (s : State) : s.clearCodes.pq = s.pq := rfl
@[simp] theorem State.clearCodes_node (s : State) : s.clearCodes.node = s.node := rfl
@[simp] theorem State.clearCodes_code (s : State) : s.clearCodes.code = Vector.replicate 256 [] := rfl
@[simp] theorem State.clearCodes_src (s : State) : s.clearCodes.src = s.src := rfl
@[simp] theorem State.clearCodes_snk (s : State) : s.clearCodes.snk = s.snk := rfl
@[simp] theorem State.clearCodes_obs (s : State) : s.clearCodes.obs = s.obs := rfl
@[simp] theorem State.clearCodes_observerAttached (s : State) : s.clearCodes.observerAttached = s.observerAttached := rfl
@[simp] theorem State.clearCodes_answers (s : State) : s.clearCodes.answers = s.answers := rfl
@[simp] theorem State.clearCodes_inputs (s : State) : s.clearCodes.inputs = s.inputs := rfl
@[simp] theorem State.clearCodes_seen (s : State) : s.clearCodes.seen = s.seen := rfl

/-! `writeNode` -/

@[simp] theorem State.writeNode_fault (n : Node) (s : State) : (s.writeNode n).fault = s.fault := rfl
@[simp] theorem State.writeNode_freqValid (n : Node) (s : State) : (s.writeNode n).freqValid = s.freqValid := rfl
@[simp] theorem State.writeNode_treeDone (n : Node) (s : State) : (s.writeNode n).treeDone = s.treeDone := rfl
@[simp] theorem State.writeNode_codeValid (n : Node) (s : State) : (s.writeNode n).codeValid = s.codeValid := rfl
@[simp] theorem State.writeNode_err (n : Node) (s : State) : (s.writeNode n).err = s.err := rfl
@[simp] theorem State.writeNode_errInfo (n : Node) (s : State) : (s.writeNode n).errInfo = s.errInfo := rfl
@[simp] theorem State.writeNode_total (n : Node) (s : State) : (s.writeNode n).total = s.total := rfl
@[simp] theorem State.writeNode_ndist (n : Node) (s : State) : (s.writeNode n).ndist = s.ndist := rfl
@[simp] theorem State.writeNode_nnodes (n : Node) (s : State) : (s.writeNode n).nnodes = s.nnodes := rfl
@[simp] theorem State.writeNode_rootValid (n : Node) (s : State) : (s.writeNode n).rootValid = s.rootValid := rfl
@[simp] theorem State.writeNode_rootIdx (n : Node) (s : State) : (s.writeNode n).rootIdx = s.rootIdx := rfl
@[simp] theorem State.writeNode_emitted (n : Node) (s : State) : (s.writeNode n).emitted = s.emitted := rfl
@[simp] theorem State.writeNode_arg0 (n : Node) (s : State) : (s.writeNode n).arg0 = s.arg0 := rfl
@[simp] theorem State.writeNode_arg1 (n : Node) (s : State) : (s.writeNode n).arg1 = s.arg1 := rfl
@[simp] theorem State.writeNode_res0 (n : Node) (s : State) : (s.writeNode n).res0 = s.res0 := rfl
@[simp] theorem State.writeNode_res1 (n : Node) (s : State) : (s.writeNode n).res1 = s.res1 := rfl
@[simp] theorem State.writeNode_sel (n : Node) (s : State) : (s.writeNode n).sel = s.sel := rfl
@[simp] theorem State.writeNode_freq (n : Node) (s : State) : (s.writeNode n).freq = s.freq := rfl
@[simp] theorem State.writeNode_pq (n : Node) (s : State) : (s.writeNode n).pq = s.pq := rfl
@[simp] theorem State.writeNode_node (n : Node) (s : State) : (s.writeNode n).node = s.node.setIfInBounds s.nnodes.toNat n := rfl
@[simp] theorem State.writeNode_code (n : Node) (s : State) : (s.writeNode n).code = s.code := rfl
@[simp] theorem State.writeNode_src (n : Node) (s : State) : (s.writeNode n).src = s.src := rfl
@[simp] theorem State.writeNode_snk (n : Node) (s : State) : (s.writeNode n).snk = s.snk := rfl
@[simp] theorem State.writeNode_obs (n : Node) (s : State) : (s.writeNode n).obs = s.obs := rfl
@[simp] theorem State.writeNode_observerAttached (n : Node) (s : State) : (s.writeNode n).observerAttached = s.observerAttached := rfl
@[simp] theorem State.writeNode_answers (n : Node) (s : State) : (s.writeNode n).answers = s.answers := rfl
@[simp] theorem State.writeNode_inputs (n : Node) (s : State) : (s.writeNode n).inputs = s.inputs := rfl
@[simp] theorem State.writeNode_seen (n : Node) (s : State) : (s.writeNode n).seen = s.seen := rfl

/-! `bumpNNodes` -/

@[simp] theorem State.bumpNNodes_fault (s : State) : s.bumpNNodes.fault = s.fault := rfl
@[simp] theorem State.bumpNNodes_freqValid (s : State) : s.bumpNNodes.freqValid = s.freqValid := rfl
@[simp] theorem State.bumpNNodes_treeDone (s : State) : s.bumpNNodes.treeDone = s.treeDone := rfl
@[simp] theorem State.bumpNNodes_codeValid (s : State) : s.bumpNNodes.codeValid = s.codeValid := rfl
@[simp] theorem State.bumpNNodes_err (s : State) : s.bumpNNodes.err = s.err := rfl
@[simp] theorem State.bumpNNodes_errInfo (s : State) : s.bumpNNodes.errInfo = s.errInfo := rfl
@[simp] theorem State.bumpNNodes_total (s : State) : s.bumpNNodes.total = s.total := rfl
@[simp] theorem State.bumpNNodes_ndist (s : State) : s.bumpNNodes.ndist = s.ndist := rfl
@[simp] theorem State.bumpNNodes_nnodes (s : State) : s.bumpNNodes.nnodes = s.nnodes + 1 := rfl
@[simp] theorem State.bumpNNodes_rootValid (s : State) : s.bumpNNodes.rootValid = s.rootValid := rfl
@[simp] theorem State.bumpNNodes_rootIdx (s : State) : s.bumpNNodes.rootIdx = s.rootIdx := rfl
@[simp] theorem State.bumpNNodes_emitted (s : State) : s.bumpNNodes.emitted = s.emitted := rfl
@[simp] theorem State.bumpNNodes_arg0 (s : State) : s.bumpNNodes.arg0 = s.arg0 := rfl
@[simp] theorem State.bumpNNodes_arg1 (s : State) : s.bumpNNodes.arg1 = s.arg1 := rfl
@[simp] theorem State.bumpNNodes_res0 (s : State) : s.bumpNNodes.res0 = s.res0 := rfl
@[simp] theorem State.bumpNNodes_res1 (s : State) : s.bumpNNodes.res1 = s.res1 := rfl
@[simp] theorem State.bumpNNodes_sel (s : State) : s.bumpNNodes.sel = s.sel := rfl
@[simp] theorem State.bumpNNodes_freq (s : State) : s.bumpNNodes.freq = s.freq := rfl
@[simp] theorem State.bumpNNodes_pq (s : State) : s.bumpNNodes.pq = s.pq := rfl
@[simp] theorem State.bumpNNodes_node (s : State) : s.bumpNNodes.node = s.node := rfl
@[simp] theorem State.bumpNNodes_code (s : State) : s.bumpNNodes.code = s.code := rfl
@[simp] theorem State.bumpNNodes_src (s : State) : s.bumpNNodes.src = s.src := rfl
@[simp] theorem State.bumpNNodes_snk (s : State) : s.bumpNNodes.snk = s.snk := rfl
@[simp] theorem State.bumpNNodes_obs (s : State) : s.bumpNNodes.obs = s.obs := rfl
@[simp] theorem State.bumpNNodes_observerAttached (s : State) : s.bumpNNodes.observerAttached = s.observerAttached := rfl
@[simp] theorem State.bumpNNodes_answers (s : State) : s.bumpNNodes.answers = s.answers := rfl
@[simp] theorem State.bumpNNodes_inputs (s : State) : s.bumpNNodes.inputs = s.inputs := rfl
@[simp] theorem State.bumpNNodes_seen (s : State) : s.bumpNNodes.seen = s.seen := rfl

/-! `setPq` -/

@[simp] theorem State.setPq_fault (q : List Item) (s : State) : (s.setPq q).fault = s.fault := rfl
@[simp] theorem State.setPq_freqValid (q : List Item) (s : State) : (s.setPq q).freqValid = s.freqValid := rfl
@[simp] theorem State.setPq_treeDone (q : List Item) (s : State) : (s.setPq q).treeDone = s.treeDone := rfl
@[simp] theorem State.setPq_codeValid (q : List Item) (s : State) : (s.setPq q).codeValid = s.codeValid := rfl
@[simp] theorem State.setPq_err (q : List Item) (s : State) : (s.setPq q).err = s.err := rfl
@[simp] theorem State.setPq_errInfo (q : List Item) (s : State) : (s.setPq q).errInfo = s.errInfo := rfl
@[simp] theorem State.setPq_total (q : List Item) (s : State) : (s.setPq q).total = s.total := rfl
@[simp] theorem State.setPq_ndist (q : List Item) (s : State) : (s.setPq q).ndist = s.ndist := rfl
@[simp] theorem State.setPq_nnodes (q : List Item) (s : State) : (s.setPq q).nnodes = s.nnodes := rfl
@[simp] theorem State.setPq_rootValid (q : List Item) (s : State) : (s.setPq q).rootValid = s.rootValid := rfl
@[simp] theorem State.setPq_rootIdx (q : List Item) (s : State) : (s.setPq q).rootIdx = s.rootIdx := rfl
@[simp] theorem State.setPq_emitted (q : List Item) (s : State) : (s.setPq q).emitted = s.emitted := rfl
@[simp] theorem State.setPq_arg0 (q : List Item) (s : State) : (s.setPq q).arg0 = s.arg0 := rfl
@[simp] theorem State.setPq_arg1 (q : List Item) (s : State) : (s.setPq q).arg1 = s.arg1 := rfl
@[simp] theorem State.setPq_res0 (q : List Item) (s : State) : (s.setPq q).res0 = s.res0 := rfl
@[simp] theorem State.setPq_res1 (q : List Item) (s : State) : (s.setPq q).res1 = s.res1 := rfl
@[simp] theorem State.setPq_sel (q : List Item) (s : State) : (s.setPq q).sel = s.sel := rfl
@[simp] theorem State.setPq_freq (q : List Item) (s : State) : (s.setPq q).freq = s.freq := rfl
@[simp] theorem State.setPq_pq (q : List Item) (s : State) : (s.setPq q).pq = q := rfl
@[simp] theorem State.setPq_node (q : List Item) (s : State) : (s.setPq q).node = s.node := rfl
@[simp] theorem State.setPq_code (q : List Item) (s : State) : (s.setPq q).code = s.code := rfl
@[simp] theorem State.setPq_src (q : List Item) (s : State) : (s.setPq q).src = s.src := rfl
@[simp] theorem State.setPq_snk (q : List Item) (s : State) : (s.setPq q).snk = s.snk := rfl
@[simp] theorem State.setPq_obs (q : List Item) (s : State) : (s.setPq q).obs = s.obs := rfl
@[simp] theorem State.setPq_observerAttached (q : List Item) (s : State) : (s.setPq q).observerAttached = s.observerAttached := rfl
@[simp] theorem State.setPq_answers (q : List Item) (s : State) : (s.setPq q).answers = s.answers := rfl
@[simp] theorem State.setPq_inputs (q : List Item) (s : State) : (s.setPq q).inputs = s.inputs := rfl
@[simp] theorem State.setPq_seen (q : List Item) (s : State) : (s.setPq q).seen = s.seen := rfl

/-! `setResult` -/

@[simp] theorem State.setResult_fault (it : Item) (s : State) : (s.setResult it).fault = s.fault := rfl
@[simp] theorem State.setResult_freqValid (it : Item) (s : State) : (s.setResult it).freqValid = s.freqValid := rfl
@[simp] theorem State.setResult_treeDone (it : Item) (s : State) : (s.setResult it).treeDone = s.treeDone := rfl
@[simp] theorem State.setResult_codeValid (it : Item) (s : State) : (s.setResult it).codeValid = s.codeValid := rfl
@[simp] theorem State.setResult_err (it : Item) (s : State) : (s.setResult it).err = s.err := rfl
@[simp] theorem State.setResult_errInfo (it : Item) (s : State) : (s.setResult it).errInfo = s.errInfo := rfl
@[simp] theorem State.setResult_total (it : Item) (s : State) : (s.setResult it).total = s.total := rfl
@[simp] theorem State.setResult_ndist (it : Item) (s : State) : (s.setResult it).ndist = s.ndist := rfl
@[simp] theorem State.setResult_nnodes (it : Item) (s : State) : (s.setResult it).nnodes = s.nnodes := rfl
@[simp] theorem State.setResult_rootValid (it : Item) (s : State) : (s.setResult it).rootValid = s.rootValid := rfl
@[simp] theorem State.setResult_rootIdx (it : Item) (s : State) : (s.setResult it).rootIdx = s.rootIdx := rfl
@[simp] theorem State.setResult_emitted (it : Item) (s : State) : (s.setResult it).emitted = s.emitted := rfl
@[simp] theorem State.setResult_arg0 (it : Item) (s : State) : (s.setResult it).arg0 = s.arg0 := rfl
@[simp] theorem State.setResult_arg1 (it : Item) (s : State) : (s.setResult it).arg1 = s.arg1 := rfl
@[simp] theorem State.setResult_res0 (it : Item) (s : State) : (s.setResult it).res0 = it.weight := rfl
@[simp] theorem State.setResult_res1 (it : Item) (s : State) : (s.setResult it).res1 = it.tag.setWidth 32 := rfl
@[simp] theorem State.setResult_sel (it : Item) (s : State) : (s.setResult it).sel = s.sel := rfl
@[simp] theorem State.setResult_freq (it : Item) (s : State) : (s.setResult it).freq = s.freq := rfl
@[simp] theorem State.setResult_pq (it : Item) (s : State) : (s.setResult it).pq = s.pq := rfl
@[simp] theorem State.setResult_node (it : Item) (s : State) : (s.setResult it).node = s.node := rfl
@[simp] theorem State.setResult_code (it : Item) (s : State) : (s.setResult it).code = s.code := rfl
@[simp] theorem State.setResult_src (it : Item) (s : State) : (s.setResult it).src = s.src := rfl
@[simp] theorem State.setResult_snk (it : Item) (s : State) : (s.setResult it).snk = s.snk := rfl
@[simp] theorem State.setResult_obs (it : Item) (s : State) : (s.setResult it).obs = s.obs := rfl
@[simp] theorem State.setResult_observerAttached (it : Item) (s : State) : (s.setResult it).observerAttached = s.observerAttached := rfl
@[simp] theorem State.setResult_answers (it : Item) (s : State) : (s.setResult it).answers = s.answers := rfl
@[simp] theorem State.setResult_inputs (it : Item) (s : State) : (s.setResult it).inputs = s.inputs := rfl
@[simp] theorem State.setResult_seen (it : Item) (s : State) : (s.setResult it).seen = s.seen := rfl

/-! `setSize` -/

@[simp] theorem State.setSize_fault (n : Nat) (s : State) : (s.setSize n).fault = s.fault := rfl
@[simp] theorem State.setSize_freqValid (n : Nat) (s : State) : (s.setSize n).freqValid = s.freqValid := rfl
@[simp] theorem State.setSize_treeDone (n : Nat) (s : State) : (s.setSize n).treeDone = s.treeDone := rfl
@[simp] theorem State.setSize_codeValid (n : Nat) (s : State) : (s.setSize n).codeValid = s.codeValid := rfl
@[simp] theorem State.setSize_err (n : Nat) (s : State) : (s.setSize n).err = s.err := rfl
@[simp] theorem State.setSize_errInfo (n : Nat) (s : State) : (s.setSize n).errInfo = s.errInfo := rfl
@[simp] theorem State.setSize_total (n : Nat) (s : State) : (s.setSize n).total = s.total := rfl
@[simp] theorem State.setSize_ndist (n : Nat) (s : State) : (s.setSize n).ndist = s.ndist := rfl
@[simp] theorem State.setSize_nnodes (n : Nat) (s : State) : (s.setSize n).nnodes = s.nnodes := rfl
@[simp] theorem State.setSize_rootValid (n : Nat) (s : State) : (s.setSize n).rootValid = s.rootValid := rfl
@[simp] theorem State.setSize_rootIdx (n : Nat) (s : State) : (s.setSize n).rootIdx = s.rootIdx := rfl
@[simp] theorem State.setSize_emitted (n : Nat) (s : State) : (s.setSize n).emitted = s.emitted := rfl
@[simp] theorem State.setSize_arg0 (n : Nat) (s : State) : (s.setSize n).arg0 = s.arg0 := rfl
@[simp] theorem State.setSize_arg1 (n : Nat) (s : State) : (s.setSize n).arg1 = s.arg1 := rfl
@[simp] theorem State.setSize_res0 (n : Nat) (s : State) : (s.setSize n).res0 = BitVec.ofNat 32 n := rfl
@[simp] theorem State.setSize_res1 (n : Nat) (s : State) : (s.setSize n).res1 = s.res1 := rfl
@[simp] theorem State.setSize_sel (n : Nat) (s : State) : (s.setSize n).sel = s.sel := rfl
@[simp] theorem State.setSize_freq (n : Nat) (s : State) : (s.setSize n).freq = s.freq := rfl
@[simp] theorem State.setSize_pq (n : Nat) (s : State) : (s.setSize n).pq = s.pq := rfl
@[simp] theorem State.setSize_node (n : Nat) (s : State) : (s.setSize n).node = s.node := rfl
@[simp] theorem State.setSize_code (n : Nat) (s : State) : (s.setSize n).code = s.code := rfl
@[simp] theorem State.setSize_src (n : Nat) (s : State) : (s.setSize n).src = s.src := rfl
@[simp] theorem State.setSize_snk (n : Nat) (s : State) : (s.setSize n).snk = s.snk := rfl
@[simp] theorem State.setSize_obs (n : Nat) (s : State) : (s.setSize n).obs = s.obs := rfl
@[simp] theorem State.setSize_observerAttached (n : Nat) (s : State) : (s.setSize n).observerAttached = s.observerAttached := rfl
@[simp] theorem State.setSize_answers (n : Nat) (s : State) : (s.setSize n).answers = s.answers := rfl
@[simp] theorem State.setSize_inputs (n : Nat) (s : State) : (s.setSize n).inputs = s.inputs := rfl
@[simp] theorem State.setSize_seen (n : Nat) (s : State) : (s.setSize n).seen = s.seen := rfl

/-! `setFreqValid` -/

@[simp] theorem State.setFreqValid_fault (s : State) : s.setFreqValid.fault = s.fault := rfl
@[simp] theorem State.setFreqValid_freqValid (s : State) : s.setFreqValid.freqValid = true := rfl
@[simp] theorem State.setFreqValid_treeDone (s : State) : s.setFreqValid.treeDone = s.treeDone := rfl
@[simp] theorem State.setFreqValid_codeValid (s : State) : s.setFreqValid.codeValid = s.codeValid := rfl
@[simp] theorem State.setFreqValid_err (s : State) : s.setFreqValid.err = s.err := rfl
@[simp] theorem State.setFreqValid_errInfo (s : State) : s.setFreqValid.errInfo = s.errInfo := rfl
@[simp] theorem State.setFreqValid_total (s : State) : s.setFreqValid.total = s.total := rfl
@[simp] theorem State.setFreqValid_ndist (s : State) : s.setFreqValid.ndist = s.ndist := rfl
@[simp] theorem State.setFreqValid_nnodes (s : State) : s.setFreqValid.nnodes = s.nnodes := rfl
@[simp] theorem State.setFreqValid_rootValid (s : State) : s.setFreqValid.rootValid = s.rootValid := rfl
@[simp] theorem State.setFreqValid_rootIdx (s : State) : s.setFreqValid.rootIdx = s.rootIdx := rfl
@[simp] theorem State.setFreqValid_emitted (s : State) : s.setFreqValid.emitted = s.emitted := rfl
@[simp] theorem State.setFreqValid_arg0 (s : State) : s.setFreqValid.arg0 = s.arg0 := rfl
@[simp] theorem State.setFreqValid_arg1 (s : State) : s.setFreqValid.arg1 = s.arg1 := rfl
@[simp] theorem State.setFreqValid_res0 (s : State) : s.setFreqValid.res0 = s.res0 := rfl
@[simp] theorem State.setFreqValid_res1 (s : State) : s.setFreqValid.res1 = s.res1 := rfl
@[simp] theorem State.setFreqValid_sel (s : State) : s.setFreqValid.sel = s.sel := rfl
@[simp] theorem State.setFreqValid_freq (s : State) : s.setFreqValid.freq = s.freq := rfl
@[simp] theorem State.setFreqValid_pq (s : State) : s.setFreqValid.pq = s.pq := rfl
@[simp] theorem State.setFreqValid_node (s : State) : s.setFreqValid.node = s.node := rfl
@[simp] theorem State.setFreqValid_code (s : State) : s.setFreqValid.code = s.code := rfl
@[simp] theorem State.setFreqValid_src (s : State) : s.setFreqValid.src = s.src := rfl
@[simp] theorem State.setFreqValid_snk (s : State) : s.setFreqValid.snk = s.snk := rfl
@[simp] theorem State.setFreqValid_obs (s : State) : s.setFreqValid.obs = s.obs := rfl
@[simp] theorem State.setFreqValid_observerAttached (s : State) : s.setFreqValid.observerAttached = s.observerAttached := rfl
@[simp] theorem State.setFreqValid_answers (s : State) : s.setFreqValid.answers = s.answers := rfl
@[simp] theorem State.setFreqValid_inputs (s : State) : s.setFreqValid.inputs = s.inputs := rfl
@[simp] theorem State.setFreqValid_seen (s : State) : s.setFreqValid.seen = s.seen := rfl

/-! `setTreeDone` -/

@[simp] theorem State.setTreeDone_fault (s : State) : s.setTreeDone.fault = s.fault := rfl
@[simp] theorem State.setTreeDone_freqValid (s : State) : s.setTreeDone.freqValid = s.freqValid := rfl
@[simp] theorem State.setTreeDone_treeDone (s : State) : s.setTreeDone.treeDone = true := rfl
@[simp] theorem State.setTreeDone_codeValid (s : State) : s.setTreeDone.codeValid = s.codeValid := rfl
@[simp] theorem State.setTreeDone_err (s : State) : s.setTreeDone.err = s.err := rfl
@[simp] theorem State.setTreeDone_errInfo (s : State) : s.setTreeDone.errInfo = s.errInfo := rfl
@[simp] theorem State.setTreeDone_total (s : State) : s.setTreeDone.total = s.total := rfl
@[simp] theorem State.setTreeDone_ndist (s : State) : s.setTreeDone.ndist = s.ndist := rfl
@[simp] theorem State.setTreeDone_nnodes (s : State) : s.setTreeDone.nnodes = s.nnodes := rfl
@[simp] theorem State.setTreeDone_rootValid (s : State) : s.setTreeDone.rootValid = s.rootValid := rfl
@[simp] theorem State.setTreeDone_rootIdx (s : State) : s.setTreeDone.rootIdx = s.rootIdx := rfl
@[simp] theorem State.setTreeDone_emitted (s : State) : s.setTreeDone.emitted = s.emitted := rfl
@[simp] theorem State.setTreeDone_arg0 (s : State) : s.setTreeDone.arg0 = s.arg0 := rfl
@[simp] theorem State.setTreeDone_arg1 (s : State) : s.setTreeDone.arg1 = s.arg1 := rfl
@[simp] theorem State.setTreeDone_res0 (s : State) : s.setTreeDone.res0 = s.res0 := rfl
@[simp] theorem State.setTreeDone_res1 (s : State) : s.setTreeDone.res1 = s.res1 := rfl
@[simp] theorem State.setTreeDone_sel (s : State) : s.setTreeDone.sel = s.sel := rfl
@[simp] theorem State.setTreeDone_freq (s : State) : s.setTreeDone.freq = s.freq := rfl
@[simp] theorem State.setTreeDone_pq (s : State) : s.setTreeDone.pq = s.pq := rfl
@[simp] theorem State.setTreeDone_node (s : State) : s.setTreeDone.node = s.node := rfl
@[simp] theorem State.setTreeDone_code (s : State) : s.setTreeDone.code = s.code := rfl
@[simp] theorem State.setTreeDone_src (s : State) : s.setTreeDone.src = s.src := rfl
@[simp] theorem State.setTreeDone_snk (s : State) : s.setTreeDone.snk = s.snk := rfl
@[simp] theorem State.setTreeDone_obs (s : State) : s.setTreeDone.obs = s.obs := rfl
@[simp] theorem State.setTreeDone_observerAttached (s : State) : s.setTreeDone.observerAttached = s.observerAttached := rfl
@[simp] theorem State.setTreeDone_answers (s : State) : s.setTreeDone.answers = s.answers := rfl
@[simp] theorem State.setTreeDone_inputs (s : State) : s.setTreeDone.inputs = s.inputs := rfl
@[simp] theorem State.setTreeDone_seen (s : State) : s.setTreeDone.seen = s.seen := rfl

/-! `setCodeValid` -/

@[simp] theorem State.setCodeValid_fault (s : State) : s.setCodeValid.fault = s.fault := rfl
@[simp] theorem State.setCodeValid_freqValid (s : State) : s.setCodeValid.freqValid = s.freqValid := rfl
@[simp] theorem State.setCodeValid_treeDone (s : State) : s.setCodeValid.treeDone = s.treeDone := rfl
@[simp] theorem State.setCodeValid_codeValid (s : State) : s.setCodeValid.codeValid = true := rfl
@[simp] theorem State.setCodeValid_err (s : State) : s.setCodeValid.err = s.err := rfl
@[simp] theorem State.setCodeValid_errInfo (s : State) : s.setCodeValid.errInfo = s.errInfo := rfl
@[simp] theorem State.setCodeValid_total (s : State) : s.setCodeValid.total = s.total := rfl
@[simp] theorem State.setCodeValid_ndist (s : State) : s.setCodeValid.ndist = s.ndist := rfl
@[simp] theorem State.setCodeValid_nnodes (s : State) : s.setCodeValid.nnodes = s.nnodes := rfl
@[simp] theorem State.setCodeValid_rootValid (s : State) : s.setCodeValid.rootValid = s.rootValid := rfl
@[simp] theorem State.setCodeValid_rootIdx (s : State) : s.setCodeValid.rootIdx = s.rootIdx := rfl
@[simp] theorem State.setCodeValid_emitted (s : State) : s.setCodeValid.emitted = s.emitted := rfl
@[simp] theorem State.setCodeValid_arg0 (s : State) : s.setCodeValid.arg0 = s.arg0 := rfl
@[simp] theorem State.setCodeValid_arg1 (s : State) : s.setCodeValid.arg1 = s.arg1 := rfl
@[simp] theorem State.setCodeValid_res0 (s : State) : s.setCodeValid.res0 = s.res0 := rfl
@[simp] theorem State.setCodeValid_res1 (s : State) : s.setCodeValid.res1 = s.res1 := rfl
@[simp] theorem State.setCodeValid_sel (s : State) : s.setCodeValid.sel = s.sel := rfl
@[simp] theorem State.setCodeValid_freq (s : State) : s.setCodeValid.freq = s.freq := rfl
@[simp] theorem State.setCodeValid_pq (s : State) : s.setCodeValid.pq = s.pq := rfl
@[simp] theorem State.setCodeValid_node (s : State) : s.setCodeValid.node = s.node := rfl
@[simp] theorem State.setCodeValid_code (s : State) : s.setCodeValid.code = s.code := rfl
@[simp] theorem State.setCodeValid_src (s : State) : s.setCodeValid.src = s.src := rfl
@[simp] theorem State.setCodeValid_snk (s : State) : s.setCodeValid.snk = s.snk := rfl
@[simp] theorem State.setCodeValid_obs (s : State) : s.setCodeValid.obs = s.obs := rfl
@[simp] theorem State.setCodeValid_observerAttached (s : State) : s.setCodeValid.observerAttached = s.observerAttached := rfl
@[simp] theorem State.setCodeValid_answers (s : State) : s.setCodeValid.answers = s.answers := rfl
@[simp] theorem State.setCodeValid_inputs (s : State) : s.setCodeValid.inputs = s.inputs := rfl
@[simp] theorem State.setCodeValid_seen (s : State) : s.setCodeValid.seen = s.seen := rfl

/-! `clearCodeValid` -/

@[simp] theorem State.clearCodeValid_fault (s : State) : s.clearCodeValid.fault = s.fault := rfl
@[simp] theorem State.clearCodeValid_freqValid (s : State) : s.clearCodeValid.freqValid = s.freqValid := rfl
@[simp] theorem State.clearCodeValid_treeDone (s : State) : s.clearCodeValid.treeDone = s.treeDone := rfl
@[simp] theorem State.clearCodeValid_codeValid (s : State) : s.clearCodeValid.codeValid = false := rfl
@[simp] theorem State.clearCodeValid_err (s : State) : s.clearCodeValid.err = s.err := rfl
@[simp] theorem State.clearCodeValid_errInfo (s : State) : s.clearCodeValid.errInfo = s.errInfo := rfl
@[simp] theorem State.clearCodeValid_total (s : State) : s.clearCodeValid.total = s.total := rfl
@[simp] theorem State.clearCodeValid_ndist (s : State) : s.clearCodeValid.ndist = s.ndist := rfl
@[simp] theorem State.clearCodeValid_nnodes (s : State) : s.clearCodeValid.nnodes = s.nnodes := rfl
@[simp] theorem State.clearCodeValid_rootValid (s : State) : s.clearCodeValid.rootValid = s.rootValid := rfl
@[simp] theorem State.clearCodeValid_rootIdx (s : State) : s.clearCodeValid.rootIdx = s.rootIdx := rfl
@[simp] theorem State.clearCodeValid_emitted (s : State) : s.clearCodeValid.emitted = s.emitted := rfl
@[simp] theorem State.clearCodeValid_arg0 (s : State) : s.clearCodeValid.arg0 = s.arg0 := rfl
@[simp] theorem State.clearCodeValid_arg1 (s : State) : s.clearCodeValid.arg1 = s.arg1 := rfl
@[simp] theorem State.clearCodeValid_res0 (s : State) : s.clearCodeValid.res0 = s.res0 := rfl
@[simp] theorem State.clearCodeValid_res1 (s : State) : s.clearCodeValid.res1 = s.res1 := rfl
@[simp] theorem State.clearCodeValid_sel (s : State) : s.clearCodeValid.sel = s.sel := rfl
@[simp] theorem State.clearCodeValid_freq (s : State) : s.clearCodeValid.freq = s.freq := rfl
@[simp] theorem State.clearCodeValid_pq (s : State) : s.clearCodeValid.pq = s.pq := rfl
@[simp] theorem State.clearCodeValid_node (s : State) : s.clearCodeValid.node = s.node := rfl
@[simp] theorem State.clearCodeValid_code (s : State) : s.clearCodeValid.code = s.code := rfl
@[simp] theorem State.clearCodeValid_src (s : State) : s.clearCodeValid.src = s.src := rfl
@[simp] theorem State.clearCodeValid_snk (s : State) : s.clearCodeValid.snk = s.snk := rfl
@[simp] theorem State.clearCodeValid_obs (s : State) : s.clearCodeValid.obs = s.obs := rfl
@[simp] theorem State.clearCodeValid_observerAttached (s : State) : s.clearCodeValid.observerAttached = s.observerAttached := rfl
@[simp] theorem State.clearCodeValid_answers (s : State) : s.clearCodeValid.answers = s.answers := rfl
@[simp] theorem State.clearCodeValid_inputs (s : State) : s.clearCodeValid.inputs = s.inputs := rfl
@[simp] theorem State.clearCodeValid_seen (s : State) : s.clearCodeValid.seen = s.seen := rfl

/-! `countByte` -/

@[simp] theorem State.countByte_fault (b : Byte) (s : State) : (s.countByte b).fault = s.fault := rfl
@[simp] theorem State.countByte_freqValid (b : Byte) (s : State) : (s.countByte b).freqValid = s.freqValid := rfl
@[simp] theorem State.countByte_treeDone (b : Byte) (s : State) : (s.countByte b).treeDone = s.treeDone := rfl
@[simp] theorem State.countByte_codeValid (b : Byte) (s : State) : (s.countByte b).codeValid = s.codeValid := rfl
@[simp] theorem State.countByte_err (b : Byte) (s : State) : (s.countByte b).err = s.err := rfl
@[simp] theorem State.countByte_errInfo (b : Byte) (s : State) : (s.countByte b).errInfo = s.errInfo := rfl
@[simp] theorem State.countByte_total (b : Byte) (s : State) : (s.countByte b).total = s.total + 1 := rfl
@[simp] theorem State.countByte_ndist (b : Byte) (s : State) : (s.countByte b).ndist = s.ndist := rfl
@[simp] theorem State.countByte_nnodes (b : Byte) (s : State) : (s.countByte b).nnodes = s.nnodes := rfl
@[simp] theorem State.countByte_rootValid (b : Byte) (s : State) : (s.countByte b).rootValid = s.rootValid := rfl
@[simp] theorem State.countByte_rootIdx (b : Byte) (s : State) : (s.countByte b).rootIdx = s.rootIdx := rfl
@[simp] theorem State.countByte_emitted (b : Byte) (s : State) : (s.countByte b).emitted = s.emitted := rfl
@[simp] theorem State.countByte_arg0 (b : Byte) (s : State) : (s.countByte b).arg0 = s.arg0 := rfl
@[simp] theorem State.countByte_arg1 (b : Byte) (s : State) : (s.countByte b).arg1 = s.arg1 := rfl
@[simp] theorem State.countByte_res0 (b : Byte) (s : State) : (s.countByte b).res0 = s.res0 := rfl
@[simp] theorem State.countByte_res1 (b : Byte) (s : State) : (s.countByte b).res1 = s.res1 := rfl
@[simp] theorem State.countByte_sel (b : Byte) (s : State) : (s.countByte b).sel = s.sel := rfl
@[simp] theorem State.countByte_freq (b : Byte) (s : State) : (s.countByte b).freq = s.freq.set b.toNat (s.freqAt b + 1) b.isLt := rfl
@[simp] theorem State.countByte_pq (b : Byte) (s : State) : (s.countByte b).pq = s.pq := rfl
@[simp] theorem State.countByte_node (b : Byte) (s : State) : (s.countByte b).node = s.node := rfl
@[simp] theorem State.countByte_code (b : Byte) (s : State) : (s.countByte b).code = s.code := rfl
@[simp] theorem State.countByte_src (b : Byte) (s : State) : (s.countByte b).src = s.src := rfl
@[simp] theorem State.countByte_snk (b : Byte) (s : State) : (s.countByte b).snk = s.snk := rfl
@[simp] theorem State.countByte_obs (b : Byte) (s : State) : (s.countByte b).obs = s.obs := rfl
@[simp] theorem State.countByte_observerAttached (b : Byte) (s : State) : (s.countByte b).observerAttached = s.observerAttached := rfl
@[simp] theorem State.countByte_answers (b : Byte) (s : State) : (s.countByte b).answers = s.answers := rfl
@[simp] theorem State.countByte_inputs (b : Byte) (s : State) : (s.countByte b).inputs = s.inputs := rfl
@[simp] theorem State.countByte_seen (b : Byte) (s : State) : (s.countByte b).seen = s.seen := rfl

/-! `startBuild` -/

@[simp] theorem State.startBuild_fault (s : State) : s.startBuild.fault = s.fault := rfl
@[simp] theorem State.startBuild_freqValid (s : State) : s.startBuild.freqValid = s.freqValid := rfl
@[simp] theorem State.startBuild_treeDone (s : State) : s.startBuild.treeDone = false := rfl
@[simp] theorem State.startBuild_codeValid (s : State) : s.startBuild.codeValid = false := rfl
@[simp] theorem State.startBuild_err (s : State) : s.startBuild.err = s.err := rfl
@[simp] theorem State.startBuild_errInfo (s : State) : s.startBuild.errInfo = s.errInfo := rfl
@[simp] theorem State.startBuild_total (s : State) : s.startBuild.total = s.total := rfl
@[simp] theorem State.startBuild_ndist (s : State) : s.startBuild.ndist = 0 := rfl
@[simp] theorem State.startBuild_nnodes (s : State) : s.startBuild.nnodes = 0 := rfl
@[simp] theorem State.startBuild_rootValid (s : State) : s.startBuild.rootValid = false := rfl
@[simp] theorem State.startBuild_rootIdx (s : State) : s.startBuild.rootIdx = 0 := rfl
@[simp] theorem State.startBuild_emitted (s : State) : s.startBuild.emitted = s.emitted := rfl
@[simp] theorem State.startBuild_arg0 (s : State) : s.startBuild.arg0 = s.arg0 := rfl
@[simp] theorem State.startBuild_arg1 (s : State) : s.startBuild.arg1 = s.arg1 := rfl
@[simp] theorem State.startBuild_res0 (s : State) : s.startBuild.res0 = s.res0 := rfl
@[simp] theorem State.startBuild_res1 (s : State) : s.startBuild.res1 = s.res1 := rfl
@[simp] theorem State.startBuild_sel (s : State) : s.startBuild.sel = s.sel := rfl
@[simp] theorem State.startBuild_freq (s : State) : s.startBuild.freq = s.freq := rfl
@[simp] theorem State.startBuild_pq (s : State) : s.startBuild.pq = [] := rfl
@[simp] theorem State.startBuild_node (s : State) : s.startBuild.node = Vector.replicate 511 Node.zero := rfl
@[simp] theorem State.startBuild_code (s : State) : s.startBuild.code = Vector.replicate 256 [] := rfl
@[simp] theorem State.startBuild_src (s : State) : s.startBuild.src = s.src := rfl
@[simp] theorem State.startBuild_snk (s : State) : s.startBuild.snk = s.snk := rfl
@[simp] theorem State.startBuild_obs (s : State) : s.startBuild.obs = s.obs := rfl
@[simp] theorem State.startBuild_observerAttached (s : State) : s.startBuild.observerAttached = s.observerAttached := rfl
@[simp] theorem State.startBuild_answers (s : State) : s.startBuild.answers = s.answers := rfl
@[simp] theorem State.startBuild_inputs (s : State) : s.startBuild.inputs = s.inputs := rfl
@[simp] theorem State.startBuild_seen (s : State) : s.startBuild.seen = s.seen := rfl

/-! `recordNDist` -/

@[simp] theorem State.recordNDist_fault (s : State) : s.recordNDist.fault = s.fault := rfl
@[simp] theorem State.recordNDist_freqValid (s : State) : s.recordNDist.freqValid = s.freqValid := rfl
@[simp] theorem State.recordNDist_treeDone (s : State) : s.recordNDist.treeDone = s.treeDone := rfl
@[simp] theorem State.recordNDist_codeValid (s : State) : s.recordNDist.codeValid = s.codeValid := rfl
@[simp] theorem State.recordNDist_err (s : State) : s.recordNDist.err = s.err := rfl
@[simp] theorem State.recordNDist_errInfo (s : State) : s.recordNDist.errInfo = s.errInfo := rfl
@[simp] theorem State.recordNDist_total (s : State) : s.recordNDist.total = s.total := rfl
@[simp] theorem State.recordNDist_ndist (s : State) : s.recordNDist.ndist = s.nnodes := rfl
@[simp] theorem State.recordNDist_nnodes (s : State) : s.recordNDist.nnodes = s.nnodes := rfl
@[simp] theorem State.recordNDist_rootValid (s : State) : s.recordNDist.rootValid = s.rootValid := rfl
@[simp] theorem State.recordNDist_rootIdx (s : State) : s.recordNDist.rootIdx = s.rootIdx := rfl
@[simp] theorem State.recordNDist_emitted (s : State) : s.recordNDist.emitted = s.emitted := rfl
@[simp] theorem State.recordNDist_arg0 (s : State) : s.recordNDist.arg0 = s.arg0 := rfl
@[simp] theorem State.recordNDist_arg1 (s : State) : s.recordNDist.arg1 = s.arg1 := rfl
@[simp] theorem State.recordNDist_res0 (s : State) : s.recordNDist.res0 = s.res0 := rfl
@[simp] theorem State.recordNDist_res1 (s : State) : s.recordNDist.res1 = s.res1 := rfl
@[simp] theorem State.recordNDist_sel (s : State) : s.recordNDist.sel = s.sel := rfl
@[simp] theorem State.recordNDist_freq (s : State) : s.recordNDist.freq = s.freq := rfl
@[simp] theorem State.recordNDist_pq (s : State) : s.recordNDist.pq = s.pq := rfl
@[simp] theorem State.recordNDist_node (s : State) : s.recordNDist.node = s.node := rfl
@[simp] theorem State.recordNDist_code (s : State) : s.recordNDist.code = s.code := rfl
@[simp] theorem State.recordNDist_src (s : State) : s.recordNDist.src = s.src := rfl
@[simp] theorem State.recordNDist_snk (s : State) : s.recordNDist.snk = s.snk := rfl
@[simp] theorem State.recordNDist_obs (s : State) : s.recordNDist.obs = s.obs := rfl
@[simp] theorem State.recordNDist_observerAttached (s : State) : s.recordNDist.observerAttached = s.observerAttached := rfl
@[simp] theorem State.recordNDist_answers (s : State) : s.recordNDist.answers = s.answers := rfl
@[simp] theorem State.recordNDist_inputs (s : State) : s.recordNDist.inputs = s.inputs := rfl
@[simp] theorem State.recordNDist_seen (s : State) : s.recordNDist.seen = s.seen := rfl

/-! `setRoot` -/

@[simp] theorem State.setRoot_fault (t : NodeIdx) (s : State) : (s.setRoot t).fault = s.fault := rfl
@[simp] theorem State.setRoot_freqValid (t : NodeIdx) (s : State) : (s.setRoot t).freqValid = s.freqValid := rfl
@[simp] theorem State.setRoot_treeDone (t : NodeIdx) (s : State) : (s.setRoot t).treeDone = s.treeDone := rfl
@[simp] theorem State.setRoot_codeValid (t : NodeIdx) (s : State) : (s.setRoot t).codeValid = s.codeValid := rfl
@[simp] theorem State.setRoot_err (t : NodeIdx) (s : State) : (s.setRoot t).err = s.err := rfl
@[simp] theorem State.setRoot_errInfo (t : NodeIdx) (s : State) : (s.setRoot t).errInfo = s.errInfo := rfl
@[simp] theorem State.setRoot_total (t : NodeIdx) (s : State) : (s.setRoot t).total = s.total := rfl
@[simp] theorem State.setRoot_ndist (t : NodeIdx) (s : State) : (s.setRoot t).ndist = s.ndist := rfl
@[simp] theorem State.setRoot_nnodes (t : NodeIdx) (s : State) : (s.setRoot t).nnodes = s.nnodes := rfl
@[simp] theorem State.setRoot_rootValid (t : NodeIdx) (s : State) : (s.setRoot t).rootValid = true := rfl
@[simp] theorem State.setRoot_rootIdx (t : NodeIdx) (s : State) : (s.setRoot t).rootIdx = t := rfl
@[simp] theorem State.setRoot_emitted (t : NodeIdx) (s : State) : (s.setRoot t).emitted = s.emitted := rfl
@[simp] theorem State.setRoot_arg0 (t : NodeIdx) (s : State) : (s.setRoot t).arg0 = s.arg0 := rfl
@[simp] theorem State.setRoot_arg1 (t : NodeIdx) (s : State) : (s.setRoot t).arg1 = s.arg1 := rfl
@[simp] theorem State.setRoot_res0 (t : NodeIdx) (s : State) : (s.setRoot t).res0 = s.res0 := rfl
@[simp] theorem State.setRoot_res1 (t : NodeIdx) (s : State) : (s.setRoot t).res1 = s.res1 := rfl
@[simp] theorem State.setRoot_sel (t : NodeIdx) (s : State) : (s.setRoot t).sel = s.sel := rfl
@[simp] theorem State.setRoot_freq (t : NodeIdx) (s : State) : (s.setRoot t).freq = s.freq := rfl
@[simp] theorem State.setRoot_pq (t : NodeIdx) (s : State) : (s.setRoot t).pq = s.pq := rfl
@[simp] theorem State.setRoot_node (t : NodeIdx) (s : State) : (s.setRoot t).node = s.node := rfl
@[simp] theorem State.setRoot_code (t : NodeIdx) (s : State) : (s.setRoot t).code = s.code := rfl
@[simp] theorem State.setRoot_src (t : NodeIdx) (s : State) : (s.setRoot t).src = s.src := rfl
@[simp] theorem State.setRoot_snk (t : NodeIdx) (s : State) : (s.setRoot t).snk = s.snk := rfl
@[simp] theorem State.setRoot_obs (t : NodeIdx) (s : State) : (s.setRoot t).obs = s.obs := rfl
@[simp] theorem State.setRoot_observerAttached (t : NodeIdx) (s : State) : (s.setRoot t).observerAttached = s.observerAttached := rfl
@[simp] theorem State.setRoot_answers (t : NodeIdx) (s : State) : (s.setRoot t).answers = s.answers := rfl
@[simp] theorem State.setRoot_inputs (t : NodeIdx) (s : State) : (s.setRoot t).inputs = s.inputs := rfl
@[simp] theorem State.setRoot_seen (t : NodeIdx) (s : State) : (s.setRoot t).seen = s.seen := rfl

/-! `bumpEmitted` -/

@[simp] theorem State.bumpEmitted_fault (s : State) : s.bumpEmitted.fault = s.fault := rfl
@[simp] theorem State.bumpEmitted_freqValid (s : State) : s.bumpEmitted.freqValid = s.freqValid := rfl
@[simp] theorem State.bumpEmitted_treeDone (s : State) : s.bumpEmitted.treeDone = s.treeDone := rfl
@[simp] theorem State.bumpEmitted_codeValid (s : State) : s.bumpEmitted.codeValid = s.codeValid := rfl
@[simp] theorem State.bumpEmitted_err (s : State) : s.bumpEmitted.err = s.err := rfl
@[simp] theorem State.bumpEmitted_errInfo (s : State) : s.bumpEmitted.errInfo = s.errInfo := rfl
@[simp] theorem State.bumpEmitted_total (s : State) : s.bumpEmitted.total = s.total := rfl
@[simp] theorem State.bumpEmitted_ndist (s : State) : s.bumpEmitted.ndist = s.ndist := rfl
@[simp] theorem State.bumpEmitted_nnodes (s : State) : s.bumpEmitted.nnodes = s.nnodes := rfl
@[simp] theorem State.bumpEmitted_rootValid (s : State) : s.bumpEmitted.rootValid = s.rootValid := rfl
@[simp] theorem State.bumpEmitted_rootIdx (s : State) : s.bumpEmitted.rootIdx = s.rootIdx := rfl
@[simp] theorem State.bumpEmitted_emitted (s : State) : s.bumpEmitted.emitted = s.emitted + 1 := rfl
@[simp] theorem State.bumpEmitted_arg0 (s : State) : s.bumpEmitted.arg0 = s.arg0 := rfl
@[simp] theorem State.bumpEmitted_arg1 (s : State) : s.bumpEmitted.arg1 = s.arg1 := rfl
@[simp] theorem State.bumpEmitted_res0 (s : State) : s.bumpEmitted.res0 = s.res0 := rfl
@[simp] theorem State.bumpEmitted_res1 (s : State) : s.bumpEmitted.res1 = s.res1 := rfl
@[simp] theorem State.bumpEmitted_sel (s : State) : s.bumpEmitted.sel = s.sel := rfl
@[simp] theorem State.bumpEmitted_freq (s : State) : s.bumpEmitted.freq = s.freq := rfl
@[simp] theorem State.bumpEmitted_pq (s : State) : s.bumpEmitted.pq = s.pq := rfl
@[simp] theorem State.bumpEmitted_node (s : State) : s.bumpEmitted.node = s.node := rfl
@[simp] theorem State.bumpEmitted_code (s : State) : s.bumpEmitted.code = s.code := rfl
@[simp] theorem State.bumpEmitted_src (s : State) : s.bumpEmitted.src = s.src := rfl
@[simp] theorem State.bumpEmitted_snk (s : State) : s.bumpEmitted.snk = s.snk := rfl
@[simp] theorem State.bumpEmitted_obs (s : State) : s.bumpEmitted.obs = s.obs := rfl
@[simp] theorem State.bumpEmitted_observerAttached (s : State) : s.bumpEmitted.observerAttached = s.observerAttached := rfl
@[simp] theorem State.bumpEmitted_answers (s : State) : s.bumpEmitted.answers = s.answers := rfl
@[simp] theorem State.bumpEmitted_inputs (s : State) : s.bumpEmitted.inputs = s.inputs := rfl
@[simp] theorem State.bumpEmitted_seen (s : State) : s.bumpEmitted.seen = s.seen := rfl

/-! `clearEmitted` -/

@[simp] theorem State.clearEmitted_fault (s : State) : s.clearEmitted.fault = s.fault := rfl
@[simp] theorem State.clearEmitted_freqValid (s : State) : s.clearEmitted.freqValid = s.freqValid := rfl
@[simp] theorem State.clearEmitted_treeDone (s : State) : s.clearEmitted.treeDone = s.treeDone := rfl
@[simp] theorem State.clearEmitted_codeValid (s : State) : s.clearEmitted.codeValid = s.codeValid := rfl
@[simp] theorem State.clearEmitted_err (s : State) : s.clearEmitted.err = s.err := rfl
@[simp] theorem State.clearEmitted_errInfo (s : State) : s.clearEmitted.errInfo = s.errInfo := rfl
@[simp] theorem State.clearEmitted_total (s : State) : s.clearEmitted.total = s.total := rfl
@[simp] theorem State.clearEmitted_ndist (s : State) : s.clearEmitted.ndist = s.ndist := rfl
@[simp] theorem State.clearEmitted_nnodes (s : State) : s.clearEmitted.nnodes = s.nnodes := rfl
@[simp] theorem State.clearEmitted_rootValid (s : State) : s.clearEmitted.rootValid = s.rootValid := rfl
@[simp] theorem State.clearEmitted_rootIdx (s : State) : s.clearEmitted.rootIdx = s.rootIdx := rfl
@[simp] theorem State.clearEmitted_emitted (s : State) : s.clearEmitted.emitted = 0 := rfl
@[simp] theorem State.clearEmitted_arg0 (s : State) : s.clearEmitted.arg0 = s.arg0 := rfl
@[simp] theorem State.clearEmitted_arg1 (s : State) : s.clearEmitted.arg1 = s.arg1 := rfl
@[simp] theorem State.clearEmitted_res0 (s : State) : s.clearEmitted.res0 = s.res0 := rfl
@[simp] theorem State.clearEmitted_res1 (s : State) : s.clearEmitted.res1 = s.res1 := rfl
@[simp] theorem State.clearEmitted_sel (s : State) : s.clearEmitted.sel = s.sel := rfl
@[simp] theorem State.clearEmitted_freq (s : State) : s.clearEmitted.freq = s.freq := rfl
@[simp] theorem State.clearEmitted_pq (s : State) : s.clearEmitted.pq = s.pq := rfl
@[simp] theorem State.clearEmitted_node (s : State) : s.clearEmitted.node = s.node := rfl
@[simp] theorem State.clearEmitted_code (s : State) : s.clearEmitted.code = s.code := rfl
@[simp] theorem State.clearEmitted_src (s : State) : s.clearEmitted.src = s.src := rfl
@[simp] theorem State.clearEmitted_snk (s : State) : s.clearEmitted.snk = s.snk := rfl
@[simp] theorem State.clearEmitted_obs (s : State) : s.clearEmitted.obs = s.obs := rfl
@[simp] theorem State.clearEmitted_observerAttached (s : State) : s.clearEmitted.observerAttached = s.observerAttached := rfl
@[simp] theorem State.clearEmitted_answers (s : State) : s.clearEmitted.answers = s.answers := rfl
@[simp] theorem State.clearEmitted_inputs (s : State) : s.clearEmitted.inputs = s.inputs := rfl
@[simp] theorem State.clearEmitted_seen (s : State) : s.clearEmitted.seen = s.seen := rfl

/-! `setTotal` -/

@[simp] theorem State.setTotal_fault (w : Word) (s : State) : (s.setTotal w).fault = s.fault := rfl
@[simp] theorem State.setTotal_freqValid (w : Word) (s : State) : (s.setTotal w).freqValid = s.freqValid := rfl
@[simp] theorem State.setTotal_treeDone (w : Word) (s : State) : (s.setTotal w).treeDone = s.treeDone := rfl
@[simp] theorem State.setTotal_codeValid (w : Word) (s : State) : (s.setTotal w).codeValid = s.codeValid := rfl
@[simp] theorem State.setTotal_err (w : Word) (s : State) : (s.setTotal w).err = s.err := rfl
@[simp] theorem State.setTotal_errInfo (w : Word) (s : State) : (s.setTotal w).errInfo = s.errInfo := rfl
@[simp] theorem State.setTotal_total (w : Word) (s : State) : (s.setTotal w).total = w := rfl
@[simp] theorem State.setTotal_ndist (w : Word) (s : State) : (s.setTotal w).ndist = s.ndist := rfl
@[simp] theorem State.setTotal_nnodes (w : Word) (s : State) : (s.setTotal w).nnodes = s.nnodes := rfl
@[simp] theorem State.setTotal_rootValid (w : Word) (s : State) : (s.setTotal w).rootValid = s.rootValid := rfl
@[simp] theorem State.setTotal_rootIdx (w : Word) (s : State) : (s.setTotal w).rootIdx = s.rootIdx := rfl
@[simp] theorem State.setTotal_emitted (w : Word) (s : State) : (s.setTotal w).emitted = s.emitted := rfl
@[simp] theorem State.setTotal_arg0 (w : Word) (s : State) : (s.setTotal w).arg0 = s.arg0 := rfl
@[simp] theorem State.setTotal_arg1 (w : Word) (s : State) : (s.setTotal w).arg1 = s.arg1 := rfl
@[simp] theorem State.setTotal_res0 (w : Word) (s : State) : (s.setTotal w).res0 = s.res0 := rfl
@[simp] theorem State.setTotal_res1 (w : Word) (s : State) : (s.setTotal w).res1 = s.res1 := rfl
@[simp] theorem State.setTotal_sel (w : Word) (s : State) : (s.setTotal w).sel = s.sel := rfl
@[simp] theorem State.setTotal_freq (w : Word) (s : State) : (s.setTotal w).freq = s.freq := rfl
@[simp] theorem State.setTotal_pq (w : Word) (s : State) : (s.setTotal w).pq = s.pq := rfl
@[simp] theorem State.setTotal_node (w : Word) (s : State) : (s.setTotal w).node = s.node := rfl
@[simp] theorem State.setTotal_code (w : Word) (s : State) : (s.setTotal w).code = s.code := rfl
@[simp] theorem State.setTotal_src (w : Word) (s : State) : (s.setTotal w).src = s.src := rfl
@[simp] theorem State.setTotal_snk (w : Word) (s : State) : (s.setTotal w).snk = s.snk := rfl
@[simp] theorem State.setTotal_obs (w : Word) (s : State) : (s.setTotal w).obs = s.obs := rfl
@[simp] theorem State.setTotal_observerAttached (w : Word) (s : State) : (s.setTotal w).observerAttached = s.observerAttached := rfl
@[simp] theorem State.setTotal_answers (w : Word) (s : State) : (s.setTotal w).answers = s.answers := rfl
@[simp] theorem State.setTotal_inputs (w : Word) (s : State) : (s.setTotal w).inputs = s.inputs := rfl
@[simp] theorem State.setTotal_seen (w : Word) (s : State) : (s.setTotal w).seen = s.seen := rfl

end Sys2Proof.Machine
end

