-- ==== Sys2Proof/Laws/Result.lean ====
section
/-! SUPPORT. Pieces of commands: how they follow one another, and the two ways to say what a piece comes to: `Result.All P` (every
state it can leave has `P`) and `Result.Ends D E` (it comes to an end, and then it has `D` or `E`). -/

namespace Sys2Proof.Machine

open Sys2Proof

@[simp] theorem Result.andThen_done {α β : Type} (a : α) (s : State) (k : α → State → Result β) :
    (Result.done a s).andThen k = k a s := rfl

@[simp] theorem Result.andThen_ended {α β : Type} (s : State) (k : α → State → Result β) :
    (Result.ended s : Result α).andThen k = .ended s := rfl

@[simp] theorem Result.andThen_stuck {α β : Type} (f : Fault) (k : α → State → Result β) :
    (Result.stuck f : Result α).andThen k = .stuck f := rfl

theorem Result.andThen_assoc {α β γ : Type} (r : Result α) (k : α → State → Result β) (l : β → State → Result γ) :
    (r.andThen k).andThen l = r.andThen fun a s => (k a s).andThen l := by
  cases r <;> rfl

@[simp] theorem Result.outcome_done (s : State) : (Result.done () s).outcome = .next s := rfl

@[simp] theorem Result.outcome_ended (s : State) : (Result.ended s : Result Unit).outcome = .next s := rfl

@[simp] theorem Result.outcome_stuck (f : Fault) : (Result.stuck f : Result Unit).outcome = .fault f := rfl

@[simp] theorem raise_eq {α : Type} (e : Error) (info : Word) (s : State) :
    (raise e info s : Result α) = .ended (s.enterFault e info) := rfl

@[simp] theorem require_true (e : Error) (info : Word) (s : State) : require true e info s = .done () s := rfl

@[simp] theorem require_false (e : Error) (info : Word) (s : State) :
    require false e info s = .ended (s.enterFault e info) := rfl

/-- What `Result.All` says of each outcome. -/
def Result.allStates {α : Type} (P : State → Prop) : Result α → Prop
  | .done _ s => P s
  | .ended s => P s
  | .stuck _ => True

/-- Every state the piece can leave has `P`. A structure, so that no elaborator unfolds the piece to look at it. -/
structure Result.All {α : Type} (P : State → Prop) (r : Result α) : Prop where
  out : r.allStates P

@[simp] theorem Result.all_done {α : Type} (P : State → Prop) (a : α) (s : State) :
    (Result.done a s).All P ↔ P s := ⟨fun h => h.out, fun h => ⟨h⟩⟩

@[simp] theorem Result.all_ended {α : Type} (P : State → Prop) (s : State) :
    (Result.ended s : Result α).All P ↔ P s := ⟨fun h => h.out, fun h => ⟨h⟩⟩

@[simp] theorem Result.all_stuck {α : Type} (P : State → Prop) (f : Fault) : (Result.stuck f : Result α).All P := ⟨trivial⟩

theorem Result.All.andThen {α β : Type} {P Q : State → Prop} {r : Result α} {k : α → State → Result β}
    (hr : r.All Q) (hQ : ∀ s, Q s → P s) (hk : ∀ a s, Q s → (k a s).All P) : (r.andThen k).All P := by
  cases r with
  | done a s => exact hk a s hr.out
  | ended s => exact ⟨hQ s hr.out⟩
  | stuck f => exact ⟨trivial⟩

/-- A property that every part keeps is kept by the whole. -/
theorem Result.All.then {α β : Type} {P : State → Prop} {r : Result α} {k : α → State → Result β}
    (hr : r.All P) (hk : ∀ a s, P s → (k a s).All P) : (r.andThen k).All P :=
  hr.andThen (fun _ h => h) hk

theorem Result.All.mono {α : Type} {P Q : State → Prop} {r : Result α} (hr : r.All P) (h : ∀ s, P s → Q s) :
    r.All Q := by
  cases r with
  | done a s => exact ⟨h s hr.out⟩
  | ended s => exact ⟨h s hr.out⟩
  | stuck f => exact ⟨trivial⟩

/-- What every state left by a body has, the next state has. -/
theorem Result.All.next {P : State → Prop} {r : Result Unit} (hr : r.All P) {t : State} (h : r.outcome = .next t) :
    P t := by
  cases r with
  | done a s => cases h; exact hr.out
  | ended s => cases h; exact hr.out
  | stuck f => cases h

/-- What `Result.Ends` says of each outcome. -/
def Result.endStates {α : Type} (D : α → State → Prop) (E : State → Prop) : Result α → Prop
  | .done a s => D a s
  | .ended s => E s
  | .stuck _ => False

/-- The piece comes to an end: with a value (and then `D`) or by ending the command (and then `E`). -/
structure Result.Ends {α : Type} (D : α → State → Prop) (E : State → Prop) (r : Result α) : Prop where
  out : r.endStates D E

@[simp] theorem Result.ends_done {α : Type} (D : α → State → Prop) (E : State → Prop) (a : α) (s : State) :
    (Result.done a s).Ends D E ↔ D a s := ⟨fun h => h.out, fun h => ⟨h⟩⟩

@[simp] theorem Result.ends_ended {α : Type} (D : α → State → Prop) (E : State → Prop) (s : State) :
    (Result.ended s : Result α).Ends D E ↔ E s := ⟨fun h => h.out, fun h => ⟨h⟩⟩

@[simp] theorem Result.ends_stuck {α : Type} (D : α → State → Prop) (E : State → Prop) (f : Fault) :
    ¬ (Result.stuck f : Result α).Ends D E := fun h => h.out

theorem Result.Ends.andThen {α β : Type} {D : α → State → Prop} {D' : β → State → Prop} {E : State → Prop}
    {r : Result α} {k : α → State → Result β} (hr : r.Ends D E) (hk : ∀ a s, D a s → (k a s).Ends D' E) :
    (r.andThen k).Ends D' E := by
  cases r with
  | done a s => exact hk a s hr.out
  | ended s => exact ⟨hr.out⟩
  | stuck f => exact hr.out.elim

theorem Result.Ends.mono {α : Type} {D D' : α → State → Prop} {E E' : State → Prop} {r : Result α}
    (hr : r.Ends D E) (hD : ∀ a s, D a s → D' a s) (hE : ∀ s, E s → E' s) : r.Ends D' E' := by
  cases r with
  | done a s => exact ⟨hD a s hr.out⟩
  | ended s => exact ⟨hE s hr.out⟩
  | stuck f => exact hr.out.elim

/-- A body that comes to an end gives a next state. -/
theorem Result.Ends.next {D : Unit → State → Prop} {E : State → Prop} {r : Result Unit} (hr : r.Ends D E) :
    ∃ t, r.outcome = .next t ∧ (D () t ∨ E t) := by
  cases r with
  | done a s => exact ⟨s, rfl, .inl hr.out⟩
  | ended s => exact ⟨s, rfl, .inr hr.out⟩
  | stuck f => exact hr.out.elim

end Sys2Proof.Machine
end

