-- ==== Sys2Proof/Laws/Actions.lean ====
section
/-! SUPPORT. A command's body as the actions it takes one after another: a request to the source, a request to the sink or a
notification, each answered by the environment (20_memory.md R38). It gives, for every command at once, what a failing port, a
notification and a hardware reset do at any action (60_exceptions.md R126, R140, 70_reset_and_hazards.md R150). -/

namespace Sys2Proof.Machine

open Sys2Proof

/-- The state with this observer, what OBS holds for it, and these answers. -/
def State.env (s : State) (ob : Bool → List Nat) (o : Bool) (as : List Answer) : State :=
  { s with observerAttached := o, obs := ob o, answers := as }

theorem State.env_self (s : State) : s.env (fun _ => s.obs) s.observerAttached s.answers = s := rfl

theorem State.env_probe (s : State) (as : List Answer) : s.env (fun _ => s.obs) true as = s.probe as := rfl

/-- One request to a port: served, and it goes on; failed, with the port's error; or cut off by a hardware reset. -/
def portRequest {α : Type} (e : Error) (s : State) (ob : Bool → List Nat) (next : Bool → List Answer → Result α) (o : Bool)
    (as : List Answer) : Result α :=
  match as.headD .served with
  | .served => next o as.tail
  | .failed c => .ended ((s.env ob o as.tail).enterFault e c)
  | .reset => .ended (s.env ob o as.tail).resetBlock

/-- One notification: it cannot fail. -/
def notification {α : Type} (s : State) (ob : Bool → List Nat) (next : Bool → List Answer → Result α) (o : Bool)
    (as : List Answer) : Result α :=
  match as.headD .served with
  | .served => next o as.tail
  | .failed _ => next o as.tail
  | .reset => .ended (s.env ob o as.tail).resetBlock

/-- OBS with one more code, if the observer is attached. -/
def notedObs (ob : Bool → List Nat) (code : Nat) (o : Bool) : List Nat := if o then ob o ++ [code] else ob o

/-- A piece of a command, as a function of the observer and the answers, that starts with this FAULT flag, sink and OBS. -/
inductive Acts {α : Type} (fl : Bool) : List Byte → (Bool → List Nat) → (Bool → List Answer → Result α) → Prop where
  | done (a : α) (s : State) (ob : Bool → List Nat) (h : s.fault = fl) :
      Acts fl s.snk ob fun o as => Result.done a (s.env ob o as)
  | raised (e : Error) (i : Word) (s : State) (ob : Bool → List Nat) (h : e ≠ .sourceIO ∧ e ≠ .sinkIO) :
      Acts fl s.snk ob fun o as => Result.ended ((s.env ob o as).enterFault e i)
  | stuck (f : Fault) (snk : List Byte) (ob : Bool → List Nat) : Acts fl snk ob fun _ _ => Result.stuck f
  | source (s : State) (ob : Bool → List Nat) (next : Bool → List Answer → Result α) (h : Acts fl s.snk ob next) :
      Acts fl s.snk ob (portRequest .sourceIO s ob next)
  | sink (s : State) (ob : Bool → List Nat) (b : Byte) (next : Bool → List Answer → Result α) (h : Acts fl (s.snk ++ [b]) ob next) :
      Acts fl s.snk ob (portRequest .sinkIO s ob next)
  | note (s : State) (ob : Bool → List Nat) (code : Nat) (next : Bool → List Answer → Result α)
      (h : Acts fl s.snk (notedObs ob code) next) : Acts fl s.snk ob (notification s ob next)

/-- A piece that is the same function of the observer and the answers. -/
theorem Acts.congr {α : Type} {fl : Bool} {snk : List Byte} {ob : Bool → List Nat} {g g' : Bool → List Answer → Result α}
    (h : Acts fl snk ob g) (e : ∀ o as, g' o as = g o as) : Acts fl snk ob g' := by
  have : g' = g := funext fun o => funext fun as => e o as
  exact this ▸ h

/-- The actions of one piece, then those of the next. -/
theorem Acts.andThen {α β : Type} {fl : Bool} {snk : List Byte} {ob : Bool → List Nat} {g : Bool → List Answer → Result α}
    {k : α → State → Result β} (h : Acts fl snk ob g)
    (hk : ∀ (a : α) (s : State) (ob' : Bool → List Nat), s.fault = fl → Acts fl s.snk ob' fun o as => k a (s.env ob' o as)) :
    Acts fl snk ob fun o as => (g o as).andThen k := by
  induction h with
  | done a s ob h => exact hk a s ob h
  | raised e i s ob h => exact .raised e i s ob h
  | stuck f snk ob => exact .stuck f snk ob
  | source s ob next _ ih =>
    refine (Acts.source s ob _ ih).congr fun o as => ?_
    unfold portRequest
    cases as.headD .served <;> rfl
  | sink s ob b next _ ih =>
    refine (Acts.sink s ob b _ ih).congr fun o as => ?_
    unfold portRequest
    cases as.headD .served <;> rfl
  | note s ob code next _ ih =>
    refine (Acts.note s ob code _ ih).congr fun o as => ?_
    unfold notification
    cases as.headD .served <;> rfl

/-- A piece of a command acts so from every state. -/
def Acting {α : Type} (f : State → Result α) : Prop :=
  ∀ (fl : Bool) (s : State) (ob : Bool → List Nat), s.fault = fl → Acts fl s.snk ob fun o as => f (s.env ob o as)

theorem Acting.andThen {α β : Type} {f : State → Result α} {k : α → State → Result β} (h : Acting f) (hk : ∀ a, Acting (k a)) :
    Acting fun s => (f s).andThen k :=
  fun fl s ob hs => (h fl s ob hs).andThen fun a t ob' ht => hk a fl t ob' ht

theorem acting_done {α : Type} (a : α) : Acting fun s => .done a s := fun _ s ob h => .done a s ob h

theorem acting_stuck {α : Type} (f : Fault) : Acting fun _ => (.stuck f : Result α) := fun _ s ob _ => .stuck f s.snk ob

/-- A piece chosen by a part of the state that is neither the observer's nor the answers'. -/
theorem acting_of {α β : Type} (v : State → β) (hv : ∀ s ob o as, v (s.env ob o as) = v s := by intros; rfl) {f : β → State → Result α}
    (h : ∀ b, Acting (f b)) : Acting fun s => f (v s) s := by
  intro fl s ob hs
  exact (h (v s) fl s ob hs).congr fun o as => congrArg (fun b => f b (s.env ob o as)) (hv s ob o as)

/-- First an update of the block's state that leaves FAULT and the sink, then a piece. -/
theorem Acting.after {α : Type} {f : State → Result α} (h : Acting f) (g : State → State)
    (hg : ∀ s ob o as, g (s.env ob o as) = (g s).env ob o as := by intros; rfl) (hs : ∀ s, (g s).snk = s.snk := by intros; rfl)
    (hfl : ∀ s, (g s).fault = s.fault := by intros; rfl) : Acting fun s => f (g s) := by
  intro fl s ob hf
  have := h fl (g s) ob ((hfl s).trans hf)
  rw [hs] at this
  exact this.congr fun o as => congrArg f (hg s ob o as)

/-- The last update of a piece. -/
theorem acting_update (g : State → State) (hg : ∀ s ob o as, g (s.env ob o as) = (g s).env ob o as := by intros; rfl)
    (hs : ∀ s, (g s).snk = s.snk := by intros; rfl) (hfl : ∀ s, (g s).fault = s.fault := by intros; rfl) :
    Acting fun s => .done () (g s) :=
  (acting_done ()).after g hg hs hfl

theorem acting_raise {α : Type} (e : Error) (i : Word) (h : e ≠ .sourceIO ∧ e ≠ .sinkIO) :
    Acting fun s => (raise e i s : Result α) := fun _ s ob _ => .raised e i s ob h

theorem acting_require (c : Bool) (e : Error) (i : Word) (h : e ≠ .sourceIO ∧ e ≠ .sinkIO) : Acting (require c e i) := by
  cases c
  · exact acting_raise e i h
  · exact acting_done ()

theorem acting_requireFlags (v : State → Bool) (hv : ∀ s ob o as, v (s.env ob o as) = v s := by intros; rfl) (o : BitVec 8) :
    Acting fun s => requireFlags (v s) o s :=
  acting_of v hv fun c => acting_require c _ _ (by decide)

/-! ### The ports -/

theorem request_env {α : Type} (onFail : Word → State → Result α) (serve : State → Result α) (s : State) (ob : Bool → List Nat)
    (o : Bool) (as : List Answer) : request onFail serve (s.env ob o as) =
      match as.headD .served with
      | .served => serve (s.env ob o as.tail)
      | .failed e => onFail e (s.env ob o as.tail)
      | .reset => .ended (s.env ob o as.tail).resetBlock := rfl

theorem acting_notify (p : Phase) : Acting (notify p) := by
  intro fl s ob hs
  refine (Acts.note s ob p.code _ (.done () s _ hs)).congr fun o as => ?_
  unfold notification notify
  rw [request_env]
  cases as.headD .served <;> rfl

theorem acting_srcRewind : Acting srcRewind := by
  intro fl s ob hs
  refine (Acts.source s ob _ (.done () (s.setPos 0) ob hs)).congr fun o as => ?_
  unfold portRequest srcRewind
  rw [request_env]
  cases as.headD .served <;> rfl

theorem acting_srcRead : Acting srcRead := by
  intro fl s ob hs
  cases hg : s.src.data[s.src.pos]? with
  | none =>
    refine (Acts.source s ob _ (.done none s ob hs)).congr fun o as => ?_
    unfold portRequest srcRead
    rw [request_env]
    simp only [State.env, hg]
    cases as.headD .served <;> rfl
  | some b =>
    refine (Acts.source s ob _ (.done (some b) (s.setPos (s.src.pos + 1)) ob hs)).congr fun o as => ?_
    unfold portRequest srcRead
    rw [request_env]
    simp only [State.env, hg]
    cases as.headD .served <;> rfl

theorem acting_snkWrite (b : Byte) : Acting (snkWrite b) := by
  intro fl s ob hs
  refine (Acts.sink s ob b _ (.done () (s.appendByte b) ob hs)).congr fun o as => ?_
  unfold portRequest snkWrite
  rw [request_env]
  cases as.headD .served <;> rfl

theorem acting_srcReadN (n : Nat) : Acting (srcReadN n) := by
  induction n with
  | zero => exact acting_done _
  | succ n ih =>
    refine acting_srcRead.andThen fun r => ?_
    cases r with
    | none => exact acting_done _
    | some b => exact ih.andThen fun rest => acting_done _

theorem acting_snkWriteAll (bs : List Byte) : Acting (snkWriteAll bs) := by
  induction bs with
  | nil => exact acting_done _
  | cons b bs ih => exact (acting_snkWrite b).andThen fun _ => ih

/-! ### The bodies -/

theorem acting_countLoop (fuel : Nat) : Acting (countLoop fuel) := by
  induction fuel with
  | zero => exact acting_stuck _
  | succ fuel ih =>
    refine acting_srcRead.andThen fun r => ?_
    cases r with
    | none => exact acting_done _
    | some b =>
      exact Acting.andThen (acting_of (fun s => decide (s.total.toNat < Config.maxLen)) (by intros; rfl)
        fun c => acting_require c _ _ (by decide)) fun _ =>
          ih.after (State.countByte b)

theorem acting_countBody : Acting countBody :=
  ((acting_notify .counting).after State.clearEngine).andThen fun _ =>
  acting_srcRewind.andThen fun _ =>
  (acting_of (fun s => s.remaining + 1) (by intros; rfl) acting_countLoop).andThen fun _ =>
  acting_update State.setFreqValid

theorem acting_pqInsert (it : Item) : Acting (pqInsert it) := by
  intro fl s ob hs
  by_cases h : s.pq.length < Config.pqCap
  · refine (Acts.done () (s.setPq (insertItem it s.pq)) ob hs).congr fun o as => ?_
    exact if_pos h
  · refine (Acts.raised .queueFull 0 s ob (by decide)).congr fun o as => ?_
    exact if_neg h

theorem acting_pqPopMin : Acting pqPopMin := by
  intro fl s ob hs
  cases h : s.pq with
  | nil =>
    refine (Acts.raised .emptyQueue 0 s ob (by decide)).congr fun o as => ?_
    simp only [pqPopMin, State.env, h]
    rfl
  | cons m q =>
    refine (Acts.done m (s.setPq q) ob hs).congr fun o as => ?_
    simp only [pqPopMin, State.env, h]
    rfl

theorem acting_pqPeekMin : Acting pqPeekMin := by
  intro fl s ob hs
  cases h : s.pq with
  | nil =>
    refine (Acts.raised .emptyQueue 0 s ob (by decide)).congr fun o as => ?_
    simp only [pqPeekMin, State.env, h]
    rfl
  | cons m q =>
    refine (Acts.done m s ob hs).congr fun o as => ?_
    simp only [pqPeekMin, State.env, h]

theorem acting_addNode (n : Node) : Acting (addNode n) := by
  refine Acting.andThen ?_ fun _ => acting_update State.bumpNNodes
  exact acting_of (fun s => s.nnodes) (by intros; rfl) (f := fun i s => pqInsert ⟨n.weight, i⟩ (s.writeNode n)) fun i =>
    (acting_pqInsert ⟨n.weight, i⟩).after (State.writeNode n)

theorem acting_seedLoop (bs : List Byte) : Acting (seedLoop bs) := by
  induction bs with
  | nil => exact acting_done _
  | cons b bs ih =>
    refine acting_of (fun s => s.freqAt b) (by intros; rfl) (f := fun w s => if 0 < w.toNat then
      (addNode (.leaf b w) s).andThen fun _ s => seedLoop bs s else seedLoop bs s) fun w => ?_
    by_cases h : 0 < w.toNat
    · simp only [h, if_true]
      exact (acting_addNode (.leaf b w)).andThen fun _ => ih
    · simp only [h, if_false]
      exact ih

theorem acting_mergeLoop (fuel : Nat) : Acting (mergeLoop fuel) := by
  induction fuel with
  | zero => exact acting_stuck _
  | succ fuel ih =>
    refine acting_of (fun s => pqSize s) (by intros; rfl) (f := fun n s => if n > 1 then
      (pqPopMin s).andThen fun first s =>
      (pqPopMin s).andThen fun second s =>
      if first.weight.toNat + second.weight.toNat ≤ Config.maxLen then
        (addNode (.internal (first.weight + second.weight) second.tag first.tag) s).andThen fun _ s =>
        mergeLoop fuel s
      else .stuck .weightOverflow
    else .done () s) fun n => ?_
    by_cases h : n > 1
    · simp only [h, if_true]
      refine acting_pqPopMin.andThen fun first => acting_pqPopMin.andThen fun second => ?_
      by_cases hw : first.weight.toNat + second.weight.toNat ≤ Config.maxLen
      · simp only [hw, if_true]
        exact (acting_addNode _).andThen fun _ => ih
      · simp only [hw, if_false]
        exact acting_stuck _
    · simp only [h, if_false]
      exact acting_done _

theorem acting_takeRoot : Acting takeRoot := by
  refine acting_of (fun s => pqSize s) (by intros; rfl) (f := fun n s => if n = 1 then
    (pqPopMin s).andThen fun it s => .done () (s.setRoot it.tag) else .done () s) fun n => ?_
  by_cases h : n = 1
  · simp only [h, if_true]
    exact acting_pqPopMin.andThen fun it => acting_update (State.setRoot it.tag)
  · simp only [h, if_false]
    exact acting_done _

theorem acting_buildBody : Acting buildBody :=
  (acting_requireFlags (fun s => s.freqValid) (by intros; rfl) _).andThen fun _ =>
  (acting_notify .buildingTree).andThen fun _ =>
  ((acting_seedLoop symbols).after State.startBuild).andThen fun _ =>
  ((acting_mergeLoop Config.pqCap).after State.recordNDist).andThen fun _ =>
  acting_takeRoot.andThen fun _ =>
  acting_update State.setTreeDone

theorem acting_walk (fuel : Nat) : ∀ i acc, Acting (walk fuel i acc) := by
  induction fuel with
  | zero => exact fun _ _ => acting_stuck _
  | succ fuel ih =>
    intro i acc
    refine acting_of (fun s => s.nodeAt i) (by intros; rfl) (f := fun n s => match n with
      | .leaf b _ => .done () (s.setCode b acc)
      | .internal _ l r => (walk fuel l (acc ++ [false]) s).andThen fun _ s => walk fuel r (acc ++ [true]) s) fun n => ?_
    cases n with
    | leaf b w => exact acting_update (State.setCode b acc)
    | internal w l r => exact (ih l _).andThen fun _ => ih r _

theorem acting_codesFromRoot : Acting codesFromRoot := by
  refine acting_of (fun s => (s.rootValid, s.rootIdx)) (by intros; rfl) (f := fun v s => if v.1 then
    match s.nodeAt v.2 with
    | .leaf b _ => .done () (s.setCode b [false])
    | .internal _ _ _ => walk Config.nodeCap v.2 [] s else .done () s) fun v => ?_
  obtain ⟨v, i⟩ := v
  cases v
  · exact acting_done _
  · refine acting_of (fun s => s.nodeAt i) (by intros; rfl) (f := fun n s => match n with
      | .leaf b _ => .done () (s.setCode b [false])
      | .internal _ _ _ => walk Config.nodeCap i [] s) fun n => ?_
    cases n with
    | leaf b w => exact acting_update (State.setCode b [false])
    | internal w l r => exact acting_walk _ _ _

theorem acting_gencodeBody : Acting gencodeBody :=
  (acting_requireFlags (fun s => s.treeDone) (by intros; rfl) _).andThen fun _ =>
  (acting_notify .derivingCodes).andThen fun _ =>
  (acting_codesFromRoot.after fun s => s.clearCodeValid.clearCodes).andThen fun _ =>
  acting_update State.setCodeValid

theorem acting_pushDigits (ds : List Digit) : ∀ buf, Acting (pushDigits ds buf) := by
  induction ds with
  | nil => exact fun _ => acting_done _
  | cons d ds ih =>
    intro buf
    by_cases h : (buf ++ [d]).length = 8
    · intro fl s ob hs
      exact (((acting_snkWrite _).andThen fun _ => ih []) fl s ob hs).congr fun o as => if_pos h
    · intro fl s ob hs
      exact (ih _ fl s ob hs).congr fun o as => if_neg h

theorem acting_encodeLoop (fuel : Nat) : ∀ buf n, Acting (encodeLoop fuel buf n) := by
  induction fuel with
  | zero => exact fun _ _ => acting_stuck _
  | succ fuel ih =>
    intro buf n
    refine acting_srcRead.andThen fun r => ?_
    cases r with
    | none => exact acting_done _
    | some b =>
      refine Acting.andThen (acting_of (fun s => decide (n < s.total.toNat)) (by intros; rfl)
        fun c => acting_require c _ _ (by decide)) fun _ => ?_
      refine Acting.andThen (acting_of (fun s => decide (0 < (s.codeAt b).length)) (by intros; rfl)
        fun c => acting_require c _ _ (by decide)) fun _ => ?_
      exact Acting.andThen (acting_of (fun s => s.codeAt b) (by intros; rfl) fun ds => acting_pushDigits ds buf)
        fun buf => ih buf _

theorem acting_flushBuf (buf : List Digit) : Acting (flushBuf buf) := by
  unfold flushBuf
  by_cases h : 0 < buf.length
  · simp only [h, if_true]
    exact acting_snkWrite _
  · simp only [h, if_false]
    exact acting_done _

theorem acting_encodeBody : Acting encodeBody :=
  (acting_requireFlags (fun s => s.freqValid && s.codeValid) (by intros; rfl) _).andThen fun _ =>
  (acting_notify .writingPayload).andThen fun _ =>
  acting_srcRewind.andThen fun _ =>
  (acting_of (fun s => s.remaining + 1) (by intros; rfl) fun fuel => acting_encodeLoop fuel [] 0).andThen fun r =>
  (acting_of (fun s => decide (r.2 = s.total.toNat)) (by intros; rfl) fun c => acting_require c _ _ (by decide)).andThen fun _ =>
  acting_flushBuf r.1

theorem acting_emit (b : Byte) : Acting (emit b) :=
  (acting_snkWrite b).andThen fun _ => acting_update State.bumpEmitted

theorem acting_decodeBit (root : NodeIdx) (bit : Digit) (cur : NodeIdx) : Acting (decodeBit root bit cur) := by
  refine acting_of (fun s => s.nodeAt root) (by intros; rfl) (f := fun n s => match n with
    | .leaf b _ => (require (!bit) .treeShape 0 s).andThen fun _ s => (emit b s).andThen fun _ s => .done cur s
    | .internal _ _ _ => match s.nodeAt ((s.nodeAt cur).child bit) with
      | .leaf b _ => (emit b s).andThen fun _ s => .done root s
      | .internal _ _ _ => .done ((s.nodeAt cur).child bit) s) fun n => ?_
  cases n with
  | leaf b w =>
    exact (acting_require _ _ _ (by decide)).andThen fun _ => (acting_emit b).andThen fun _ => acting_done _
  | internal w l r =>
    refine acting_of (fun s => (s.nodeAt cur).child bit) (by intros; rfl) (f := fun c s => match s.nodeAt c with
      | .leaf b _ => (emit b s).andThen fun _ s => .done root s
      | .internal _ _ _ => .done c s) fun c => ?_
    refine acting_of (fun s => s.nodeAt c) (by intros; rfl) (f := fun n s => match n with
      | .leaf b _ => (emit b s).andThen fun _ s => .done root s
      | .internal _ _ _ => .done c s) fun n => ?_
    cases n with
    | leaf b w => exact (acting_emit b).andThen fun _ => acting_done _
    | internal w l r => exact acting_done _

theorem acting_decodeBits (root : NodeIdx) (bits : List Digit) : ∀ cur, Acting (decodeBits root bits cur) := by
  induction bits with
  | nil => exact fun _ => acting_done _
  | cons bit bits ih =>
    intro cur
    refine (acting_decodeBit root bit cur).andThen fun cur => ?_
    intro fl s ob hs
    by_cases h : s.emitted = s.total
    · exact (Acts.done cur s ob hs).congr fun o as => if_pos h
    · exact (ih cur fl s ob hs).congr fun o as => if_neg h

theorem acting_decodeLoop (root : NodeIdx) (fuel : Nat) : ∀ cur, Acting (decodeLoop root fuel cur) := by
  induction fuel with
  | zero => exact fun _ => acting_stuck _
  | succ fuel ih =>
    intro cur
    refine acting_of (fun s => (s.emitted.toNat, s.total.toNat)) (by intros; rfl) (f := fun v s => if v.1 < v.2 then
      (srcRead s).andThen fun r s =>
      match r with
      | none => raise .malformedContainer 4 s
      | some b => (decodeBits root (bitsMsb b) cur s).andThen fun cur s => decodeLoop root fuel cur s
    else .done () s) fun v => ?_
    by_cases h : v.1 < v.2
    · simp only [h, if_true]
      refine acting_srcRead.andThen fun r => ?_
      cases r with
      | none => exact acting_raise _ _ (by decide)
      | some b => exact (acting_decodeBits root _ cur).andThen fun cur => ih cur
    · simp only [h, if_false]
      exact acting_done _

theorem acting_decodeBody : Acting decodeBody := by
  refine (acting_requireFlags (fun s => s.freqValid && s.treeDone) (by intros; rfl) _).andThen fun _ =>
    (acting_notify .readingPayload).andThen fun _ => ?_
  refine Acting.after (f := fun s => if 0 < s.total.toNat then decodeLoop s.rootIdx (s.remaining + 1) s.rootIdx s else .done () s)
    ?_ State.clearEmitted
  refine acting_of (fun s => (s.total.toNat, s.rootIdx, s.remaining)) (by intros; rfl) (f := fun v s => if 0 < v.1 then
    decodeLoop v.2.1 (v.2.2 + 1) v.2.1 s else .done () s) fun v => ?_
  by_cases h : 0 < v.1
  · simp only [h, if_true]
    exact acting_decodeLoop _ _ _
  · simp only [h, if_false]
    exact acting_done _

theorem acting_wrhdrBody : Acting wrhdrBody :=
  (acting_requireFlags (fun s => s.freqValid) (by intros; rfl) _).andThen fun _ =>
  (acting_notify .writingHeader).andThen fun _ =>
  acting_of headerBytes (by intros; rfl) acting_snkWriteAll

theorem acting_readField : Acting readField := by
  refine (acting_srcReadN 4).andThen fun r => ?_
  cases r with
  | none => exact acting_raise _ _ (by decide)
  | some bs => exact acting_done _

theorem acting_readCounts (bs : List Byte) : Acting (readCounts bs) := by
  induction bs with
  | nil => exact acting_done _
  | cons b bs ih =>
    exact acting_readField.andThen fun c => ih.after (State.setFreq b (le32 c))

theorem acting_rdhdrBody : Acting rdhdrBody :=
  ((acting_notify .readingHeader).after State.clearEngine).andThen fun _ =>
  acting_readField.andThen fun m =>
  (acting_require _ .malformedContainer 1 (by decide)).andThen fun _ =>
  acting_readField.andThen fun l =>
  ((acting_readCounts symbols).after (State.setTotal (le32 l))).andThen fun _ =>
  (acting_of (fun s => decide (s.freqSum = s.total.toNat)) (by intros; rfl) fun c => acting_require c .malformedContainer 3 (by decide)).andThen
    fun _ => acting_update State.setFreqValid

theorem acting_payloadBody : Acting payloadBody :=
  acting_buildBody.andThen fun _ => acting_gencodeBody.andThen fun _ => acting_encodeBody

theorem acting_compressBody : Acting compressBody := by
  refine acting_countBody.andThen fun _ => acting_wrhdrBody.andThen fun _ => ?_
  refine acting_of (fun s => s.total.toNat) (by intros; rfl) (f := fun n s => if 0 < n then payloadBody s else .done () s)
    fun n => ?_
  by_cases h : 0 < n
  · simp only [h, if_true]
    exact acting_payloadBody
  · simp only [h, if_false]
    exact acting_done _

theorem acting_decompressBody : Acting decompressBody :=
  acting_rdhdrBody.andThen fun _ => acting_buildBody.andThen fun _ => acting_decodeBody

/-- Every command but RESET acts so. -/
theorem exec_acting (i : Instr) (hi : i ≠ .reset) : ∃ f : State → Result Unit, Acting f ∧ ∀ s, exec i s = (f s).outcome := by
  cases i with
  | nop => exact ⟨_, acting_done (), fun _ => rfl⟩
  | reset => exact absurd rfl hi
  | pqInsert => exact ⟨_, acting_of State.insertOperand (by intros; rfl) acting_pqInsert, fun _ => rfl⟩
  | pqPopmin =>
    exact ⟨_, acting_pqPopMin.andThen fun it => acting_update (State.setResult it), fun _ => rfl⟩
  | pqPeekmin =>
    exact ⟨_, acting_pqPeekMin.andThen fun it => acting_update (State.setResult it), fun _ => rfl⟩
  | pqSize =>
    exact ⟨_, acting_update (fun s => s.setSize (Sys2Proof.Machine.pqSize s)), fun _ => rfl⟩
  | count => exact ⟨_, acting_countBody, fun _ => rfl⟩
  | build => exact ⟨_, acting_buildBody, fun _ => rfl⟩
  | gencode => exact ⟨_, acting_gencodeBody, fun _ => rfl⟩
  | encode => exact ⟨_, acting_encodeBody, fun _ => rfl⟩
  | decode => exact ⟨_, acting_decodeBody, fun _ => rfl⟩
  | wrhdr => exact ⟨_, acting_wrhdrBody, fun _ => rfl⟩
  | rdhdr => exact ⟨_, acting_rdhdrBody, fun _ => rfl⟩
  | compress => exact ⟨_, acting_compressBody, fun _ => rfl⟩
  | decompress => exact ⟨_, acting_decompressBody, fun _ => rfl⟩

/-! ### One action answered otherwise -/

/-- A hardware reset at the first action, if there is one, finds the sink and OBS as they were before it. -/
theorem Acts.first {fl : Bool} {snk : List Byte} {ob : Bool → List Nat} {g : Bool → List Answer → Result Unit}
    (h : Acts fl snk ob g) (o : Bool) (rest : List Answer) (t : State) (ht : (g o (.reset :: rest)).outcome = .next t) :
    t.snk = snk ∧ t.obs = ob o := by
  cases h <;> cases ht <;> exact ⟨rfl, rfl⟩

/-- What the run with another answer to one action comes to. The two other runs say which action it is: the run `a` is cut off
before it and the run `u` before the next one. -/
theorem Acts.otherwise {fl : Bool} {snk : List Byte} {ob : Bool → List Nat} {g : Bool → List Answer → Result Unit}
    (h : Acts fl snk ob g) (rest : List Answer) (a u : State) : ∀ as : List Answer,
    (g true (as ++ .reset :: rest)).outcome = .next a → a.answers = rest →
    (g true (as ++ .served :: .reset :: rest)).outcome = .next u →
    (u.obs = a.obs → ∀ o e, ∃ t, (g o (as ++ .failed e :: rest)).outcome = .next t ∧ t.fault = true ∧
      t.err = (if u.snk = a.snk then 5 else 6) ∧ t.errInfo = e ∧ t.src = a.src ∧ t.snk = a.snk ∧ t.answers = rest) ∧
    (u.obs ≠ a.obs → u.snk = a.snk ∧ ∀ o e, g o (as ++ .failed e :: rest) = g o (as ++ .served :: rest)) := by
  induction h with
  | done v s ob h =>
    intro as ha har _
    cases ha
    exact absurd (congrArg List.length har) (by simp [State.env]; omega)
  | raised e i s ob h =>
    intro as ha har _
    cases ha
    exact absurd (congrArg List.length har) (by simp [State.env, State.enterFault]; omega)
  | stuck f snk ob =>
    intro as ha
    cases ha
  | source s ob next h ih =>
    intro as ha har hu
    cases as with
    | nil =>
      cases ha
      obtain ⟨hsnk, hobs⟩ := h.first true rest u hu
      have hsnk : u.snk = (s.env ob true rest).resetBlock.snk := hsnk
      refine ⟨fun _ o e => ⟨_, rfl, rfl, (if_pos hsnk).symm, rfl, rfl, rfl, rfl⟩, fun hn => absurd hobs hn⟩
    | cons x as =>
      cases x with
      | served => exact ih as ha har hu
      | failed c =>
        cases ha
        exact absurd (congrArg List.length har) (by simp [State.env, State.enterFault]; omega)
      | reset =>
        cases ha
        exact absurd (congrArg List.length har) (by simp [State.env, State.resetBlock, State.clearEngine]; omega)
  | sink s ob b next h ih =>
    intro as ha har hu
    cases as with
    | nil =>
      cases ha
      obtain ⟨hsnk, hobs⟩ := h.first true rest u hu
      have hsnk : u.snk ≠ (s.env ob true rest).resetBlock.snk := fun h => by
        rw [hsnk] at h
        exact absurd (congrArg List.length h) (by simp [State.env, State.resetBlock, State.clearEngine])
      refine ⟨fun _ o e => ⟨_, rfl, rfl, (if_neg hsnk).symm, rfl, rfl, rfl, rfl⟩, fun hn => absurd hobs hn⟩
    | cons x as =>
      cases x with
      | served => exact ih as ha har hu
      | failed c =>
        cases ha
        exact absurd (congrArg List.length har) (by simp [State.env, State.enterFault]; omega)
      | reset =>
        cases ha
        exact absurd (congrArg List.length har) (by simp [State.env, State.resetBlock, State.clearEngine]; omega)
  | note s ob code next h ih =>
    intro as ha har hu
    cases as with
    | nil =>
      cases ha
      obtain ⟨hsnk, hobs⟩ := h.first true rest u hu
      refine ⟨fun h => ?_, fun _ => ⟨hsnk, fun o e => rfl⟩⟩
      rw [hobs] at h
      exact absurd (congrArg List.length h) (by simp [notedObs, State.env, State.resetBlock, State.clearEngine])
    | cons x as =>
      cases x with
      | served => exact ih as ha har hu
      | failed c => exact ih as ha har hu
      | reset =>
        cases ha
        exact absurd (congrArg List.length har) (by simp [State.env, State.resetBlock, State.clearEngine]; omega)

/-- A hardware reset cuts the command off and leaves the block in its reset state, unless the command ended before it. -/
theorem Acts.cut {fl : Bool} {snk : List Byte} {ob : Bool → List Nat} {g : Bool → List Answer → Result Unit}
    (h : Acts fl snk ob g) (rest : List Answer) (o : Bool) (t : State) : ∀ as : List Answer, Answer.reset ∉ as →
    (g o (as ++ .reset :: rest)).outcome = .next t →
    rest.length < t.answers.length ∨ t.answers = rest ∧ t.resetBlock = t := by
  induction h with
  | done v s ob h =>
    intro as _ ht
    cases ht
    exact .inl (by simp [State.env]; omega)
  | raised e i s ob h =>
    intro as _ ht
    cases ht
    exact .inl (by simp [State.env, State.enterFault]; omega)
  | stuck f snk ob =>
    intro as _ ht
    cases ht
  | source s ob next h ih =>
    intro as hn ht
    cases as with
    | nil =>
      cases ht
      exact .inr ⟨rfl, rfl⟩
    | cons x as =>
      cases x with
      | served => exact ih as (fun h => hn (.tail _ h)) ht
      | failed c =>
        cases ht
        exact .inl (by simp [State.env, State.enterFault]; omega)
      | reset => exact absurd (.head _) hn
  | sink s ob b next h ih =>
    intro as hn ht
    cases as with
    | nil =>
      cases ht
      exact .inr ⟨rfl, rfl⟩
    | cons x as =>
      cases x with
      | served => exact ih as (fun h => hn (.tail _ h)) ht
      | failed c =>
        cases ht
        exact .inl (by simp [State.env, State.enterFault]; omega)
      | reset => exact absurd (.head _) hn
  | note s ob code next h ih =>
    intro as hn ht
    cases as with
    | nil =>
      cases ht
      exact .inr ⟨rfl, rfl⟩
    | cons x as =>
      cases x with
      | served => exact ih as (fun h => hn (.tail _ h)) ht
      | failed c => exact ih as (fun h => hn (.tail _ h)) ht
      | reset => exact absurd (.head _) hn

/-- A port error comes from a port that failed, and ERRINFO is its code. -/
theorem Acts.port {snk : List Byte} {ob : Bool → List Nat} {g : Bool → List Answer → Result Unit}
    (h : Acts false snk ob g) (o : Bool) (t : State) : ∀ as : List Answer,
    (g o as).outcome = .next t → t.fault = true → t.err = 5 ∨ t.err = 6 → Answer.failed t.errInfo ∈ as := by
  generalize hfl : false = fl at h
  induction h with
  | done v s ob h =>
    intro as ht hf
    cases ht
    exact absurd (hf.symm.trans (h.trans hfl.symm)) (by decide)
  | raised e i s ob h =>
    intro as ht _ he
    cases ht
    revert h he
    cases e <;> simp [State.env, State.enterFault, Error.code]
  | stuck f snk ob =>
    intro as ht
    cases ht
  | source s ob next h ih =>
    intro as ht hf he
    cases as with
    | nil => exact absurd (ih [] ht hf he) (List.not_mem_nil)
    | cons x as =>
      cases x with
      | served => exact .tail _ (ih as ht hf he)
      | failed c =>
        cases ht
        exact .head _
      | reset =>
        cases ht
        cases hf
  | sink s ob b next h ih =>
    intro as ht hf he
    cases as with
    | nil => exact absurd (ih [] ht hf he) (List.not_mem_nil)
    | cons x as =>
      cases x with
      | served => exact .tail _ (ih as ht hf he)
      | failed c =>
        cases ht
        exact .head _
      | reset =>
        cases ht
        cases hf
  | note s ob code next h ih =>
    intro as ht hf he
    cases as with
    | nil => exact absurd (ih [] ht hf he) (List.not_mem_nil)
    | cons x as =>
      cases x with
      | served => exact .tail _ (ih as ht hf he)
      | failed c => exact .tail _ (ih as ht hf he)
      | reset =>
        cases ht
        cases hf

end Sys2Proof.Machine
end

