-- ==== Sys2Proof/Laws/Ports.lean ====
section
/-! SUPPORT. The port primitives: what each comes to in a quiet environment, when the port fails, and in every case. -/

namespace Sys2Proof.Machine

open Sys2Proof

theorem Quiet.answer {s : State} (h : Quiet s) : s.answer = .served := by simp [State.answer, h]

theorem Quiet.dropAnswer {s : State} (h : Quiet s) : s.dropAnswer = s := by
  obtain ⟨⟩ := s
  simp only [Quiet] at h
  subst h
  rfl

/-- In a quiet environment every action is served. -/
theorem request_quiet {α : Type} {onFail : Word → State → Result α} {serve : State → Result α} {s : State} (h : Quiet s) :
    request onFail serve s = serve s := by
  simp [request, h.answer, h.dropAnswer]

theorem notify_quiet {p : Phase} {s : State} (h : Quiet s) : notify p s = .done () (s.appendPhase p) := request_quiet h

theorem srcRewind_quiet {s : State} (h : Quiet s) : srcRewind s = .done () (s.setPos 0) := request_quiet h

theorem srcRead_quiet {s : State} (h : Quiet s) :
    srcRead s = match s.src.data[s.src.pos]? with
      | some b => .done (some b) (s.setPos (s.src.pos + 1))
      | none => .done none s := request_quiet h

theorem snkWrite_quiet {b : Byte} {s : State} (h : Quiet s) : snkWrite b s = .done () (s.appendByte b) := request_quiet h

/-- The state with the sink's bytes followed by these. -/
def State.appendBytes (bs : List Byte) (s : State) : State := { s with snk := s.snk ++ bs }

/-- In a quiet environment successive writes append all the bytes. -/
theorem snkWriteAll_quiet (bs : List Byte) (s : State) (h : Quiet s) :
    snkWriteAll bs s = .done () (s.appendBytes bs) := by
  induction bs generalizing s with
  | nil => simp [snkWriteAll, State.appendBytes]
  | cons b bs ih =>
    rw [snkWriteAll, snkWrite_quiet h, Result.andThen_done, ih (s.appendByte b) h]
    simp [State.appendBytes, State.appendByte]

/-- Successive writes that the environment stops at number `k`: the `k` bytes before it stay, and the command ends there, with
SinkIOError or, at a hardware reset, in the reset state (20_memory.md R38, 60_exceptions.md R135, 70_reset_and_hazards.md R150). -/
theorem snkWriteAll_stopped (bs : List Byte) (s : State) (k : Nat) (a : Answer) (rest : List Answer) (hk : k < bs.length)
    (hs : s.answers = List.replicate k .served ++ a :: rest) :
    (∀ e, a = .failed e → snkWriteAll bs s =
      .ended (({ s with snk := s.snk ++ bs.take k, answers := rest } : State).enterFault .sinkIO e)) ∧
    (a = .reset → snkWriteAll bs s = .ended ({ s with snk := s.snk ++ bs.take k, answers := rest } : State).resetBlock) := by
  induction bs generalizing s k with
  | nil => simp at hk
  | cons b bs ih =>
    rw [snkWriteAll, snkWrite, request]
    cases k with
    | zero =>
      simp only [List.replicate_zero, List.nil_append] at hs
      refine ⟨?_, ?_⟩
      · rintro e rfl
        simp [State.answer, hs, Result.andThen, raise, State.dropAnswer]
      · rintro rfl
        simp [State.answer, hs, Result.andThen, State.dropAnswer]
    | succ k =>
      simp only [List.replicate_succ, List.cons_append] at hs
      simp only [State.answer, hs, List.headD_cons, Result.andThen]
      have := ih (s.dropAnswer.appendByte b) k (by simpa using hk) (by simp [State.appendByte, State.dropAnswer, hs])
      simpa [State.appendByte, State.dropAnswer, hs] using this

/-- In a quiet environment a multi-byte read takes the next bytes, if there are enough. -/
theorem srcReadN_quiet (n : Nat) (s : State) (h : Quiet s) (hn : s.src.pos + n ≤ s.src.data.length) :
    srcReadN n s = .done (some ((s.src.data.drop s.src.pos).take n)) (s.setPos (s.src.pos + n)) := by
  induction n generalizing s with
  | zero => simp [srcReadN, State.setPos]
  | succ n ih =>
    have hlt : s.src.pos < s.src.data.length := by omega
    rw [srcReadN, srcRead_quiet h, List.getElem?_eq_getElem hlt]
    simp only [Result.andThen_done]
    rw [ih (s.setPos (s.src.pos + 1)) h (by simp; omega)]
    simp only [Result.andThen_done, State.setPos_src, Option.map_some]
    rw [List.drop_eq_getElem_cons hlt, List.take_succ_cons]
    simp [State.setPos, Nat.add_assoc, Nat.add_comm 1 n]

/-- What one action of the engine can come to (20_memory.md R38, 70_reset_and_hazards.md R150). -/
theorem request_cases {α : Type} (onFail : Word → State → Result α) (serve : State → Result α) (s : State) :
    (s.answer = .served ∧ request onFail serve s = serve s.dropAnswer) ∨
    (∃ e, s.answer = .failed e ∧ request onFail serve s = onFail e s.dropAnswer) ∨
    (s.answer = .reset ∧ request onFail serve s = .ended s.dropAnswer.resetBlock) := by
  unfold request
  cases h : s.answer <;> simp

end Sys2Proof.Machine
end

