-- ==== Sys2Proof/Laws/Engine.lean ====
section
/-! SUPPORT. What a command body can do, said once: a relation that holds across each update the engine makes holds across every
body. Every frame ("nothing but ... changes") is an instance. -/

namespace Sys2Proof.Machine

open Sys2Proof

/-- The errors a command's body can raise (60_exceptions.md R121, R123): the dispatch alone raises IllegalCommandError. -/
def Raisable (e : Error) : Prop := e ≠ .notComparable ∧ e ≠ .illegalCommand

/-- A relation between states that the end of an action respects. `cut` is asked only where a hardware reset is the environment's
answer. The structures below add the updates of the ports and of each command, so that a relation need only respect what the command at
hand does. -/
structure BaseRel (R : State → State → Prop) : Prop where
  refl : ∀ s, R s s
  trans : ∀ {s t u}, R s t → R t u → R s u
  dropAnswer : ∀ s, R s s.dropAnswer
  cut : ∀ s, s.answer = .reset → R s s.dropAnswer.resetBlock
  enterFault : ∀ e i s, Raisable e → R s (s.enterFault e i)

structure NotifyRel (R : State → State → Prop) : Prop extends BaseRel R where
  appendPhase : ∀ p s, R s (s.appendPhase p)

structure SourceRel (R : State → State → Prop) : Prop extends BaseRel R where
  setPos : ∀ n s, R s (s.setPos n)

structure SinkRel (R : State → State → Prop) : Prop extends BaseRel R where
  appendByte : ∀ b s, R s (s.appendByte b)

structure QueueRel (R : State → State → Prop) : Prop extends BaseRel R where
  setPq : ∀ q s, R s (s.setPq q)

/-- The updates of COUNT. -/
structure CountRel (R : State → State → Prop) : Prop extends NotifyRel R, SourceRel R where
  clearEngine : ∀ s, R s s.clearEngine
  countByte : ∀ b s, R s (s.countByte b)
  setFreqValid : ∀ s, R s s.setFreqValid

/-- The updates of BUILD. -/
structure BuildRel (R : State → State → Prop) : Prop extends NotifyRel R, QueueRel R where
  writeNode : ∀ n s, R s (s.writeNode n)
  bumpNNodes : ∀ s, R s s.bumpNNodes
  startBuild : ∀ s, R s s.startBuild
  recordNDist : ∀ s, R s s.recordNDist
  setRoot : ∀ t s, R s (s.setRoot t)
  setTreeDone : ∀ s, R s s.setTreeDone

/-- The updates of GENCODE. -/
structure GencodeRel (R : State → State → Prop) : Prop extends NotifyRel R where
  setCode : ∀ b ds s, R s (s.setCode b ds)
  clearCodes : ∀ s, R s s.clearCodes
  setCodeValid : ∀ s, R s s.setCodeValid
  clearCodeValid : ∀ s, R s s.clearCodeValid

/-- The updates of ENCODE. -/
structure EncodeRel (R : State → State → Prop) : Prop extends NotifyRel R, SourceRel R, SinkRel R

/-- The updates of DECODE. -/
structure DecodeRel (R : State → State → Prop) : Prop extends NotifyRel R, SourceRel R, SinkRel R where
  bumpEmitted : ∀ s, R s s.bumpEmitted
  clearEmitted : ∀ s, R s s.clearEmitted

/-- The updates of WRHDR. -/
structure WrhdrRel (R : State → State → Prop) : Prop extends NotifyRel R, SinkRel R

/-- The updates of RDHDR. -/
structure RdhdrRel (R : State → State → Prop) : Prop extends NotifyRel R, SourceRel R where
  clearEngine : ∀ s, R s s.clearEngine
  setFreq : ∀ b w s, R s (s.setFreq b w)
  setTotal : ∀ w s, R s (s.setTotal w)
  setFreqValid : ∀ s, R s s.setFreqValid

/-- The updates of COMPRESS. -/
structure CompressRel (R : State → State → Prop) : Prop extends CountRel R, BuildRel R, GencodeRel R, EncodeRel R, WrhdrRel R

/-- The updates of DECOMPRESS. -/
structure DecompressRel (R : State → State → Prop) : Prop extends RdhdrRel R, BuildRel R, DecodeRel R

/-- The updates of every command but RESET and the queue commands' results. -/
structure EngineRel (R : State → State → Prop) : Prop extends CompressRel R, DecompressRel R

variable {R : State → State → Prop} {s₀ s : State}

theorem BaseRel.request {α : Type} (h : BaseRel R) {onFail : Word → State → Result α} {serve : State → Result α}
    (hs : R s₀ s) (hf : ∀ e t, R s₀ t → (onFail e t).All (R s₀)) (hv : ∀ t, R s₀ t → (serve t).All (R s₀)) :
    (Machine.request onFail serve s).All (R s₀) := by
  have hd := h.trans hs (h.dropAnswer s)
  obtain ⟨-, e⟩ | ⟨c, -, e⟩ | ⟨hr, e⟩ := request_cases onFail serve s <;> rw [e]
  · exact hv _ hd
  · exact hf c _ hd
  · exact ⟨h.trans hs (h.cut s hr)⟩

theorem BaseRel.raise {α : Type} (h : BaseRel R) (hs : R s₀ s) (e : Error) (i : Word)
    (he : Raisable e := by simp [Raisable]) : (Machine.raise e i s : Result α).All (R s₀) :=
  ⟨h.trans hs (h.enterFault e i s he)⟩

theorem BaseRel.require (h : BaseRel R) (hs : R s₀ s) (c : Bool) (e : Error) (i : Word)
    (he : Raisable e := by simp [Raisable]) : (Machine.require c e i s).All (R s₀) := by
  cases c
  · exact ⟨h.trans hs (h.enterFault e i s he)⟩
  · exact ⟨hs⟩

theorem BaseRel.requireFlags (h : BaseRel R) (hs : R s₀ s) (c : Bool) (o : BitVec 8) :
    (Machine.requireFlags c o s).All (R s₀) := h.require hs c _ _

theorem NotifyRel.notify (h : NotifyRel R) (hs : R s₀ s) (p : Phase) : (Machine.notify p s).All (R s₀) :=
  h.request hs (fun _ t ht => ⟨h.trans ht (h.appendPhase p t)⟩) fun t ht => ⟨h.trans ht (h.appendPhase p t)⟩

theorem SourceRel.srcRewind (h : SourceRel R) (hs : R s₀ s) : (Machine.srcRewind s).All (R s₀) :=
  h.request hs (fun e _ ht => h.raise ht _ e) fun t ht => ⟨h.trans ht (h.setPos 0 t)⟩

theorem SourceRel.srcRead (h : SourceRel R) (hs : R s₀ s) : (Machine.srcRead s).All (R s₀) := by
  refine h.request hs (fun e t ht => h.raise ht _ e) fun t ht => ?_
  split
  · exact ⟨h.trans ht (h.setPos _ t)⟩
  · exact ⟨ht⟩

theorem SinkRel.snkWrite (h : SinkRel R) (hs : R s₀ s) (b : Byte) : (Machine.snkWrite b s).All (R s₀) :=
  h.request hs (fun e _ ht => h.raise ht _ e) fun t ht => ⟨h.trans ht (h.appendByte b t)⟩

theorem SinkRel.snkWriteAll (h : SinkRel R) (hs : R s₀ s) (bs : List Byte) : (Machine.snkWriteAll bs s).All (R s₀) := by
  induction bs generalizing s with
  | nil => exact ⟨hs⟩
  | cons b bs ih => exact (h.snkWrite hs b).then fun _ t ht => ih ht

theorem SourceRel.srcReadN (h : SourceRel R) (hs : R s₀ s) (n : Nat) : (Machine.srcReadN n s).All (R s₀) := by
  induction n generalizing s with
  | zero => exact ⟨hs⟩
  | succ n ih =>
    refine (h.srcRead hs).then fun r t ht => ?_
    cases r with
    | none => exact ⟨ht⟩
    | some b => exact (ih ht).then fun _ u hu => ⟨hu⟩

theorem QueueRel.pqInsert (h : QueueRel R) (hs : R s₀ s) (it : Item) : (Machine.pqInsert it s).All (R s₀) := by
  unfold Machine.pqInsert
  split
  · exact ⟨h.trans hs (h.setPq _ s)⟩
  · exact h.raise hs _ _

theorem QueueRel.pqPopMin (h : QueueRel R) (hs : R s₀ s) : (Machine.pqPopMin s).All (R s₀) := by
  unfold Machine.pqPopMin
  split
  · exact h.raise hs _ _
  · exact ⟨h.trans hs (h.setPq _ s)⟩

/-! ### The bodies -/

theorem CountRel.countLoop (h : CountRel R) (n : Nat) (hs : R s₀ s) : (Machine.countLoop n s).All (R s₀) := by
  induction n generalizing s with
  | zero => exact ⟨trivial⟩
  | succ n ih =>
    refine (h.srcRead hs).then fun r t ht => ?_
    cases r with
    | none => exact ⟨ht⟩
    | some b => exact (h.require ht _ _ _).then fun _ u hu => ih (h.trans hu (h.countByte b u))

theorem CountRel.countBody (h : CountRel R) (hs : R s₀ s) : (Machine.countBody s).All (R s₀) := by
  refine (h.notify (h.trans hs (h.clearEngine s)) _).then fun _ s hs => ?_
  refine (h.srcRewind hs).then fun _ s hs => ?_
  exact (h.countLoop _ hs).then fun _ s hs => ⟨h.trans hs (h.setFreqValid s)⟩

theorem BuildRel.addNode (h : BuildRel R) (hs : R s₀ s) (n : Node) : (Machine.addNode n s).All (R s₀) :=
  (h.pqInsert (h.trans hs (h.writeNode n s)) _).then fun _ s hs => ⟨h.trans hs (h.bumpNNodes s)⟩

theorem BuildRel.seedLoop (h : BuildRel R) (bs : List Byte) (hs : R s₀ s) : (Machine.seedLoop bs s).All (R s₀) := by
  induction bs generalizing s with
  | nil => exact ⟨hs⟩
  | cons b bs ih =>
    unfold Machine.seedLoop
    split
    · exact (h.addNode hs _).then fun _ s hs => ih hs
    · exact ih hs

theorem BuildRel.mergeLoop (h : BuildRel R) (n : Nat) (hs : R s₀ s) : (Machine.mergeLoop n s).All (R s₀) := by
  induction n generalizing s with
  | zero => exact ⟨trivial⟩
  | succ n ih =>
    unfold Machine.mergeLoop
    split
    · refine (h.pqPopMin hs).then fun a s hs => ?_
      refine (h.pqPopMin hs).then fun b s hs => ?_
      split
      · exact (h.addNode hs _).then fun _ s hs => ih hs
      · exact ⟨trivial⟩
    · exact ⟨hs⟩

theorem BuildRel.takeRoot (h : BuildRel R) (hs : R s₀ s) : (Machine.takeRoot s).All (R s₀) := by
  unfold Machine.takeRoot
  split
  · exact (h.pqPopMin hs).then fun it s hs => ⟨h.trans hs (h.setRoot it.tag s)⟩
  · exact ⟨hs⟩

theorem BuildRel.buildBody (h : BuildRel R) (hs : R s₀ s) : (Machine.buildBody s).All (R s₀) := by
  refine (h.requireFlags hs _ _).then fun _ s hs => ?_
  refine (h.notify hs _).then fun _ s hs => ?_
  refine (h.seedLoop _ (h.trans hs (h.startBuild s))).then fun _ s hs => ?_
  refine (h.mergeLoop _ (h.trans hs (h.recordNDist s))).then fun _ s hs => ?_
  exact (h.takeRoot hs).then fun _ s hs => ⟨h.trans hs (h.setTreeDone s)⟩

theorem GencodeRel.walk (h : GencodeRel R) (n : Nat) (i : NodeIdx) (acc : List Digit) (hs : R s₀ s) :
    (Machine.walk n i acc s).All (R s₀) := by
  induction n generalizing s i acc with
  | zero => exact ⟨trivial⟩
  | succ n ih =>
    unfold Machine.walk
    split
    · exact ⟨h.trans hs (h.setCode _ _ s)⟩
    · exact (ih _ _ hs).then fun _ s hs => ih _ _ hs

theorem GencodeRel.codesFromRoot (h : GencodeRel R) (hs : R s₀ s) : (Machine.codesFromRoot s).All (R s₀) := by
  unfold Machine.codesFromRoot
  split
  · split
    · exact ⟨h.trans hs (h.setCode _ _ s)⟩
    · exact h.walk _ _ _ hs
  · exact ⟨hs⟩

theorem GencodeRel.gencodeBody (h : GencodeRel R) (hs : R s₀ s) : (Machine.gencodeBody s).All (R s₀) := by
  refine (h.requireFlags hs _ _).then fun _ s hs => ?_
  refine (h.notify hs _).then fun _ s hs => ?_
  refine (h.codesFromRoot (h.trans (h.trans hs (h.clearCodeValid s)) (h.clearCodes _))).then fun _ s hs => ?_
  exact ⟨h.trans hs (h.setCodeValid s)⟩

theorem EncodeRel.pushDigits (h : EncodeRel R) (ds buf : List Digit) (hs : R s₀ s) :
    (Machine.pushDigits ds buf s).All (R s₀) := by
  induction ds generalizing s buf with
  | nil => exact ⟨hs⟩
  | cons d ds ih =>
    unfold Machine.pushDigits
    split
    · exact (h.snkWrite hs _).then fun _ s hs => ih _ hs
    · exact ih _ hs

theorem EncodeRel.encodeLoop (h : EncodeRel R) (m : Nat) (buf : List Digit) (n : Nat) (hs : R s₀ s) :
    (Machine.encodeLoop m buf n s).All (R s₀) := by
  induction m generalizing s buf n with
  | zero => exact ⟨trivial⟩
  | succ m ih =>
    refine (h.srcRead hs).then fun r s hs => ?_
    cases r with
    | none => exact ⟨hs⟩
    | some b =>
      refine (h.require hs _ _ _).then fun _ s hs => ?_
      refine (h.require hs _ _ _).then fun _ s hs => ?_
      exact (h.pushDigits _ _ hs).then fun buf s hs => ih _ _ hs

theorem EncodeRel.flushBuf (h : EncodeRel R) (buf : List Digit) (hs : R s₀ s) : (Machine.flushBuf buf s).All (R s₀) := by
  unfold Machine.flushBuf
  split
  · exact h.snkWrite hs _
  · exact ⟨hs⟩

theorem EncodeRel.encodeBody (h : EncodeRel R) (hs : R s₀ s) : (Machine.encodeBody s).All (R s₀) := by
  refine (h.requireFlags hs _ _).then fun _ s hs => ?_
  refine (h.notify hs _).then fun _ s hs => ?_
  refine (h.srcRewind hs).then fun _ s hs => ?_
  refine (h.encodeLoop _ _ _ hs).then fun r s hs => ?_
  exact (h.require hs _ _ _).then fun _ s hs => h.flushBuf _ hs

theorem DecodeRel.emit (h : DecodeRel R) (b : Byte) (hs : R s₀ s) : (Machine.emit b s).All (R s₀) :=
  (h.snkWrite hs b).then fun _ s hs => ⟨h.trans hs (h.bumpEmitted s)⟩

theorem DecodeRel.decodeBit (h : DecodeRel R) (root : NodeIdx) (bit : Digit) (cur : NodeIdx) (hs : R s₀ s) :
    (Machine.decodeBit root bit cur s).All (R s₀) := by
  unfold Machine.decodeBit
  split
  · refine (h.require hs _ _ _).then fun _ s hs => ?_
    exact (h.emit _ hs).then fun _ s hs => ⟨hs⟩
  · split
    · exact (h.emit _ hs).then fun _ s hs => ⟨hs⟩
    · exact ⟨hs⟩

theorem DecodeRel.decodeBits (h : DecodeRel R) (root : NodeIdx) (bits : List Digit) (cur : NodeIdx) (hs : R s₀ s) :
    (Machine.decodeBits root bits cur s).All (R s₀) := by
  induction bits generalizing s cur with
  | nil => exact ⟨hs⟩
  | cons bit bits ih =>
    refine (h.decodeBit root bit cur hs).then fun cur s hs => ?_
    split
    · exact ⟨hs⟩
    · exact ih _ hs

theorem DecodeRel.decodeLoop (h : DecodeRel R) (root : NodeIdx) (n : Nat) (cur : NodeIdx) (hs : R s₀ s) :
    (Machine.decodeLoop root n cur s).All (R s₀) := by
  induction n generalizing s cur with
  | zero => exact ⟨trivial⟩
  | succ n ih =>
    unfold Machine.decodeLoop
    split
    · refine (h.srcRead hs).then fun r s hs => ?_
      cases r with
      | none => exact h.raise hs _ _
      | some b => exact (h.decodeBits root _ _ hs).then fun cur s hs => ih _ hs
    · exact ⟨hs⟩

theorem DecodeRel.decodeBody (h : DecodeRel R) (hs : R s₀ s) : (Machine.decodeBody s).All (R s₀) := by
  refine (h.requireFlags hs _ _).then fun _ s hs => ?_
  refine (h.notify hs _).then fun _ s hs => ?_
  have hc := h.trans hs (h.clearEmitted s)
  dsimp only
  split
  · exact h.decodeLoop _ _ _ hc
  · exact ⟨hc⟩

theorem WrhdrRel.wrhdrBody (h : WrhdrRel R) (hs : R s₀ s) : (Machine.wrhdrBody s).All (R s₀) := by
  refine (h.requireFlags hs _ _).then fun _ s hs => ?_
  exact (h.notify hs _).then fun _ s hs => h.snkWriteAll hs _

theorem SourceRel.readField (h : SourceRel R) (hs : R s₀ s) : (Machine.readField s).All (R s₀) := by
  have h4 := h.srcReadN hs 4
  unfold Machine.readField
  generalize Machine.srcReadN 4 s = r at h4 ⊢
  refine h4.then fun r s hs => ?_
  cases r with
  | none => exact h.raise hs _ _
  | some bs => exact ⟨hs⟩

theorem RdhdrRel.readCounts (h : RdhdrRel R) (bs : List Byte) (hs : R s₀ s) : (Machine.readCounts bs s).All (R s₀) := by
  induction bs generalizing s with
  | nil => exact ⟨hs⟩
  | cons b bs ih => exact (h.readField hs).then fun c s hs => ih (h.trans hs (h.setFreq b _ s))

theorem RdhdrRel.rdhdrBody (h : RdhdrRel R) (hs : R s₀ s) : (Machine.rdhdrBody s).All (R s₀) := by
  refine (h.notify (h.trans hs (h.clearEngine s)) _).then fun _ s hs => ?_
  refine (h.readField hs).then fun _ s hs => ?_
  refine (h.require hs _ _ _).then fun _ s hs => ?_
  refine (h.readField hs).then fun l s hs => ?_
  refine (h.readCounts _ (h.trans hs (h.setTotal _ s))).then fun _ s hs => ?_
  exact (h.require hs _ _ _).then fun _ s hs => ⟨h.trans hs (h.setFreqValid s)⟩

theorem CompressRel.payloadBody (h : CompressRel R) (hs : R s₀ s) : (Machine.payloadBody s).All (R s₀) := by
  refine (h.buildBody hs).then fun _ s hs => ?_
  exact (h.gencodeBody hs).then fun _ s hs => h.encodeBody hs

theorem CompressRel.compressBody (h : CompressRel R) (hs : R s₀ s) : (Machine.compressBody s).All (R s₀) := by
  refine (h.countBody hs).then fun _ s hs => ?_
  refine (h.wrhdrBody hs).then fun _ s hs => ?_
  split
  · exact h.payloadBody hs
  · exact ⟨hs⟩

theorem DecompressRel.decompressBody (h : DecompressRel R) (hs : R s₀ s) : (Machine.decompressBody s).All (R s₀) := by
  refine (h.rdhdrBody hs).then fun _ s hs => ?_
  exact (h.buildBody hs).then fun _ s hs => h.decodeBody hs

/-- Across every command but RESET and the queue commands, which have their own results, the relation holds. -/
theorem EngineRel.exec_stage (h : EngineRel R) {i : Instr} (hi : i ∉ [Instr.reset, .pqInsert, .pqPopmin, .pqPeekmin, .pqSize])
    {s t : State} (he : exec i s = .next t) : R s t := by
  cases i <;> simp at hi <;> simp only [exec] at he
  · cases he; exact h.refl s
  · exact (h.countBody (h.refl s)).next he
  · exact (h.buildBody (h.refl s)).next he
  · exact (h.gencodeBody (h.refl s)).next he
  · exact (h.encodeBody (h.refl s)).next he
  · exact (h.decodeBody (h.refl s)).next he
  · exact (h.wrhdrBody (h.refl s)).next he
  · exact (h.rdhdrBody (h.refl s)).next he
  · exact (h.compressBody (h.refl s)).next he
  · exact (h.decompressBody (h.refl s)).next he

end Sys2Proof.Machine
end

