-- ==== Sys2Proof/Laws/Queue.lean ====
section
/-! SUPPORT. The queue functions of 41_priority_queue.md R67: where an insert puts the item, and that the order of 10_state.md R21 is
kept. -/

namespace Sys2Proof.Machine

open Sys2Proof

/-- In a list sorted by a key the number of members of key at most `n` is the length of the prefix they form. -/
theorem take_countP_of_key {α : Type} (key : α → Nat) {q : List α} (h : q.Pairwise fun a b => key a ≤ key b) (n : Nat) :
    q.take (q.countP fun x => decide (key x ≤ n)) = q.filter (fun x => decide (key x ≤ n)) ∧
    q.drop (q.countP fun x => decide (key x ≤ n)) = q.filter (fun x => decide (n < key x)) := by
  induction q with
  | nil => simp
  | cons a q ih =>
    obtain ⟨ha, hq⟩ := List.pairwise_cons.mp h
    obtain ⟨h1, h2⟩ := ih hq
    by_cases hle : key a ≤ n
    · have : ¬ n < key a := by omega
      simp [hle, this, h1, h2]
    · have hlt : n < key a := by omega
      have hall : ∀ x ∈ q, n < key x := fun x hx => lt_of_lt_of_le hlt (ha x hx)
      have h0 : (q.countP fun x => decide (key x ≤ n)) = 0 := by
        rw [List.countP_eq_zero]
        intro x hx
        simpa using hall x hx
      have hf : q.filter (fun x => decide (key x ≤ n)) = [] := by
        rw [List.filter_eq_nil_iff]
        intro x hx
        simpa using hall x hx
      have hg : q.filter (fun x => decide (n < key x)) = q := by
        rw [List.filter_eq_self]
        intro x hx
        simpa using hall x hx
      simp [hle, hlt, h0, hf, hg]

/-- In a sorted queue the number of items of weight at most `n` is the length of the prefix they form. -/
theorem take_countP_of_sorted {q : List Item} (h : SortedQueue q) (n : Nat) :
    q.take (q.countP fun x => decide (x.weight.toNat ≤ n)) = q.filter (fun x => decide (x.weight.toNat ≤ n)) ∧
    q.drop (q.countP fun x => decide (x.weight.toNat ≤ n)) = q.filter (fun x => decide (n < x.weight.toNat)) :=
  take_countP_of_key (fun x : Item => x.weight.toNat) h n

/-- The new item goes behind every item of smaller or equal weight and before every item of larger weight (R67). -/
theorem insertItem_sorted {q : List Item} (h : SortedQueue q) (it : Item) :
    insertItem it q = q.filter (fun x => decide (x.weight.toNat ≤ it.weight.toNat)) ++ [it] ++
      q.filter (fun x => decide (it.weight.toNat < x.weight.toNat)) := by
  obtain ⟨h1, h2⟩ := take_countP_of_sorted h it.weight.toNat
  simp only [insertItem, h1, h2]

theorem insertItem_perm (it : Item) (q : List Item) : (insertItem it q).Perm (it :: q) := by
  simp only [insertItem, List.append_assoc, List.singleton_append]
  exact List.perm_middle.trans (by rw [List.take_append_drop])

theorem insertItem_length (it : Item) (q : List Item) : (insertItem it q).length = q.length + 1 :=
  (insertItem_perm it q).length_eq

/-- An insert keeps the order of R21. -/
theorem SortedQueue.insertItem {q : List Item} (h : SortedQueue q) (it : Item) : SortedQueue (insertItem it q) := by
  rw [insertItem_sorted h]
  simp only [SortedQueue, List.append_assoc, List.singleton_append, List.pairwise_append, List.pairwise_cons,
    List.mem_filter, decide_eq_true_eq, List.mem_cons]
  refine ⟨List.Pairwise.filter _ h, ⟨fun x hx => hx.2.le, List.Pairwise.filter _ h⟩, ?_⟩
  rintro a ⟨-, ha⟩ b (rfl | ⟨-, hb⟩) <;> omega

theorem SortedQueue.tail {a : Item} {q : List Item} (h : SortedQueue (a :: q)) : SortedQueue q :=
  (List.pairwise_cons.mp h).2

/-- Of the items of one weight an insert leaves the earlier ones in their order and puts the new one last (R72). -/
theorem insertItem_filter_weight {q : List Item} (h : SortedQueue q) (it : Item) (w : Word) :
    (Machine.insertItem it q).filter (fun x => decide (x.weight = w)) =
      q.filter (fun x => decide (x.weight = w)) ++ if it.weight = w then [it] else [] := by
  rw [insertItem_sorted h]
  simp only [List.filter_append, List.filter_filter]
  by_cases hw : it.weight = w
  · subst hw
    have h1 : (q.filter fun x => decide (x.weight = it.weight) && decide (x.weight.toNat ≤ it.weight.toNat)) =
        q.filter fun x => decide (x.weight = it.weight) := by
      apply List.filter_congr
      intro x _
      by_cases hx : x.weight = it.weight <;> simp [hx]
    have h2 : (q.filter fun x => decide (x.weight = it.weight) && decide (it.weight.toNat < x.weight.toNat)) = [] := by
      rw [List.filter_eq_nil_iff]
      intro x _
      by_cases hx : x.weight = it.weight <;> simp [hx]
    simp [h1, h2]
  · have hsplit : (q.filter fun x => decide (x.weight = w) && decide (x.weight.toNat ≤ it.weight.toNat)) ++
        (q.filter fun x => decide (x.weight = w) && decide (it.weight.toNat < x.weight.toNat)) =
        q.filter fun x => decide (x.weight = w) := by
      by_cases hle : w.toNat ≤ it.weight.toNat
      · have h1 : (q.filter fun x => decide (x.weight = w) && decide (x.weight.toNat ≤ it.weight.toNat)) =
            q.filter fun x => decide (x.weight = w) := by
          apply List.filter_congr
          intro x _
          by_cases hx : x.weight = w <;> simp [hx, hle]
        have h2 : (q.filter fun x => decide (x.weight = w) && decide (it.weight.toNat < x.weight.toNat)) = [] := by
          rw [List.filter_eq_nil_iff]
          intro x _
          by_cases hx : x.weight = w <;> simp [hx, hle]
        rw [h1, h2, List.append_nil]
      · have h1 : (q.filter fun x => decide (x.weight = w) && decide (x.weight.toNat ≤ it.weight.toNat)) = [] := by
          rw [List.filter_eq_nil_iff]
          intro x _
          by_cases hx : x.weight = w <;> simp [hx]; omega
        have h2 : (q.filter fun x => decide (x.weight = w) && decide (it.weight.toNat < x.weight.toNat)) =
            q.filter fun x => decide (x.weight = w) := by
          apply List.filter_congr
          intro x _
          by_cases hx : x.weight = w <;> simp [hx]; omega
        rw [h1, h2, List.nil_append]
    simp [hw, hsplit]

end Sys2Proof.Machine
end

