-- ==== Sys2Proof/Laws/Table.lean ====
section
/-! SUPPORT. The tables: reading after writing, for FREQ, CODE and NODE, and the list of the 256 symbols. -/

namespace Sys2Proof.Machine

open Sys2Proof

/-! ### Symbols -/

theorem symbols_length : symbols.length = 256 := by simp [symbols]

theorem mem_symbols (b : Byte) : b ∈ symbols := by
  simp only [symbols, List.mem_map, List.mem_range]
  exact ⟨b.toNat, b.isLt, by simp⟩

theorem symbols_nodup : symbols.Nodup := by
  refine (List.nodup_map_iff_inj_on List.nodup_range).mpr ?_
  intro a ha b hb h
  have ha := List.mem_range.mp ha
  have hb := List.mem_range.mp hb
  have := congrArg BitVec.toNat h
  simp only [BitVec.toNat_ofNat] at this
  rwa [Nat.mod_eq_of_lt ha, Nat.mod_eq_of_lt hb] at this

/-! ### FREQ -/

theorem freqAt_setFreq (s : State) (b c : Byte) (w : Word) :
    (s.setFreq b w).freqAt c = if c = b then w else s.freqAt c := by
  simp only [State.freqAt, State.setFreq_freq, Vector.getElem_set]
  by_cases h : c = b
  · simp [h]
  · have : b.toNat ≠ c.toNat := fun e => h (BitVec.eq_of_toNat_eq e.symm)
    simp [h, this]

theorem freqAt_clear (s : State) (h : s.freq = Vector.replicate 256 0) (b : Byte) : s.freqAt b = 0 := by
  simp [State.freqAt, h]

/-- FREQ alone decides `freqAt`. -/
theorem freqAt_congr {s t : State} (h : s.freq = t.freq) (b : Byte) : s.freqAt b = t.freqAt b := by
  simp [State.freqAt, h]

theorem freqAt_ext {s t : State} (h : ∀ b, s.freqAt b = t.freqAt b) : s.freq = t.freq := by
  apply Vector.ext
  intro i hi
  have := h (BitVec.ofNat 8 i)
  simp only [State.freqAt, BitVec.toNat_ofNat] at this
  simpa [Nat.mod_eq_of_lt hi] using this

theorem freqSum_congr {s t : State} (h : s.freq = t.freq) : s.freqSum = t.freqSum := by
  simp [State.freqSum, State.freqAt, h]

theorem present_congr {s t : State} (h : s.freq = t.freq) : s.present = t.present := by
  simp only [State.present, freqAt_congr h]

/-- Changing one summand of a list without repeats. -/
theorem sum_map_update {l : List Byte} (hl : l.Nodup) {b : Byte} (hb : b ∈ l) (f g : Byte → Nat)
    (h : ∀ c ∈ l, c ≠ b → f c = g c) : (l.map f).sum + g b = (l.map g).sum + f b := by
  induction l with
  | nil => simp at hb
  | cons a l ih =>
    obtain ⟨ha, hl⟩ := List.nodup_cons.mp hl
    by_cases hab : a = b
    · subst hab
      have : l.map f = l.map g := List.map_congr_left fun c hc =>
        h c (List.mem_cons_of_mem _ hc) (fun e => ha (e ▸ hc))
      simp only [List.map_cons, List.sum_cons, this]
      omega
    · have hb' : b ∈ l := by simpa [Ne.symm hab] using hb
      have := ih hl hb' fun c hc => h c (List.mem_cons_of_mem _ hc)
      have := h a (by simp) hab
      simp only [List.map_cons, List.sum_cons]
      omega

/-- Writing one count changes the sum by the difference. -/
theorem freqSum_setFreq (s : State) (b : Byte) (w : Word) :
    (s.setFreq b w).freqSum + (s.freqAt b).toNat = s.freqSum + w.toNat := by
  have := sum_map_update symbols_nodup (mem_symbols b) (fun c => ((s.setFreq b w).freqAt c).toNat)
    (fun c => (s.freqAt c).toNat) (fun c _ hc => by simp [freqAt_setFreq, hc])
  simpa [State.freqSum, freqAt_setFreq] using this

theorem freqAt_le_freqSum (s : State) (b : Byte) : (s.freqAt b).toNat ≤ s.freqSum :=
  List.single_le_sum (by simp) _ (List.mem_map.mpr ⟨b, mem_symbols b, rfl⟩)

theorem freqSum_eq_zero (s : State) (h : s.freq = Vector.replicate 256 0) : s.freqSum = 0 := by
  simp [State.freqSum, freqAt_clear s h]

theorem present_eq_nil_iff (s : State) : s.present = [] ↔ s.freqSum = 0 := by
  simp only [State.present, List.filter_eq_nil_iff, State.freqSum, List.sum_eq_zero_iff, List.mem_map]
  constructor
  · rintro h _ ⟨b, hb, rfl⟩
    simpa using h b hb
  · intro h b hb
    simpa using h _ ⟨b, hb, rfl⟩

theorem mem_present (s : State) (b : Byte) : b ∈ s.present ↔ 0 < (s.freqAt b).toNat := by
  simp [State.present, mem_symbols]

theorem present_nodup (s : State) : s.present.Nodup := symbols_nodup.filter _

theorem present_length_le (s : State) : s.present.length ≤ 256 :=
  (List.length_filter_le _ _).trans symbols_length.le

/-! ### COUNT's update -/

theorem freqAt_countByte (s : State) (b c : Byte) :
    (s.countByte b).freqAt c = if c = b then s.freqAt b + 1 else s.freqAt c :=
  freqAt_setFreq s b c (s.freqAt b + 1)

/-! ### CODE -/

theorem codeAt_setCode (s : State) (b c : Byte) (ds : List Digit) :
    (s.setCode b ds).codeAt c = if c = b then ds else s.codeAt c := by
  simp only [State.codeAt, State.setCode_code, Vector.getElem_set]
  by_cases h : c = b
  · simp [h]
  · have : b.toNat ≠ c.toNat := fun e => h (BitVec.eq_of_toNat_eq e.symm)
    simp [h, this]

theorem codeAt_clear (s : State) (h : s.code = Vector.replicate 256 []) (b : Byte) : s.codeAt b = [] := by
  simp [State.codeAt, h]

theorem codeLength_clear {s : State} (h : s.code = Vector.replicate 256 []) (b : Byte) :
    (s.codeAt b).length ≤ Config.maxCodeLen := by
  simp [codeAt_clear s h b]

theorem codeAt_congr {s t : State} (h : s.code = t.code) (b : Byte) : s.codeAt b = t.codeAt b := by
  simp [State.codeAt, h]

/-! ### NODE -/

theorem nodeAt_congr {s t : State} (h : s.node = t.node) (i : NodeIdx) : s.nodeAt i = t.nodeAt i := by
  simp [State.nodeAt, h]

theorem nodeAt_clear (s : State) (h : s.node = Vector.replicate 511 Node.zero) (i : NodeIdx) : s.nodeAt i = Node.zero := by
  simp only [State.nodeAt, h]
  cases h' : (Vector.replicate 511 Node.zero)[i.toNat]? with
  | none => rfl
  | some n =>
    obtain ⟨hi, rfl⟩ := Vector.getElem?_eq_some_iff.mp h'
    simp

theorem nodeAt_writeNode (s : State) (n : Node) (i : NodeIdx) (h : s.nnodes.toNat < 511) :
    (s.writeNode n).nodeAt i = if i = s.nnodes then n else s.nodeAt i := by
  simp only [State.nodeAt, State.writeNode_node, Vector.getElem?_setIfInBounds]
  by_cases hi : i = s.nnodes
  · simp [hi, h]
  · have : s.nnodes.toNat ≠ i.toNat := fun e => hi (BitVec.eq_of_toNat_eq e.symm)
    simp [hi, this]

/-- The tree an index denotes is decided by NODE alone. -/
theorem treeAt_congr {s t : State} (h : s.node = t.node) (n : Nat) (i : NodeIdx) : treeAt s n i = treeAt t n i := by
  induction n generalizing i with
  | zero => rfl
  | succ n ih => simp only [treeAt, nodeAt_congr h, ih]

theorem tree_congr {s t : State} (hn : s.node = t.node) (hv : s.rootValid = t.rootValid) (hi : s.rootIdx = t.rootIdx) :
    s.tree = t.tree := by
  simp only [State.tree, hv, hi, treeAt_congr hn]

theorem treeCodes_congr {s t : State} (hn : s.node = t.node) (hv : s.rootValid = t.rootValid) (hi : s.rootIdx = t.rootIdx) :
    s.treeCodes = t.treeCodes := by
  simp only [State.treeCodes, tree_congr hn hv hi]

theorem treeCode_congr {s t : State} (hn : s.node = t.node) (hv : s.rootValid = t.rootValid) (hi : s.rootIdx = t.rootIdx)
    (b : Byte) : s.treeCode b = t.treeCode b := by
  simp only [State.treeCode, treeCodes_congr hn hv hi]

theorem leavesCount_congr {s t : State} (h : s.freq = t.freq) (T : Tree) : T.leavesCount s = T.leavesCount t := by
  induction T with
  | leaf b w => simp [Tree.leavesCount, freqAt_congr h]
  | internal w l r ihl ihr => simp [Tree.leavesCount, ihl, ihr]

theorem Tree.leavesCount_of {s t : State} {T : Tree} (hl : T.leavesCount s = true) (h : t.freq = s.freq) :
    T.leavesCount t = true := (leavesCount_congr h T).trans hl

end Sys2Proof.Machine
end

