-- ==== Sys2Proof/Laws/Inv.lean ====
section
/-! SUPPORT. The invariant across the updates that do not touch what it speaks of, across fault entry and reset, and what one
action of the engine can come to. -/

namespace Sys2Proof.Machine

open Sys2Proof

/-- The two states hold the same tables, their registers and their validity flags. -/
structure SameTables (s t : State) : Prop where
  freqValid : t.freqValid = s.freqValid
  treeDone : t.treeDone = s.treeDone
  codeValid : t.codeValid = s.codeValid
  total : t.total = s.total
  ndist : t.ndist = s.ndist
  nnodes : t.nnodes = s.nnodes
  rootValid : t.rootValid = s.rootValid
  rootIdx : t.rootIdx = s.rootIdx
  freq : t.freq = s.freq
  node : t.node = s.node
  code : t.code = s.code

theorem SameTables.refl (s : State) : SameTables s s := by constructor <;> rfl

theorem SameTables.trans {s t u : State} (h : SameTables s t) (k : SameTables t u) : SameTables s u := by
  constructor
  · exact k.freqValid.trans h.freqValid
  · exact k.treeDone.trans h.treeDone
  · exact k.codeValid.trans h.codeValid
  · exact k.total.trans h.total
  · exact k.ndist.trans h.ndist
  · exact k.nnodes.trans h.nnodes
  · exact k.rootValid.trans h.rootValid
  · exact k.rootIdx.trans h.rootIdx
  · exact k.freq.trans h.freq
  · exact k.node.trans h.node
  · exact k.code.trans h.code

theorem SameTables.dropAnswer (s : State) : SameTables s s.dropAnswer := by constructor <;> rfl
theorem SameTables.enterFault (e : Error) (i : Word) (s : State) : SameTables s (s.enterFault e i) := by
  constructor <;> rfl
theorem SameTables.appendPhase (p : Phase) (s : State) : SameTables s (s.appendPhase p) := by constructor <;> rfl
theorem SameTables.setPos (n : Nat) (s : State) : SameTables s (s.setPos n) := by constructor <;> rfl
theorem SameTables.appendByte (b : Byte) (s : State) : SameTables s (s.appendByte b) := by constructor <;> rfl
theorem SameTables.setPq (q : List Item) (s : State) : SameTables s (s.setPq q) := by constructor <;> rfl
theorem SameTables.bumpEmitted (s : State) : SameTables s s.bumpEmitted := by constructor <;> rfl
theorem SameTables.clearEmitted (s : State) : SameTables s s.clearEmitted := by constructor <;> rfl
theorem SameTables.setResult (it : Item) (s : State) : SameTables s (s.setResult it) := by constructor <;> rfl
theorem SameTables.setSize (n : Nat) (s : State) : SameTables s (s.setSize n) := by constructor <;> rfl

theorem TreeOfTable.congr {s t : State} (h : TreeOfTable s) (hf : t.freq = s.freq) (hn : t.node = s.node)
    (hd : t.ndist = s.ndist) (hc : t.nnodes = s.nnodes) (hv : t.rootValid = s.rootValid) (hi : t.rootIdx = s.rootIdx) :
    TreeOfTable t := by
  simp only [TreeOfTable, present_congr hf, hd, hc, hv, hi, tree_congr hn hv hi, freqSum_congr hf, leavesCount_congr hf]
  exact h

/-- The invariant goes over to a state with the same tables and queue, whatever the other fields are. -/
theorem Inv.same {s t : State} (h : Inv s) (k : SameTables s t) (hq : t.pq = s.pq) (hwf : Memory.wf t = true)
    (h0 : t.fault = false → t.err = 0 ∧ t.errInfo = 0)
    (h1 : t.fault = true → ∃ e : Error, e ≠ .notComparable ∧ t.err = e.code) : Inv t where
  sourcePos := hwf
  errClear := h0
  errCode := h1
  queueSorted := hq ▸ h.queueSorted
  queueCap := hq ▸ h.queueCap
  tableSum hv := by
    rw [freqSum_congr k.freq, k.total]
    exact h.tableSum (k.freqValid ▸ hv)
  flagOrder := by
    rw [k.codeValid, k.treeDone, k.freqValid]
    exact h.flagOrder
  nodesFree i hi := by
    rw [nodeAt_congr k.node]
    exact h.nodesFree i (k.nnodes ▸ hi)
  treeOfTable hd := (h.treeOfTable (k.treeDone ▸ hd)).congr k.freq k.node k.ndist k.nnodes k.rootValid k.rootIdx
  codeTable hv b := by
    rw [codeAt_congr k.code, freqAt_congr k.freq]
    exact h.codeTable (k.codeValid ▸ hv) b
  codeOfTree hv b := by
    rw [codeAt_congr k.code, treeCode_congr k.node k.rootValid k.rootIdx]
    exact h.codeOfTree (k.codeValid ▸ hv) b
  codeLength b := by
    rw [codeAt_congr k.code]
    exact h.codeLength b

theorem Inv.dropAnswer {s : State} (h : Inv s) : Inv s.dropAnswer :=
  h.same (.dropAnswer s) rfl h.sourcePos h.errClear h.errCode

theorem Inv.appendPhase {s : State} (h : Inv s) (p : Phase) : Inv (s.appendPhase p) :=
  h.same (.appendPhase p s) rfl h.sourcePos h.errClear h.errCode

theorem Inv.appendByte {s : State} (h : Inv s) (b : Byte) : Inv (s.appendByte b) :=
  h.same (.appendByte b s) rfl h.sourcePos h.errClear h.errCode

theorem Inv.bumpEmitted {s : State} (h : Inv s) : Inv s.bumpEmitted :=
  h.same (.bumpEmitted s) rfl h.sourcePos h.errClear h.errCode

theorem Inv.clearEmitted {s : State} (h : Inv s) : Inv s.clearEmitted :=
  h.same (.clearEmitted s) rfl h.sourcePos h.errClear h.errCode

theorem Inv.setResult {s : State} (h : Inv s) (it : Item) : Inv (s.setResult it) :=
  h.same (.setResult it s) rfl h.sourcePos h.errClear h.errCode

theorem Inv.setSize {s : State} (h : Inv s) (n : Nat) : Inv (s.setSize n) :=
  h.same (.setSize n s) rfl h.sourcePos h.errClear h.errCode

theorem Inv.setPos {s : State} (h : Inv s) {n : Nat} (hn : n ≤ s.src.data.length) : Inv (s.setPos n) :=
  h.same (.setPos n s) rfl (decide_eq_true hn) h.errClear h.errCode

theorem Inv.enterFault {s : State} (h : Inv s) {e : Error} (he : e ≠ .notComparable) (i : Word) : Inv (s.enterFault e i) :=
  h.same (.enterFault e i s) rfl h.sourcePos (by simp) fun _ => ⟨e, he, rfl⟩

/-- ClearEngine gives a state with the invariant wherever the ports' and the error registers' parts hold (R28). -/
theorem Inv.clearEngine {s : State} (hwf : Memory.wf s = true) (h0 : s.fault = false → s.err = 0 ∧ s.errInfo = 0)
    (h1 : s.fault = true → ∃ e : Error, e ≠ .notComparable ∧ s.err = e.code) : Inv s.clearEngine where
  sourcePos := hwf
  errClear := h0
  errCode := h1
  queueSorted := List.Pairwise.nil
  queueCap := by simp
  tableSum h := by simp at h
  flagOrder := by simp
  nodesFree i _ := nodeAt_clear _ rfl i
  treeOfTable h := by simp at h
  codeTable h := by simp at h
  codeOfTree h := by simp at h
  codeLength b := by simp [codeAt_clear _ (State.clearEngine_code s) b]

theorem Inv.clear {s : State} (h : Inv s) : Inv s.clearEngine := .clearEngine h.sourcePos h.errClear h.errCode

/-- Reset gives a state with the invariant, whatever the block's state was (R150). -/
theorem Inv.resetBlock {s : State} (hwf : Memory.wf s = true) : Inv s.resetBlock where
  sourcePos := hwf
  errClear _ := ⟨rfl, rfl⟩
  errCode h := by simp at h
  queueSorted := List.Pairwise.nil
  queueCap := by simp
  tableSum h := by simp at h
  flagOrder := by simp
  nodesFree i _ := nodeAt_clear _ rfl i
  treeOfTable h := by simp at h
  codeTable h := by simp at h
  codeOfTree h := by simp at h
  codeLength b := by simp [codeAt_clear _ (State.resetBlock_code s) b]

theorem Inv.cut {s : State} (h : Inv s) : Inv s.resetBlock := .resetBlock h.sourcePos

/-! ### What one action can come to -/

/-- How an action can end the command: a port failure, or a hardware reset. -/
def CutShort (e : Error) (s t : State) : Prop := (∃ c, t = s.dropAnswer.enterFault e c) ∨ t = s.dropAnswer.resetBlock

theorem CutShort.inv {e : Error} {s t : State} (h : CutShort e s t) (he : e ≠ .notComparable) (hs : Inv s) : Inv t := by
  obtain ⟨c, rfl⟩ | rfl := h
  · exact hs.dropAnswer.enterFault he c
  · exact hs.dropAnswer.cut

theorem notify_ends (p : Phase) (s : State) :
    (notify p s).Ends (fun _ t => t = s.dropAnswer.appendPhase p) fun t => t = s.dropAnswer.resetBlock := by
  unfold notify request
  cases s.answer <;> simp

theorem srcRewind_ends (s : State) :
    (srcRewind s).Ends (fun _ t => t = s.dropAnswer.setPos 0) (CutShort .sourceIO s) := by
  unfold srcRewind request
  cases s.answer with
  | served => simp
  | failed c => simp only [raise_eq, Result.ends_ended]; exact .inl ⟨c, rfl⟩
  | reset => simp only [Result.ends_ended]; exact .inr rfl

theorem srcRead_ends (s : State) :
    (srcRead s).Ends
      (fun r t => (r = none ∧ s.src.data.length ≤ s.src.pos ∧ t = s.dropAnswer) ∨
        ∃ b, r = some b ∧ s.src.pos < s.src.data.length ∧ s.src.data[s.src.pos]? = some b ∧
          t = s.dropAnswer.setPos (s.src.pos + 1))
      (CutShort .sourceIO s) := by
  unfold srcRead request
  cases s.answer with
  | served =>
    dsimp only [State.dropAnswer_src]
    cases hb : s.src.data[s.src.pos]? with
    | none => simpa using hb
    | some b =>
      obtain ⟨h, -⟩ := List.getElem?_eq_some_iff.mp hb
      simp [h]
  | failed c => simp only [raise_eq, Result.ends_ended]; exact .inl ⟨c, rfl⟩
  | reset => simp only [Result.ends_ended]; exact .inr rfl

theorem snkWrite_ends (b : Byte) (s : State) :
    (snkWrite b s).Ends (fun _ t => t = s.dropAnswer.appendByte b) (CutShort .sinkIO s) := by
  unfold snkWrite request
  cases s.answer with
  | served => simp
  | failed c => simp only [raise_eq, Result.ends_ended]; exact .inl ⟨c, rfl⟩
  | reset => simp only [Result.ends_ended]; exact .inr rfl

end Sys2Proof.Machine
end

