-- ==== Sys2Proof/Laws/Counter.lean ====
section
/-! SUPPORT. COUNT: what its loop comes to in a quiet environment, and that it keeps the invariant in every environment. -/

namespace Sys2Proof.Machine

open Sys2Proof

/-- The bytes counted one after another. -/
def State.countBytes (bs : List Byte) (s : State) : State := bs.foldl (fun s b => s.countByte b) s

@[simp] theorem State.countBytes_nil (s : State) : s.countBytes [] = s := rfl

@[simp] theorem State.countBytes_cons (b : Byte) (bs : List Byte) (s : State) :
    s.countBytes (b :: bs) = (s.countByte b).countBytes bs := rfl

/-- Counting writes FREQ and TOTAL only. -/
theorem countBytes_eq (bs : List Byte) (s : State) :
    s.countBytes bs = { s with freq := (s.countBytes bs).freq, total := s.total + BitVec.ofNat 32 bs.length } := by
  induction bs generalizing s with
  | nil => simp
  | cons b bs ih =>
    rw [State.countBytes_cons, ih]
    simp only [State.countByte, State.setFreq, List.length_cons, State.mk.injEq, and_true, true_and]
    rw [BitVec.add_assoc, Nat.add_comm, BitVec.ofNat_add]
    rfl

theorem freqAt_countBytes (bs : List Byte) (s : State) (b : Byte) :
    (s.countBytes bs).freqAt b = s.freqAt b + BitVec.ofNat 32 (bs.count b) := by
  induction bs generalizing s with
  | nil => simp
  | cons c bs ih =>
    rw [State.countBytes_cons, ih, freqAt_countByte, List.count_cons]
    by_cases h : b = c
    · subst h
      simp only [beq_self_eq_true, if_true]
      rw [BitVec.add_assoc, Nat.add_comm, BitVec.ofNat_add]
      rfl
    · have : (c == b) = false := by simpa using fun e => h e.symm
      simp [h, this]

theorem setPos_countBytes (n : Nat) (bs : List Byte) (s : State) :
    (s.setPos n).countBytes bs = (s.countBytes bs).setPos n := by
  induction bs generalizing s with
  | nil => rfl
  | cons b bs ih => exact ih (s.countByte b)

theorem setPos_self (s : State) : s.setPos s.src.pos = s := rfl

/-- COUNT's loop in a quiet environment: the bytes that are left are counted, up to the largest length. -/
theorem countLoop_quiet (n : Nat) (s : State) (bs : List Byte) (h : Quiet s) (hb : s.src.data.drop s.src.pos = bs)
    (hp : s.src.pos ≤ s.src.data.length) (hn : bs.length < n) (ht : s.total.toNat + bs.length ≤ Config.maxLen) :
    countLoop n s = .done () ((s.countBytes bs).setPos s.src.data.length) := by
  induction n generalizing s bs with
  | zero => omega
  | succ n ih =>
    rw [countLoop, srcRead_quiet h]
    cases bs with
    | nil =>
      have hl : s.src.data.length ≤ s.src.pos := List.drop_eq_nil_iff.mp hb
      have he : s.src.data.length = s.src.pos := by omega
      rw [List.getElem?_eq_none hl]
      simp [he, setPos_self]
    | cons b bs =>
      have hlt : s.src.pos < s.src.data.length := by
        by_contra hc
        rw [List.drop_eq_nil_iff.mpr (by omega)] at hb
        simp at hb
      rw [List.drop_eq_getElem_cons hlt] at hb
      obtain ⟨hb1, hb2⟩ := List.cons.inj hb
      rw [List.getElem?_eq_getElem hlt, hb1]
      simp only [List.length_cons] at ht hn
      have htm : s.total.toNat < Config.maxLen := by omega
      simp only [Result.andThen_done, State.setPos_total, htm, decide_true, require_true]
      have hc : ((s.setPos (s.src.pos + 1)).countByte b).total.toNat = s.total.toNat + 1 := by
        simp only [State.countByte_total, State.setPos_total, BitVec.toNat_add]
        simp only [Config.maxLen] at htm
        simp
        omega
      rw [ih ((s.setPos (s.src.pos + 1)).countByte b) bs h (by simpa using hb2) (by simp; omega) (by omega)
        (by rw [hc]; omega)]
      simp only [State.countByte_src, State.setPos_src, State.countBytes_cons]
      rw [show (s.setPos (s.src.pos + 1)).countByte b = (s.countByte b).setPos (s.src.pos + 1) from rfl,
        setPos_countBytes]
      rfl

/-- COUNT on a source it accepts, in a quiet environment. -/
theorem countBody_quiet (s : State) (h : Quiet s) (hl : s.src.data.length ≤ Config.maxLen) :
    countBody s = .done ()
      ((((s.clearEngine.appendPhase .counting).setPos 0).countBytes s.src.data).setPos s.src.data.length).setFreqValid := by
  have h1 : Quiet s.clearEngine := h
  have h2 : Quiet (s.clearEngine.appendPhase .counting) := h
  have hloop := countLoop_quiet (s.src.data.length + 1) ((s.clearEngine.appendPhase .counting).setPos 0) s.src.data h rfl
    (Nat.zero_le _) (Nat.lt_succ_self _) (by show 0 + _ ≤ _; rwa [Nat.zero_add])
  rw [countBody, notify_quiet h1, Result.andThen_done, srcRewind_quiet h2, Result.andThen_done]
  show (countLoop (s.src.data.length + 1) _).andThen _ = _
  rw [hloop]
  rfl

/-- COUNT's loop on a source that is too long: LengthOverflowError at the byte after the last one that can be counted
(40_frequency_counter.md R64, 60_exceptions.md R127). -/
theorem countLoop_overflow (n : Nat) (s : State) (h : Quiet s)
    (hn : s.remaining < n) (ht : s.total.toNat ≤ Config.maxLen)
    (ho : Config.maxLen < s.total.toNat + s.remaining) :
    countLoop n s = .ended ((((s.countBytes ((s.src.data.drop s.src.pos).take (Config.maxLen - s.total.toNat))).setPos
      (s.src.pos + (Config.maxLen - s.total.toNat) + 1))).enterFault .lengthOverflow 0) := by
  induction n generalizing s with
  | zero => omega
  | succ n ih =>
    simp only [State.remaining] at hn ho
    have hlt : s.src.pos < s.src.data.length := by omega
    rw [countLoop, srcRead_quiet h, List.getElem?_eq_getElem hlt]
    simp only [Result.andThen_done, State.setPos_total]
    by_cases htm : s.total.toNat < Config.maxLen
    · simp only [htm, decide_true, require_true, Result.andThen_done]
      have hc : ((s.setPos (s.src.pos + 1)).countByte s.src.data[s.src.pos]).total.toNat = s.total.toNat + 1 := by
        simp only [State.countByte_total, State.setPos_total, BitVec.toNat_add]
        simp only [Config.maxLen] at htm
        simp
        omega
      rw [ih ((s.setPos (s.src.pos + 1)).countByte s.src.data[s.src.pos]) h
        (by simp only [State.remaining, State.countByte_src, State.setPos_src]; omega) (by rw [hc]; omega)
        (by rw [hc]; simp only [State.remaining, State.countByte_src, State.setPos_src]; omega)]
      rw [hc]
      obtain ⟨k, hk⟩ : ∃ k, Config.maxLen - s.total.toNat = k + 1 := ⟨Config.maxLen - s.total.toNat - 1, by omega⟩
      have hk' : Config.maxLen - (s.total.toNat + 1) = k := by omega
      rw [hk', hk]
      simp only [State.countByte_src, State.setPos_src]
      rw [List.drop_eq_getElem_cons hlt, List.take_succ_cons, State.countBytes_cons]
      rw [show (s.setPos (s.src.pos + 1)).countByte s.src.data[s.src.pos] =
        (s.countByte s.src.data[s.src.pos]).setPos (s.src.pos + 1) from rfl, setPos_countBytes]
      rw [show s.src.pos + (k + 1) + 1 = s.src.pos + 1 + k + 1 by omega]
      rfl
    · have h0 : Config.maxLen - s.total.toNat = 0 := by omega
      simp [htm, h0]

/-- What COUNT's loop keeps: the invariant, an invalid table, and the sum of the counts. -/
def Counting (s : State) : Prop := Inv s ∧ s.freqValid = false ∧ s.freqSum = s.total.toNat

theorem Counting.same {s t : State} (h : Counting s) (hi : Inv t) (k : SameTables s t) : Counting t :=
  ⟨hi, k.freqValid ▸ h.2.1, by rw [freqSum_congr k.freq, k.total]; exact h.2.2⟩

theorem Counting.countByte {s : State} (h : Counting s) (b : Byte) (ht : s.total.toNat < Config.maxLen) :
    Counting (s.countByte b) := by
  obtain ⟨hi, hv, hs⟩ := h
  have hd : s.treeDone = false := by
    by_contra hc
    simp [hi.flagOrder.2 (by simpa using hc)] at hv
  have hcv : s.codeValid = false := by
    by_contra hc
    simp [hi.flagOrder.1 (by simpa using hc)] at hd
  refine ⟨?_, hv, ?_⟩
  · exact {
      sourcePos := hi.sourcePos
      errClear := hi.errClear
      errCode := hi.errCode
      queueSorted := hi.queueSorted
      queueCap := hi.queueCap
      tableSum := fun h => by simp [hv] at h
      flagOrder := hi.flagOrder
      nodesFree := hi.nodesFree
      treeOfTable := fun h => by simp [hd] at h
      codeTable := fun h => by simp [hcv] at h
      codeOfTree := fun h => by simp [hcv] at h
      codeLength := hi.codeLength }
  · have hle := freqAt_le_freqSum s b
    have := freqSum_setFreq s b (s.freqAt b + 1)
    rw [freqSum_congr (s := s.countByte b) (t := s.setFreq b (s.freqAt b + 1)) rfl]
    simp only [State.countByte_total, BitVec.toNat_add] at this ⊢
    simp only [Config.maxLen] at ht
    simp at this ⊢
    omega

theorem countLoop_ends (n : Nat) (s : State) (hn : s.remaining < n) (h : Counting s) :
    (countLoop n s).Ends (fun _ t => Counting t) Inv := by
  induction n generalizing s with
  | zero => omega
  | succ n ih =>
    rw [countLoop]
    refine ((srcRead_ends s).mono (fun _ _ h => h) fun t ht => ht.inv (by simp) h.1).andThen fun r t ht => ?_
    obtain ⟨rfl, -, rfl⟩ | ⟨b, rfl, hlt, -, rfl⟩ := ht
    · exact ⟨h.same h.1.dropAnswer (.dropAnswer s)⟩
    · have hi : Inv (s.dropAnswer.setPos (s.src.pos + 1)) := h.1.dropAnswer.setPos hlt
      have hc : Counting (s.dropAnswer.setPos (s.src.pos + 1)) :=
        h.same hi ((SameTables.dropAnswer s).trans (.setPos _ _))
      by_cases htm : (s.dropAnswer.setPos (s.src.pos + 1)).total.toNat < Config.maxLen
      · simp only [htm, decide_true, require_true, Result.andThen_done]
        refine ih _ ?_ (hc.countByte b htm)
        simp only [State.remaining, State.countByte_src, State.setPos_src, State.dropAnswer_src] at hn ⊢
        omega
      · simp only [htm, decide_false, require_false, Result.andThen_ended]
        exact ⟨hi.enterFault (by simp) 0⟩

/-- COUNT ends, and keeps the invariant, in every environment. -/
theorem countBody_ends (s : State) (h : Inv s) : (countBody s).Ends (fun _ t => Inv t ∧ t.freqValid = true) Inv := by
  have hc : Counting s.clearEngine := ⟨h.clear, rfl, by rw [freqSum_eq_zero _ rfl]; rfl⟩
  refine ((notify_ends _ _).mono (fun _ _ h => h) fun t ht => ht ▸ h.clear.dropAnswer.cut).andThen ?_
  rintro _ t rfl
  have hc1 := hc.same (h.clear.dropAnswer.appendPhase .counting)
    ((SameTables.dropAnswer _).trans (.appendPhase _ _))
  refine ((srcRewind_ends _).mono (fun _ _ h => h) fun t ht => ht.inv (by simp) hc1.1).andThen ?_
  rintro _ t rfl
  have hc2 := hc1.same (hc1.1.dropAnswer.setPos (Nat.zero_le _)) ((SameTables.dropAnswer _).trans (.setPos _ _))
  refine (countLoop_ends _ _ (Nat.lt_succ_self _) hc2).andThen fun _ t ht => ⟨?_, rfl⟩
  obtain ⟨hi, hv, hs⟩ := ht
  have hd : t.treeDone = false := by
    by_contra hc
    simp [hi.flagOrder.2 (by simpa using hc)] at hv
  have hcv : t.codeValid = false := by
    by_contra hc
    simp [hi.flagOrder.1 (by simpa using hc)] at hd
  exact {
    sourcePos := hi.sourcePos
    errClear := hi.errClear
    errCode := hi.errCode
    queueSorted := hi.queueSorted
    queueCap := hi.queueCap
    tableSum := fun _ => hs
    flagOrder := by simp [hd, hcv]
    nodesFree := hi.nodesFree
    treeOfTable := fun h => by simp [hd] at h
    codeTable := fun h => by simp [hcv] at h
    codeOfTree := fun h => by simp [hcv] at h
    codeLength := hi.codeLength }

end Sys2Proof.Machine
end

