-- ==== Sys2Proof/Laws/Build.lean ====
section
/-! SUPPORT. BUILD: the forest that queue and node store hold while the tree is built, what seeding and merging do to it, and the
tree that is left (42_tree_builder.md R76 to R79). -/

namespace Sys2Proof.Machine

open Sys2Proof

/-- Index `i` of the node store holds the tree `T`, every child below its parent (10_state.md R23). -/
def Denotes (s : State) : Tree → NodeIdx → Prop
  | .leaf b w, i => s.nodeAt i = .leaf b w
  | .internal w tl tr, i =>
    ∃ l r, s.nodeAt i = .internal w l r ∧ l.toNat < i.toNat ∧ r.toNat < i.toNat ∧ Denotes s tl l ∧ Denotes s tr r

theorem Denotes.extend {s t : State} {T : Tree} {i : NodeIdx} (h : Denotes s T i)
    (k : ∀ j : NodeIdx, j.toNat ≤ i.toNat → t.nodeAt j = s.nodeAt j) : Denotes t T i := by
  induction T generalizing i with
  | leaf b w => exact (k i le_rfl).trans h
  | internal w tl tr ihl ihr =>
    obtain ⟨l, r, hn, hl, hr, dl, dr⟩ := h
    exact ⟨l, r, (k i le_rfl).trans hn, hl, hr, ihl dl fun j hj => k j (by omega), ihr dr fun j hj => k j (by omega)⟩

/-- The walk of rule R23 finds the tree that an index holds. -/
theorem Denotes.treeAt {s : State} {T : Tree} {i : NodeIdx} (h : Denotes s T i) {n : Nat} (hn : i.toNat < n) :
    treeAt s n i = some T := by
  induction T generalizing i n with
  | leaf b w =>
    obtain ⟨n, rfl⟩ : ∃ m, n = m + 1 := ⟨n - 1, by omega⟩
    simp only [Machine.treeAt, show s.nodeAt i = .leaf b w from h]
  | internal w tl tr ihl ihr =>
    obtain ⟨n, rfl⟩ : ∃ m, n = m + 1 := ⟨n - 1, by omega⟩
    obtain ⟨l, r, hi, hl, hr, dl, dr⟩ := h
    simp only [Machine.treeAt, hi, ihl dl (by omega : l.toNat < n), ihr dr (by omega : r.toNat < n)]

/-! ### The forest -/

/-- Queue and node store hold these trees, one for each item, front first. -/
structure Forest (s : State) (zs : List (Item × Tree)) : Prop where
  pq : s.pq = zs.map Prod.fst
  sorted : SortedQueue s.pq
  denotes : ∀ z ∈ zs, Denotes s z.2 z.1.tag
  below : ∀ z ∈ zs, z.1.tag.toNat < s.nnodes.toNat
  weight : ∀ z ∈ zs, z.2.weight = z.1.weight
  adds : ∀ z ∈ zs, z.2.weightsAdd = true
  leaves : ∀ z ∈ zs, z.2.leavesCount s = true
  free : ∀ i : NodeIdx, s.nnodes.toNat ≤ i.toNat → s.nodeAt i = Node.zero

/-- The weights of a forest, added up. -/
def forestWeight (zs : List (Item × Tree)) : Nat := (zs.map fun z => z.1.weight.toNat).sum

/-- The symbols of a forest. -/
def forestSymbols (zs : List (Item × Tree)) : List Byte := zs.flatMap fun z => z.2.symbols

theorem forestWeight_perm {zs zs' : List (Item × Tree)} (h : zs.Perm zs') : forestWeight zs = forestWeight zs' :=
  (h.map _).sum_eq

theorem forestSymbols_perm {zs zs' : List (Item × Tree)} (h : zs.Perm zs') :
    (forestSymbols zs).Perm (forestSymbols zs') := List.Perm.flatMap_right _ h

/-- What the tree builder writes while it seeds and merges. -/
def Builds (s t : State) : Prop := ∃ nd nn q, t = { s with node := nd, nnodes := nn, pq := q }

theorem Builds.refl (s : State) : Builds s s := ⟨s.node, s.nnodes, s.pq, rfl⟩

theorem Builds.trans {s t u : State} (h : Builds s t) (k : Builds t u) : Builds s u := by
  obtain ⟨_, _, _, rfl⟩ := h
  obtain ⟨nd, nn, q, rfl⟩ := k
  exact ⟨nd, nn, q, rfl⟩

/-- The entries below NNODES stay. -/
def Keeps (s t : State) : Prop := ∀ i : NodeIdx, i.toNat < s.nnodes.toNat → t.nodeAt i = s.nodeAt i

theorem toNat_succ_idx {x : BitVec 9} (h : x.toNat < 511) : (x + 1).toNat = x.toNat + 1 := by
  simp only [BitVec.toNat_add]
  simp
  omega

/-- The state after a node has been added. -/
def addedNode (n : Node) (s : State) : State :=
  ((s.writeNode n).setPq (insertItem ⟨n.weight, s.nnodes⟩ s.pq)).bumpNNodes

theorem addNode_eq (n : Node) (s : State) (h : s.pq.length < 256) : addNode n s = .done () (addedNode n s) := by
  simp [addNode, pqInsert, addedNode, h]

theorem addedNode_builds (n : Node) (s : State) : Builds s (addedNode n s) := ⟨_, _, _, rfl⟩

theorem nodeAt_addedNode (n : Node) (s : State) (h : s.nnodes.toNat < 511) (i : NodeIdx) :
    (addedNode n s).nodeAt i = if i = s.nnodes then n else s.nodeAt i := nodeAt_writeNode s n i h

theorem addedNode_keeps (n : Node) (s : State) (h : s.nnodes.toNat < 511) : Keeps s (addedNode n s) := by
  intro i hi
  rw [nodeAt_addedNode n s h, if_neg]
  rintro rfl
  omega

/-- The trees of a forest stand in the order of the queue, so a tree that joins it goes where its item goes. -/
theorem Forest.insertTree {s : State} {zs : List (Item × Tree)} (h : Forest s zs) (z : Item × Tree)
    (hw : z.2.weight = z.1.weight) :
    let k := s.pq.countP fun x => decide (x.weight.toNat ≤ z.1.weight.toNat)
    (zs.take k ++ [z] ++ zs.drop k).map Prod.snd = Machine.insertTree z.2 (zs.map Prod.snd) := by
  intro k
  have hcongr : ∀ y ∈ zs, y.1.weight = y.2.weight := fun y hy => (h.weight y hy).symm
  have hk : k = (zs.map Prod.snd).countP fun x => decide (x.weight.toNat ≤ z.1.weight.toNat) := by
    simp only [k, h.pq, List.countP_map]
    refine List.countP_congr fun y hy => ?_
    simp [hcongr y hy]
  have hsort : (zs.map Prod.snd).Pairwise fun a b => a.weight.toNat ≤ b.weight.toNat := by
    have hs := h.sorted
    rw [h.pq, SortedQueue, List.pairwise_map] at hs
    rw [List.pairwise_map]
    refine hs.imp_of_mem fun ha hb hab => ?_
    rw [← hcongr _ ha, ← hcongr _ hb]
    exact hab
  obtain ⟨h1, h2⟩ := take_countP_of_key (fun x : Tree => x.weight.toNat) hsort z.1.weight.toNat
  rw [← hk] at h1 h2
  simp only [List.map_append, List.map_take, List.map_drop, List.map_cons, List.map_nil, h1, h2, Machine.insertTree, hw]

/-- Adding a node adds its tree to the forest. -/
theorem Forest.addedNode {s : State} {zs : List (Item × Tree)} (h : Forest s zs) (n : Node) (T : Tree)
    (hnn : s.nnodes.toNat < 511) (hT : Denotes (addedNode n s) T s.nnodes) (hw : T.weight = n.weight)
    (ha : T.weightsAdd = true) (hl : T.leavesCount s = true) :
    ∃ zs', Forest (Machine.addedNode n s) zs' ∧ zs'.Perm ((⟨n.weight, s.nnodes⟩, T) :: zs) ∧
      zs'.map Prod.snd = Machine.insertTree T (zs.map Prod.snd) := by
  have hsucc : (Machine.addedNode n s).nnodes.toNat = s.nnodes.toNat + 1 := toNat_succ_idx hnn
  let z : Item × Tree := (⟨n.weight, s.nnodes⟩, T)
  let k := s.pq.countP fun x => decide (x.weight.toNat ≤ n.weight.toNat)
  have hperm : (zs.take k ++ [z] ++ zs.drop k).Perm (z :: zs) := by
    simp only [List.append_assoc, List.singleton_append]
    exact List.perm_middle.trans (by rw [List.take_append_drop])
  have hmem : ∀ y ∈ zs.take k ++ [z] ++ zs.drop k, y = z ∨ y ∈ zs := fun y hy =>
    List.mem_cons.mp (hperm.subset hy)
  refine ⟨zs.take k ++ [z] ++ zs.drop k, ?_, hperm, h.insertTree z hw⟩
  constructor
  · show insertItem ⟨n.weight, s.nnodes⟩ s.pq = _
    simp only [insertItem, List.map_append, List.map_take, List.map_drop, ← h.pq, List.map_cons, List.map_nil, z, k]
  · exact h.sorted.insertItem _
  · intro y hy
    obtain rfl | hy := hmem y hy
    · exact hT
    · have hb := h.below y hy
      exact (h.denotes y hy).extend fun j hj => addedNode_keeps n s hnn j (by omega)
  · intro y hy
    rw [hsucc]
    obtain rfl | hy := hmem y hy
    · exact Nat.lt_succ_self _
    · exact Nat.lt_succ_of_lt (h.below y hy)
  · intro y hy
    obtain rfl | hy := hmem y hy
    · exact hw
    · exact h.weight y hy
  · intro y hy
    obtain rfl | hy := hmem y hy
    · exact ha
    · exact h.adds y hy
  · intro y hy
    obtain rfl | hy := hmem y hy
    · exact Tree.leavesCount_of hl rfl
    · exact Tree.leavesCount_of (h.leaves y hy) rfl
  · intro i hi
    rw [hsucc] at hi
    rw [nodeAt_addedNode n s hnn, if_neg (by rintro rfl; omega)]
    exact h.free i (by omega)

/-! ### Seeding -/

/-- The symbols of a list that are present (R76: `FREQ[b] > 0`). -/
def State.presentIn (s : State) (bs : List Byte) : List Byte := bs.filter fun b => decide (0 < (s.freqAt b).toNat)

theorem seedLoop_spec (bs : List Byte) (s : State) (zs : List (Item × Tree)) (h : Forest s zs)
    (hlen : zs.length = s.nnodes.toNat) (hcap : zs.length + (s.presentIn bs).length ≤ 256) :
    ∃ t zs', seedLoop bs s = .done () t ∧ Builds s t ∧ Keeps s t ∧ Forest t zs' ∧
      zs'.length = zs.length + (s.presentIn bs).length ∧ zs'.length = t.nnodes.toNat ∧
      (forestSymbols zs').Perm (forestSymbols zs ++ s.presentIn bs) ∧
      forestWeight zs' = forestWeight zs + (bs.map fun b => (s.freqAt b).toNat).sum ∧
      zs'.map Prod.snd = (s.presentIn bs).foldl (fun q b => insertTree (.leaf b (s.freqAt b)) q) (zs.map Prod.snd) ∧
      ∀ j, (hj : j < (s.presentIn bs).length) → t.nodeAt (BitVec.ofNat 9 (s.nnodes.toNat + j)) =
        .leaf ((s.presentIn bs)[j]) (s.freqAt ((s.presentIn bs)[j])) := by
  induction bs generalizing s zs with
  | nil => exact ⟨s, zs, rfl, .refl s, fun _ _ => rfl, h, by simp [State.presentIn], hlen, by simp [State.presentIn],
      by simp, rfl, by simp [State.presentIn]⟩
  | cons b bs ih =>
    rw [seedLoop]
    by_cases hb : 0 < (s.freqAt b).toNat
    · have hp : s.presentIn (b :: bs) = b :: s.presentIn bs := by simp [State.presentIn, hb]
      rw [hp] at hcap ⊢
      simp only [List.length_cons] at hcap
      have hnn : s.nnodes.toNat < 511 := by omega
      have hq : s.pq.length < 256 := by rw [h.pq, List.length_map]; omega
      let n : Node := .leaf b (s.freqAt b)
      obtain ⟨zs1, h1, hperm1, htrees1⟩ := h.addedNode n (.leaf b (s.freqAt b)) hnn
        (by simp [Denotes, nodeAt_addedNode _ _ hnn, n]) rfl rfl (by simp [Tree.leavesCount])
      have hs1 : (Machine.addedNode n s).nnodes.toNat = s.nnodes.toNat + 1 := toNat_succ_idx hnn
      have hl1 : zs1.length = zs.length + 1 := hperm1.length_eq
      have hpres : (Machine.addedNode n s).presentIn bs = s.presentIn bs := rfl
      obtain ⟨t, zs', he, hB, hK, hF, hl, hn', hsym, hwt, htrees, hnodes⟩ :=
        ih (Machine.addedNode n s) zs1 h1 (by omega) (by rw [hpres]; omega)
      rw [hpres] at hl hsym htrees hnodes
      rw [if_pos hb, addNode_eq _ _ hq, Result.andThen_done, he]
      refine ⟨t, zs', rfl, (addedNode_builds n s).trans hB, ?_, hF, by simp only [List.length_cons]; omega, hn', ?_, ?_, ?_, ?_⟩
      · intro i hi
        rw [hK i (by omega), addedNode_keeps n s hnn i hi]
      · refine hsym.trans ?_
        have hp1 : (forestSymbols zs1).Perm (b :: forestSymbols zs) := by
          simpa [forestSymbols, Tree.symbols] using forestSymbols_perm hperm1
        exact (hp1.append_right _).trans List.perm_middle.symm
      · rw [hwt, forestWeight_perm hperm1]
        have : (bs.map fun c => ((Machine.addedNode n s).freqAt c).toNat) = bs.map fun c => (s.freqAt c).toNat := rfl
        rw [this]
        simp only [forestWeight, List.map_cons, List.sum_cons, Node.weight, n]
        omega
      · rw [htrees, htrees1, List.foldl_cons]
        rfl
      · intro j hj
        cases j with
        | zero =>
          rw [hK _ (by simp [hs1])]
          simp [nodeAt_addedNode _ _ hnn, n]
        | succ j =>
          have := hnodes j (by simpa using hj)
          rw [hs1] at this
          simp only [List.getElem_cons_succ]
          rw [show s.nnodes.toNat + (j + 1) = s.nnodes.toNat + 1 + j by omega, this]
          rfl
    · have hp : s.presentIn (b :: bs) = s.presentIn bs := by simp [State.presentIn, hb]
      rw [hp] at hcap ⊢
      rw [if_neg hb]
      obtain ⟨t, zs', he, hB, hK, hF, hl, hn', hsym, hwt, htrees, hnodes⟩ := ih s zs h hlen hcap
      refine ⟨t, zs', he, hB, hK, hF, hl, hn', hsym, ?_, htrees, hnodes⟩
      rw [hwt, List.map_cons, List.sum_cons]
      omega

/-! ### Merging -/

theorem mergeLoop_spec (n : Nat) (s : State) (zs : List (Item × Tree)) (h : Forest s zs) (hn : zs.length < n + 1)
    (hn0 : 0 < n) (hcap : zs.length ≤ 256) (hnn : s.nnodes.toNat + (zs.length - 1) ≤ 511)
    (hw : forestWeight zs ≤ Config.maxLen) (hroot : ∀ z, zs = [z] → z.1.tag.toNat + 1 = s.nnodes.toNat) :
    ∃ t zs', mergeLoop n s = .done () t ∧ Builds s t ∧ Keeps s t ∧ Forest t zs' ∧
      zs'.length = min 1 zs.length ∧ t.nnodes.toNat = s.nnodes.toNat + (zs.length - 1) ∧
      (forestSymbols zs').Perm (forestSymbols zs) ∧ forestWeight zs' = forestWeight zs ∧
      mergeTrees n (zs.map Prod.snd) = (zs'.map Prod.snd).head? ∧
      ∀ z, zs' = [z] → z.1.tag.toNat + 1 = t.nnodes.toNat := by
  induction n generalizing s zs with
  | zero => omega
  | succ n ih =>
    rw [mergeLoop]
    have hsize : pqSize s = zs.length := by rw [pqSize, h.pq, List.length_map]
    rw [hsize]
    match zs with
    | [] => exact ⟨s, [], by simp, .refl s, fun _ _ => rfl, h, by simp, by simp, .rfl, rfl, by simp [mergeTrees], by simp⟩
    | [z] => exact ⟨s, [z], by simp, .refl s, fun _ _ => rfl, h, by simp, by simp, .rfl, rfl, by simp [mergeTrees], hroot⟩
    | z1 :: z2 :: zs =>
      simp only [List.length_cons] at hn hcap hnn ⊢
      have hq : s.pq = z1.1 :: z2.1 :: zs.map Prod.fst := by simpa using h.pq
      have hwsum : z1.1.weight.toNat + z2.1.weight.toNat + forestWeight zs ≤ Config.maxLen := by
        simpa [forestWeight, Nat.add_assoc] using hw
      have hle : z1.1.weight.toNat + z2.1.weight.toNat ≤ Config.maxLen := by omega
      have hadd : (z1.1.weight + z2.1.weight).toNat = z1.1.weight.toNat + z2.1.weight.toNat := by
        simp only [BitVec.toNat_add]
        simp only [Config.maxLen] at hle
        omega
      have hgt : zs.length + 1 + 1 > 1 := by omega
      -- the state after the two pops
      let s2 : State := s.setPq (zs.map Prod.fst)
      have hF2 : Forest s2 zs := by
        refine ⟨rfl, ?_, fun z hz => ?_, fun z hz => h.below z (by simp [hz]), fun z hz => h.weight z (by simp [hz]),
          fun z hz => h.adds z (by simp [hz]), fun z hz => ?_, h.free⟩
        · have := h.sorted
          rw [hq] at this
          exact this.tail.tail
        · exact (h.denotes z (by simp [hz])).extend fun _ _ => rfl
        · exact Tree.leavesCount_of (h.leaves z (by simp [hz])) rfl
      have hpop1 : pqPopMin s = .done z1.1 (s.setPq (z2.1 :: zs.map Prod.fst)) := by simp [pqPopMin, hq]
      have hpop2 : pqPopMin (s.setPq (z2.1 :: zs.map Prod.fst)) = .done z2.1 s2 := rfl
      rw [if_pos hgt, hpop1, Result.andThen_done, hpop2, Result.andThen_done, if_pos hle]
      let w := z1.1.weight + z2.1.weight
      let node : Node := .internal w z2.1.tag z1.1.tag
      let T : Tree := .internal w z2.2 z1.2
      have hnn2 : s2.nnodes.toNat < 511 := by show s.nnodes.toNat < 511; omega
      have b1 := h.below z1 (by simp)
      have b2 := h.below z2 (by simp)
      have hT : Denotes (Machine.addedNode node s2) T s2.nnodes := by
        refine ⟨z2.1.tag, z1.1.tag, by simp [nodeAt_addedNode _ _ hnn2, node], b2, b1, ?_, ?_⟩
        · exact (h.denotes z2 (by simp)).extend fun j hj => addedNode_keeps node s2 hnn2 j
            (lt_of_le_of_lt hj b2)
        · exact (h.denotes z1 (by simp)).extend fun j hj => addedNode_keeps node s2 hnn2 j
            (lt_of_le_of_lt hj b1)
      have ha : T.weightsAdd = true := by
        simp only [Tree.weightsAdd, T, h.weight z1 (by simp), h.weight z2 (by simp), h.adds z1 (by simp),
          h.adds z2 (by simp), Bool.and_true, decide_eq_true_eq, w, hadd]
        omega
      have hl : T.leavesCount s2 = true := by
        simp only [Tree.leavesCount, T, Bool.and_eq_true]
        exact ⟨Tree.leavesCount_of (h.leaves z2 (by simp)) rfl, Tree.leavesCount_of (h.leaves z1 (by simp)) rfl⟩
      obtain ⟨zs1, h1, hperm1, htrees1⟩ := hF2.addedNode node T hnn2 hT rfl ha hl
      have hl1 : zs1.length = zs.length + 1 := hperm1.length_eq
      have hs1 : (Machine.addedNode node s2).nnodes.toNat = s.nnodes.toNat + 1 := toNat_succ_idx hnn2
      have hq2 : s2.pq.length < 256 := by show (zs.map Prod.fst).length < 256; rw [List.length_map]; omega
      have hw1 : forestWeight zs1 = forestWeight (z1 :: z2 :: zs) := by
        rw [forestWeight_perm hperm1]
        simp only [forestWeight, List.map_cons, List.sum_cons, node, Node.weight, w, hadd]
        omega
      have hsym1 : (forestSymbols zs1).Perm (forestSymbols (z1 :: z2 :: zs)) := by
        refine (forestSymbols_perm hperm1).trans ?_
        simp only [forestSymbols, List.flatMap_cons, Tree.symbols, T]
        rw [← List.append_assoc]
        exact (List.perm_append_comm).append_right _
      have hroot1 : ∀ z, zs1 = [z] → z.1.tag.toNat + 1 = (Machine.addedNode node s2).nnodes.toNat := by
        rintro z rfl
        have hz : zs = [] := List.length_eq_zero_iff.mp (by rw [List.length_singleton] at hl1; omega)
        subst hz
        have := List.perm_singleton.mp hperm1.symm
        simp only [List.cons.injEq, and_true] at this
        rw [← this, hs1]
        rfl
      rw [addNode_eq _ _ hq2, Result.andThen_done]
      obtain ⟨t, zs', he, hB, hK, hF, hlen, hnt, hsym, hwt, htrees, hr⟩ :=
        ih (Machine.addedNode node s2) zs1 h1 (by omega) (by omega) (by omega) (by rw [hs1]; omega) (by rw [hw1]; exact hw)
          hroot1
      refine ⟨t, zs', he, ?_, ?_, hF, ?_, ?_, hsym.trans hsym1, hwt.trans hw1, ?_, hr⟩
      · have hB2 : Builds s s2 := ⟨_, _, _, rfl⟩
        exact (hB2.trans (addedNode_builds node s2)).trans hB
      · intro i hi
        rw [hK i (by omega), addedNode_keeps node s2 hnn2 i hi]
        rfl
      · rw [hlen, hl1]
        omega
      · rw [hnt, hs1, hl1]
        omega
      · rw [← htrees, htrees1]
        simp only [List.map_cons, mergeTrees, T, w, h.weight z1 (by simp), h.weight z2 (by simp)]

/-! ### The whole of BUILD -/

/-- BUILD after its notification. -/
def buildCore (s : State) : Result Unit :=
  (seedLoop symbols s.startBuild).andThen fun _ s =>
  (mergeLoop Config.pqCap s.recordNDist).andThen fun _ s =>
  (takeRoot s).andThen fun _ s =>
  .done () s.setTreeDone

theorem buildBody_eq (s : State) : buildBody s =
    (requireFlags s.freqValid (opc .build) s).andThen fun _ s =>
    (notify .buildingTree s).andThen fun _ s => buildCore s := rfl

/-- What BUILD writes, and the order of the leaves (R79). -/
structure Built (s t : State) : Prop where
  frame : ∃ nd nn dist rv ri, t = { s with
    node := nd, nnodes := nn, ndist := dist, rootValid := rv, rootIdx := ri
    code := Vector.replicate 256 [], pq := [], treeDone := true, codeValid := false }
  tree : TreeOfTable t
  treeEq : t.tree = s.tableTree
  free : ∀ i : NodeIdx, t.nnodes.toNat ≤ i.toNat → t.nodeAt i = Node.zero
  leaves : ∀ j, (hj : j < s.present.length) →
    t.nodeAt (BitVec.ofNat 9 j) = .leaf (s.present[j]) (s.freqAt (s.present[j]))

/-- Where the counts add up to no more than the largest length, BUILD ends, with the tree of the table (R76, R78). -/
theorem buildCore_spec (s : State) (hsum : s.freqSum ≤ Config.maxLen) : ∃ t, buildCore s = .done () t ∧ Built s t := by
  have hF0 : Forest s.startBuild [] :=
    ⟨rfl, List.Pairwise.nil, by simp, by simp, by simp, by simp, by simp, fun i _ => nodeAt_clear _ rfl i⟩
  have hpres : s.startBuild.presentIn symbols = s.present := rfl
  have hcap := present_length_le s
  obtain ⟨t1, zs1, he1, ⟨nd1, nn1, q1, rfl⟩, -, hF1, hl1, hn1, hsym1, hw1, htrees1, hnodes1⟩ :=
    seedLoop_spec symbols s.startBuild [] hF0 rfl (by rw [hpres]; simpa using hcap)
  rw [hpres] at hl1 hsym1 htrees1 hnodes1
  have htrees1' : zs1.map Prod.snd = s.seedTrees := htrees1
  simp only [List.length_nil, Nat.zero_add] at hl1
  have hw1' : forestWeight zs1 = s.freqSum := by
    rw [hw1]
    show 0 + _ = _
    rw [Nat.zero_add]
    rfl
  have hF1' : Forest ({ s.startBuild with node := nd1, nnodes := nn1, pq := q1 } : State).recordNDist zs1 :=
    ⟨hF1.pq, hF1.sorted, fun z hz => (hF1.denotes z hz).extend fun _ _ => rfl, hF1.below, hF1.weight, hF1.adds,
      fun z hz => Tree.leavesCount_of (hF1.leaves z hz) rfl, hF1.free⟩
  have hn1' : nn1.toNat = zs1.length := hn1.symm
  obtain ⟨t2, zs2, he2, ⟨nd2, nn2, q2, rfl⟩, hK2, hF2, hl2, hn2, hsym2, hw2, htrees2, hroot2⟩ :=
    mergeLoop_spec 256 _ zs1 hF1' (by omega) (by omega) (by omega)
      (by show nn1.toNat + _ ≤ 511; omega) (by omega)
      (by
        rintro z rfl
        have := hF1.below z (by simp)
        show z.1.tag.toNat + 1 = nn1.toNat
        have hb : z.1.tag.toNat < nn1.toNat := this
        simp at hn1'
        omega)
  rw [htrees1'] at htrees2
  have hn2' : nn2.toNat = nn1.toNat + (zs1.length - 1) := hn2
  rw [buildCore, he1, Result.andThen_done, show Config.pqCap = 256 from rfl, he2, Result.andThen_done]
  have hq2 : q2 = zs2.map Prod.fst := hF2.pq
  have hleaf : ∀ t : State, t.node = nd2 → ∀ j, (hj : j < s.present.length) →
      t.nodeAt (BitVec.ofNat 9 j) = .leaf (s.present[j]) (s.freqAt (s.present[j])) := by
    intro t ht j hj
    have hjn : (BitVec.ofNat 9 j).toNat = j := by
      rw [BitVec.toNat_ofNat, Nat.mod_eq_of_lt (by omega)]
    have h1 := hK2 (BitVec.ofNat 9 j) (by rw [hjn]; show j < nn1.toNat; omega)
    have h2 := hnodes1 j hj
    have h3 : s.startBuild.nnodes.toNat = 0 := rfl
    rw [h3, Nat.zero_add] at h2
    have h4 : ({ s.startBuild with node := nd1, nnodes := nn1, pq := q1 } : State).recordNDist.nodeAt (BitVec.ofNat 9 j) =
      ({ s.startBuild with node := nd1, nnodes := nn1, pq := q1 } : State).nodeAt (BitVec.ofNat 9 j) := rfl
    exact (nodeAt_congr ht _).trans ((h1.trans h4).trans h2)
  match zs2, hl2 with
  | [], hl2 =>
    have hz : zs1.length = 0 := by rw [List.length_nil] at hl2; omega
    have hp : s.present = [] := List.length_eq_zero_iff.mp (by omega)
    have hnn1 : nn1 = 0 := BitVec.eq_of_toNat_eq (by simp; omega)
    have hnn2 : nn2 = 0 := BitVec.eq_of_toNat_eq (by simp; omega)
    subst hnn1 hnn2
    simp only [List.map_nil] at hq2
    subst hq2
    refine ⟨_, rfl, ⟨⟨nd2, 0, 0, false, 0, rfl⟩, ⟨?_, fun _ => ⟨rfl, rfl, rfl⟩, fun h => ?_⟩, ?_, hF2.free, hleaf _ rfl⟩⟩
    · show 0 = s.present.length
      rw [hp]
      rfl
    · exact absurd (show s.present = [] from hp) h
    · exact htrees2.symm
  | [z], hl2 =>
    have hz : 0 < zs1.length := by rw [List.length_singleton] at hl2; omega
    have hp : s.present ≠ [] := fun h => by rw [h, List.length_nil] at hl1; omega
    simp only [List.map_cons, List.map_nil] at hq2
    subst hq2
    have hr : z.1.tag.toNat + 1 = nn2.toNat := hroot2 z rfl
    have htree : ∀ t : State, t.node = nd2 → t.rootValid = true → t.rootIdx = z.1.tag → t.tree = some z.2 := by
      intro t h1 h2 h3
      have hd : Denotes t z.2 z.1.tag := (hF2.denotes z (by simp)).extend fun i _ => nodeAt_congr h1 i
      rw [State.tree, h2, h3, if_pos rfl]
      have hlt : z.1.tag.toNat < 511 := by omega
      exact hd.treeAt hlt
    refine ⟨_, rfl, ⟨⟨nd2, nn2, nn1, true, z.1.tag, rfl⟩,
      ⟨?_, fun h => absurd (show s.present = [] from h) hp, fun _ => ⟨rfl, ?_, ?_, z.2, ?_, ?_, ?_, ?_, ?_⟩⟩, ?_, hF2.free,
      hleaf _ rfl⟩⟩
    · show nn1.toNat = s.present.length
      omega
    · show nn2.toNat = 2 * nn1.toNat - 1
      omega
    · show z.1.tag.toNat = nn2.toNat - 1
      omega
    · exact htree _ rfl rfl rfl
    · show z.2.symbols.Perm s.present
      have h1 : z.2.symbols.Perm (forestSymbols zs1) := by simpa [forestSymbols] using hsym2
      exact h1.trans (by simpa [forestSymbols] using hsym1)
    · show z.2.weight.toNat = s.freqSum
      rw [hF2.weight z (by simp), ← hw1', ← hw2]
      simp [forestWeight]
    · exact hF2.adds z (by simp)
    · exact Tree.leavesCount_of (hF2.leaves z (by simp)) rfl
    · exact (htree _ rfl rfl rfl).trans htrees2.symm
  | _ :: _ :: _, hl2 => rw [List.length_cons, List.length_cons] at hl2; omega

/-- BUILD in a quiet environment. -/
theorem buildBody_quiet (s : State) (h : Quiet s) (hv : s.freqValid = true) (hsum : s.freqSum ≤ Config.maxLen) :
    ∃ t, buildBody s = .done () t ∧ Built (s.appendPhase .buildingTree) t := by
  obtain ⟨t, he, hb⟩ := buildCore_spec (s.appendPhase .buildingTree) hsum
  refine ⟨t, ?_, hb⟩
  rw [buildBody_eq, requireFlags, hv, require_true, Result.andThen_done, notify_quiet h, Result.andThen_done, he]

/-- What BUILD leaves has the invariant. -/
theorem Built.inv {s t : State} (h : Built s t) (hs : Inv s) (hv : s.freqValid = true) : Inv t := by
  obtain ⟨⟨nd, nn, dist, rv, ri, rfl⟩, htree, -, hfree, -⟩ := h
  exact {
    sourcePos := hs.sourcePos
    errClear := hs.errClear
    errCode := hs.errCode
    queueSorted := List.Pairwise.nil
    queueCap := by simp
    tableSum := fun _ => hs.tableSum hv
    flagOrder := ⟨fun h => by simp at h, fun _ => hv⟩
    nodesFree := hfree
    treeOfTable := fun _ => htree
    codeTable := fun h => by simp at h
    codeOfTree := fun h => by simp at h
    codeLength := fun b => codeLength_clear rfl b }

/-- A table whose flag is set adds up to no more than the largest length (46_container.md R104). -/
theorem Inv.sum_le {s : State} (h : Inv s) (hv : s.freqValid = true) : s.freqSum ≤ Config.maxLen := by
  rw [h.tableSum hv]
  have := s.total.isLt
  simp only [Config.maxLen]
  omega

/-- BUILD ends, and keeps the invariant, in every environment. -/
theorem buildBody_ends (s : State) (h : Inv s) :
    (buildBody s).Ends (fun _ t => Inv t ∧ t.freqValid = true ∧ t.treeDone = true) Inv := by
  rw [buildBody_eq, requireFlags]
  by_cases hv : s.freqValid = true
  · rw [hv, require_true, Result.andThen_done]
    refine ((notify_ends _ _).mono (fun _ _ h => h) fun t ht => ht ▸ h.dropAnswer.cut).andThen ?_
    rintro _ t rfl
    have h1 : Inv (s.dropAnswer.appendPhase .buildingTree) := h.dropAnswer.appendPhase _
    obtain ⟨t, he, hb⟩ := buildCore_spec _ (h1.sum_le hv)
    rw [he]
    refine ⟨hb.inv h1 hv, ?_, ?_⟩ <;> obtain ⟨_, _, _, _, _, rfl⟩ := hb.frame
    · exact hv
    · rfl
  · rw [Bool.not_eq_true] at hv
    rw [hv, require_false, Result.andThen_ended]
    exact ⟨h.enterFault (by simp) _⟩

end Sys2Proof.Machine
end

