-- ==== Sys2Proof/Laws/Codes.lean ====
section
/-! SUPPORT. GENCODE: the walk of 43_code_table.md R84 records the path to each leaf, and what R85 to R87 say of the paths. -/

namespace Sys2Proof.Machine

open Sys2Proof

/-! ### Paths of a tree -/

theorem Tree.leafPaths_symbols (T : Tree) : T.leafPaths.map Prod.fst = T.symbols := by
  induction T with
  | leaf b w => rfl
  | internal w l r ihl ihr => simp [Tree.leafPaths, Tree.symbols, ← ihl, ← ihr, Function.comp_def]

theorem Tree.symbols_ne_nil (T : Tree) : 0 < T.symbols.length := by
  induction T with
  | leaf b w => simp [Tree.symbols]
  | internal w l r ihl ihr => simp [Tree.symbols]; omega

/-- A path is shorter than the number of leaves (R87). -/
theorem Tree.leafPaths_length {T : Tree} {x : Byte × List Digit} (h : x ∈ T.leafPaths) :
    x.2.length + 1 ≤ T.symbols.length := by
  induction T generalizing x with
  | leaf b w =>
    simp only [Tree.leafPaths, List.mem_singleton] at h
    simp [h, Tree.symbols]
  | internal w l r ihl ihr =>
    simp only [Tree.leafPaths, List.mem_append, List.mem_map] at h
    have hl := l.symbols_ne_nil
    have hr := r.symbols_ne_nil
    obtain ⟨y, hy, rfl⟩ | ⟨y, hy, rfl⟩ := h
    · have := ihl hy
      simp only [Tree.symbols, List.length_append, List.length_cons]
      omega
    · have := ihr hy
      simp only [Tree.symbols, List.length_append, List.length_cons]
      omega

/-- In a tree without repeated symbols no path is a prefix of the path to another leaf (R86). -/
theorem Tree.leafPaths_prefixFree {T : Tree} (hn : T.symbols.Nodup) {x y : Byte × List Digit} (hx : x ∈ T.leafPaths)
    (hy : y ∈ T.leafPaths) (hxy : x.1 ≠ y.1) : ¬ x.2 <+: y.2 := by
  induction T generalizing x y with
  | leaf b w =>
    simp only [Tree.leafPaths, List.mem_singleton] at hx hy
    simp [hx, hy] at hxy
  | internal w l r ihl ihr =>
    obtain ⟨hnl, hnr, -⟩ := List.nodup_append.mp hn
    simp only [Tree.leafPaths, List.mem_append, List.mem_map] at hx hy
    obtain ⟨a, ha, rfl⟩ | ⟨a, ha, rfl⟩ := hx <;> obtain ⟨b, hb, rfl⟩ | ⟨b, hb, rfl⟩ := hy
    · intro hp
      exact ihl hnl ha hb hxy (List.cons_prefix_cons.mp hp).2
    · intro hp
      simpa using (List.cons_prefix_cons.mp hp).1
    · intro hp
      simpa using (List.cons_prefix_cons.mp hp).1
    · intro hp
      exact ihr hnr ha hb hxy (List.cons_prefix_cons.mp hp).2

theorem Tree.codes_symbols (T : Tree) : T.codes.map Prod.fst = T.symbols := by
  cases T with
  | leaf b w => rfl
  | internal w l r => exact Tree.leafPaths_symbols _

theorem Tree.codes_ne_nil {T : Tree} {x : Byte × List Digit} (h : x ∈ T.codes) : x.2 ≠ [] := by
  cases T with
  | leaf b w =>
    simp only [Tree.codes, List.mem_singleton] at h
    simp [h]
  | internal w l r =>
    simp only [Tree.codes, Tree.leafPaths, List.mem_append, List.mem_map] at h
    obtain ⟨y, -, rfl⟩ | ⟨y, -, rfl⟩ := h <;> simp

theorem Tree.codes_length {T : Tree} {x : Byte × List Digit} (h : x ∈ T.codes) (hT : T.symbols.length ≤ 256) :
    x.2.length ≤ Config.maxCodeLen := by
  cases T with
  | leaf b w =>
    simp only [Tree.codes, List.mem_singleton] at h
    simp [h]
  | internal w l r =>
    have := Tree.leafPaths_length (T := .internal w l r) h
    simp only [Config.maxCodeLen]
    omega

/-! ### The walk -/

/-- The codes recorded one after another. -/
def State.setCodes (l : List (Byte × List Digit)) (s : State) : State := l.foldl (fun s x => s.setCode x.1 x.2) s

theorem setCodes_eq (l : List (Byte × List Digit)) (s : State) : s.setCodes l = { s with code := (s.setCodes l).code } := by
  induction l generalizing s with
  | nil => rfl
  | cons x l ih =>
    rw [State.setCodes, List.foldl_cons]
    exact ih (s.setCode x.1 x.2)

theorem setCodes_append (l l' : List (Byte × List Digit)) (s : State) :
    s.setCodes (l ++ l') = (s.setCodes l).setCodes l' := List.foldl_append

theorem codeAt_setCodes_of_notMem {l : List (Byte × List Digit)} {s : State} {b : Byte} (h : b ∉ l.map Prod.fst) :
    (s.setCodes l).codeAt b = s.codeAt b := by
  induction l generalizing s with
  | nil => rfl
  | cons x l ih =>
    simp only [List.map_cons, List.mem_cons, not_or] at h
    rw [State.setCodes, List.foldl_cons]
    refine (ih (s := s.setCode x.1 x.2) h.2).trans ?_
    rw [codeAt_setCode, if_neg h.1]

theorem codeAt_setCodes_of_mem {l : List (Byte × List Digit)} {s : State} {x : Byte × List Digit}
    (hn : (l.map Prod.fst).Nodup) (h : x ∈ l) : (s.setCodes l).codeAt x.1 = x.2 := by
  induction l generalizing s with
  | nil => simp at h
  | cons y l ih =>
    obtain ⟨hy, hn⟩ := List.nodup_cons.mp hn
    rw [State.setCodes, List.foldl_cons]
    obtain rfl | h := List.mem_cons.mp h
    · refine (codeAt_setCodes_of_notMem (s := s.setCode x.1 x.2) hy).trans ?_
      rw [codeAt_setCode, if_pos rfl]
    · exact ih (s := s.setCode y.1 y.2) hn h

/-- The walk records the paths behind the digits it starts with (R84, R85). -/
theorem walk_spec (n : Nat) (i : NodeIdx) (acc : List Digit) (s : State) (T : Tree) (h : treeAt s n i = some T) :
    walk n i acc s = .done () (s.setCodes (T.leafPaths.map fun x => (x.1, acc ++ x.2))) := by
  induction n generalizing i acc s T with
  | zero => simp [treeAt] at h
  | succ n ih =>
    rw [walk]
    simp only [treeAt] at h
    cases hi : s.nodeAt i with
    | leaf b w =>
      simp only [hi, Option.some.injEq] at h
      subst h
      simp [Tree.leafPaths, State.setCodes]
    | internal w l r =>
      simp only [hi] at h
      cases hl : treeAt s n l with
      | none => simp [hl] at h
      | some tl =>
        cases hr : treeAt s n r with
        | none => simp [hl, hr] at h
        | some tr =>
          simp only [hl, hr, Option.some.injEq] at h
          subst h
          have hr' : treeAt (s.setCodes (tl.leafPaths.map fun x => (x.1, (acc ++ [false]) ++ x.2))) n r = some tr := by
            rw [← hr]
            apply treeAt_congr
            rw [setCodes_eq]
          simp only [ih l (acc ++ [false]) s tl hl, Result.andThen_done, ih r (acc ++ [true]) _ tr hr']
          rw [← setCodes_append]
          simp [Tree.leafPaths, Function.comp_def]

theorem treeAt_of_leaf {s : State} {i : NodeIdx} {b : Byte} {w : Word} (h : s.nodeAt i = .leaf b w) (n : Nat) :
    treeAt s (n + 1) i = some (.leaf b w) := by
  simp only [treeAt, h]

theorem treeAt_of_internal {s : State} {i l r : NodeIdx} {w : Word} (h : s.nodeAt i = .internal w l r) {n : Nat}
    {T : Tree} (hT : treeAt s (n + 1) i = some T) :
    ∃ tl tr, treeAt s n l = some tl ∧ treeAt s n r = some tr ∧ T = .internal w tl tr := by
  simp only [treeAt, h] at hT
  split at hT
  · next tl tr hl hr => exact ⟨tl, tr, hl, hr, (Option.some.inj hT).symm⟩
  · simp at hT

/-- The codes at the root are those of the state's tree. -/
theorem codesFromRoot_spec (s : State) (T : Tree) (hv : s.rootValid = true) (h : s.tree = some T) :
    codesFromRoot s = .done () (s.setCodes T.codes) := by
  rw [State.tree, if_pos hv] at h
  rw [codesFromRoot, if_pos hv]
  cases hi : s.nodeAt s.rootIdx with
  | leaf b w =>
    obtain rfl := Option.some.inj ((treeAt_of_leaf hi 510).symm.trans h)
    rfl
  | internal w l r =>
    dsimp only
    rw [walk_spec _ _ _ _ T h]
    obtain ⟨tl, tr, -, -, rfl⟩ := treeAt_of_internal (n := 510) hi h
    simp [Tree.codes]

/-- GENCODE after its notification. -/
def gencodeCore (s : State) : Result Unit :=
  (codesFromRoot s.clearCodeValid.clearCodes).andThen fun _ s => .done () s.setCodeValid

theorem gencodeBody_eq (s : State) : gencodeBody s =
    (requireFlags s.treeDone (opc .gencode) s).andThen fun _ s =>
    (notify .derivingCodes s).andThen fun _ s => gencodeCore s := rfl

theorem lookup_of_mem {l : List (Byte × List Digit)} (hn : (l.map Prod.fst).Nodup) {x : Byte × List Digit} (h : x ∈ l) :
    l.lookup x.1 = some x.2 := by
  induction l with
  | nil => simp at h
  | cons y l ih =>
    obtain ⟨hy, hn⟩ := List.nodup_cons.mp hn
    obtain rfl | h := List.mem_cons.mp h
    · simp [List.lookup]
    · have hne : (x.1 == y.1) = false := by
        simp only [beq_eq_false_iff_ne]
        rintro he
        exact hy (he ▸ List.mem_map_of_mem h)
      simp only [List.lookup, hne]
      exact ih hn h

theorem lookup_of_notMem {l : List (Byte × List Digit)} {b : Byte} (h : b ∉ l.map Prod.fst) : l.lookup b = none := by
  induction l with
  | nil => rfl
  | cons y l ih =>
    simp only [List.map_cons, List.mem_cons, not_or] at h
    have hne : (b == y.1) = false := by simpa using h.1
    simp only [List.lookup, hne]
    exact ih h.2

/-- What GENCODE writes (R84). -/
structure Generated (s t : State) : Prop where
  frame : ∃ cd, t = { s with code := cd, codeValid := true }
  codes : ∀ x ∈ s.treeCodes, t.codeAt x.1 = x.2
  others : ∀ b, b ∉ s.treeCodes.map Prod.fst → t.codeAt b = []

theorem TreeOfTable.treeCodes {s : State} (h : TreeOfTable s) : (s.treeCodes.map Prod.fst).Perm s.present := by
  obtain ⟨-, hnil, hcons⟩ := h
  by_cases hp : s.present = []
  · obtain ⟨hv, -, -⟩ := hnil hp
    simp [State.treeCodes, State.tree, hv, hp]
  · obtain ⟨-, -, -, T, hT, hperm, -, -, -⟩ := hcons hp
    simpa [State.treeCodes, hT, Tree.codes_symbols] using hperm

theorem TreeOfTable.treeCodes_nodup {s : State} (h : TreeOfTable s) : (s.treeCodes.map Prod.fst).Nodup :=
  h.treeCodes.nodup_iff.mpr (present_nodup s)

theorem TreeOfTable.treeCode_of_mem {s : State} (h : TreeOfTable s) {x : Byte × List Digit} (hx : x ∈ s.treeCodes) :
    s.treeCode x.1 = x.2 := by
  simp [State.treeCode, lookup_of_mem h.treeCodes_nodup hx]

theorem treeCode_of_notMem {s : State} {b : Byte} (h : b ∉ s.treeCodes.map Prod.fst) : s.treeCode b = [] := by
  simp [State.treeCode, lookup_of_notMem h]

/-- A present symbol has its code in the tree's table. -/
theorem TreeOfTable.mem_treeCodes {s : State} (h : TreeOfTable s) {b : Byte} (hb : b ∈ s.present) :
    (b, s.treeCode b) ∈ s.treeCodes := by
  obtain ⟨x, hx, rfl⟩ := List.mem_map.mp (h.treeCodes.mem_iff.mpr hb)
  rw [h.treeCode_of_mem hx]
  exact hx

/-- GENCODE gives every symbol the code of the tree. -/
theorem Generated.codeAt {s t : State} (h : Generated s t) (ht : TreeOfTable s) (b : Byte) : t.codeAt b = s.treeCode b := by
  by_cases hb : b ∈ s.treeCodes.map Prod.fst
  · obtain ⟨x, hx, rfl⟩ := List.mem_map.mp hb
    rw [h.codes x hx, ht.treeCode_of_mem hx]
  · rw [h.others b hb, treeCode_of_notMem hb]

/-- On the tree of a table GENCODE ends, with the tree's codes (R84). -/
theorem gencodeCore_spec (s : State) (h : TreeOfTable s) : ∃ t, gencodeCore s = .done () t ∧ Generated s t := by
  have hn := h.treeCodes_nodup
  have hmain : codesFromRoot s.clearCodeValid.clearCodes =
      .done () (s.clearCodeValid.clearCodes.setCodes s.treeCodes) := by
    by_cases hp : s.present = []
    · obtain ⟨hv, -, -⟩ := h.2.1 hp
      have ht : s.treeCodes = [] := by simp [State.treeCodes, State.tree, hv]
      rw [ht, codesFromRoot, if_neg (by simp [hv])]
      rfl
    · obtain ⟨hv, -, -, T, hT, -⟩ := h.2.2 hp
      have hc : s.treeCodes = T.codes := by simp [State.treeCodes, hT]
      rw [hc]
      have hT' : s.clearCodeValid.clearCodes.tree = s.tree := tree_congr rfl rfl rfl
      exact codesFromRoot_spec _ T hv (hT'.trans hT)
  refine ⟨(s.clearCodeValid.clearCodes.setCodes s.treeCodes).setCodeValid, ?_, ?_, ?_, ?_⟩
  · rw [gencodeCore, hmain, Result.andThen_done]
  · rw [setCodes_eq]
    exact ⟨_, rfl⟩
  · intro x hx
    exact codeAt_setCodes_of_mem hn hx
  · intro b hb
    exact (codeAt_setCodes_of_notMem hb).trans (codeAt_clear _ rfl b)

theorem gencodeBody_quiet (s : State) (h : Quiet s) (hd : s.treeDone = true) (ht : TreeOfTable s) :
    ∃ t, gencodeBody s = .done () t ∧ Generated (s.appendPhase .derivingCodes) t := by
  obtain ⟨t, he, hg⟩ := gencodeCore_spec (s.appendPhase .derivingCodes)
    (ht.congr rfl rfl rfl rfl rfl rfl)
  refine ⟨t, ?_, hg⟩
  rw [gencodeBody_eq, requireFlags, hd, require_true, Result.andThen_done, notify_quiet h, Result.andThen_done, he]

/-- The codes are short enough for the code store (R87). -/
theorem TreeOfTable.treeCodes_length {s : State} (h : TreeOfTable s) {x : Byte × List Digit} (hx : x ∈ s.treeCodes) :
    x.2.length ≤ Config.maxCodeLen := by
  by_cases hp : s.present = []
  · obtain ⟨hv, -, -⟩ := h.2.1 hp
    simp [State.treeCodes, State.tree, hv] at hx
  · obtain ⟨-, -, -, T, hT, hperm, -⟩ := h.2.2 hp
    simp only [State.treeCodes, hT] at hx
    exact Tree.codes_length hx (hperm.length_eq.le.trans (present_length_le s))

theorem State.treeCodes_ne_nil {s : State} {x : Byte × List Digit} (hx : x ∈ s.treeCodes) : x.2 ≠ [] := by
  unfold State.treeCodes at hx
  split at hx
  · exact Tree.codes_ne_nil hx
  · simp at hx

/-- A symbol has a code exactly when it is present (10_state.md R24). -/
theorem Generated.code_iff {s t : State} (h : Generated s t) (ht : TreeOfTable s) (b : Byte) :
    t.codeAt b ≠ [] ↔ 0 < (s.freqAt b).toNat := by
  rw [← mem_present, ← ht.treeCodes.mem_iff]
  constructor
  · intro hb
    by_contra hc
    exact hb (h.others b hc)
  · intro hb
    obtain ⟨x, hx, rfl⟩ := List.mem_map.mp hb
    rw [h.codes x hx]
    exact s.treeCodes_ne_nil hx

theorem Generated.inv {s t : State} (h : Generated s t) (hs : Inv s) (hd : s.treeDone = true) : Inv t := by
  have ht := hs.treeOfTable hd
  have hiff := h.code_iff ht
  have hcode : ∀ b, t.codeAt b = t.treeCode b := by
    intro b
    obtain ⟨cd, he⟩ := h.frame
    rw [h.codeAt ht, treeCode_congr (s := s) (t := t) (by rw [he]) (by rw [he]) (by rw [he])]
  have hlen : ∀ b, (t.codeAt b).length ≤ Config.maxCodeLen := by
    intro b
    by_cases hb : b ∈ s.treeCodes.map Prod.fst
    · obtain ⟨x, hx, rfl⟩ := List.mem_map.mp hb
      rw [h.codes x hx]
      exact ht.treeCodes_length hx
    · simp [h.others b hb]
  obtain ⟨⟨cd, rfl⟩, -, -⟩ := h
  exact {
    sourcePos := hs.sourcePos
    errClear := hs.errClear
    errCode := hs.errCode
    queueSorted := hs.queueSorted
    queueCap := hs.queueCap
    tableSum := hs.tableSum
    flagOrder := ⟨fun _ => hd, hs.flagOrder.2⟩
    nodesFree := hs.nodesFree
    treeOfTable := fun _ => ht.congr rfl rfl rfl rfl rfl rfl
    codeTable := fun _ => hiff
    codeOfTree := fun _ => hcode
    codeLength := hlen }

/-- GENCODE ends, and keeps the invariant, in every environment. -/
theorem gencodeBody_ends (s : State) (h : Inv s) : (gencodeBody s).Ends (fun _ t => Inv t) Inv := by
  rw [gencodeBody_eq, requireFlags]
  by_cases hd : s.treeDone = true
  · rw [hd, require_true, Result.andThen_done]
    refine ((notify_ends _ _).mono (fun _ _ h => h) fun t ht => ht ▸ h.dropAnswer.cut).andThen ?_
    rintro _ t rfl
    have h1 : Inv (s.dropAnswer.appendPhase .derivingCodes) := h.dropAnswer.appendPhase _
    obtain ⟨t, he, hg⟩ := gencodeCore_spec _ (h1.treeOfTable hd)
    rw [he]
    exact ⟨hg.inv h1 hd⟩
  · rw [Bool.not_eq_true] at hd
    rw [hd, require_false, Result.andThen_ended]
    exact ⟨h.enterFault (by simp) _⟩

end Sys2Proof.Machine
end

