-- ==== Sys2Proof/Laws/Container.lean ====
section
/-! SUPPORT. WRHDR and RDHDR: the header bytes (30_encoding.md R50, R51), what each command comes to, and that both keep the
invariant. -/

namespace Sys2Proof.Machine

open Sys2Proof

/-! ### Fields -/

/-- Reading a little-endian field back (00_scope.md R7). -/
theorem le32_le32Bytes (v : Word) : le32 (le32Bytes v) = v := by
  apply BitVec.eq_of_toNat_eq
  have := v.isLt
  simp only [le32, le32Bytes, List.foldr, BitVec.toNat_ofNat, BitVec.extractLsb'_toNat, Nat.shiftRight_eq_div_pow]
  omega

theorem le32Bytes_length (v : Word) : (le32Bytes v).length = 4 := rfl

theorem flatMap_length_four (bs : List Byte) (f : Byte → List Byte) (h : ∀ b, (f b).length = 4) :
    (bs.flatMap f).length = 4 * bs.length := by
  induction bs with
  | nil => rfl
  | cons b bs ih =>
    simp only [List.flatMap_cons, List.length_append, ih, h, List.length_cons]
    omega

/-- The header has 1032 bytes whatever the table holds (R102). -/
theorem headerBytes_length (s : State) : (headerBytes s).length = Config.hdrBytes := by
  have h := flatMap_length_four symbols (fun b => le32Bytes (s.freqAt b)) fun _ => rfl
  simp only [headerBytes, List.length_append, h, symbols_length]
  rfl

theorem headerBytes_congr {s t : State} (ht : s.total = t.total) (hf : s.freq = t.freq) : headerBytes s = headerBytes t := by
  simp only [headerBytes, ht, freqAt_congr hf]

/-! ### WRHDR -/

theorem wrhdrBody_quiet (s : State) (h : Quiet s) (hv : s.freqValid = true) :
    wrhdrBody s = .done () ((s.appendPhase .writingHeader).appendBytes (headerBytes s)) := by
  have hq : Quiet (s.appendPhase .writingHeader) := h
  rw [wrhdrBody, requireFlags, hv, require_true, Result.andThen_done, notify_quiet h, Result.andThen_done,
    snkWriteAll_quiet _ _ hq]
  rfl

theorem snkWriteAll_ends (bs : List Byte) (s : State) (h : Inv s) :
    (snkWriteAll bs s).Ends (fun _ t => Inv t ∧ SameTables s t) Inv := by
  induction bs generalizing s with
  | nil => exact ⟨h, .refl s⟩
  | cons b bs ih =>
    rw [snkWriteAll]
    refine ((snkWrite_ends b s).mono (fun _ _ h => h) fun t ht => ht.inv (by simp) h).andThen ?_
    rintro _ t rfl
    refine (ih _ (h.dropAnswer.appendByte b)).mono (fun _ u hu => ⟨hu.1, ?_⟩) fun _ h => h
    exact ((SameTables.dropAnswer s).trans (.appendByte b _)).trans hu.2

theorem wrhdrBody_ends (s : State) (h : Inv s) :
    (wrhdrBody s).Ends (fun _ t => Inv t ∧ SameTables s t) Inv := by
  rw [wrhdrBody, requireFlags]
  by_cases hv : s.freqValid = true
  · rw [hv, require_true, Result.andThen_done]
    refine ((notify_ends _ _).mono (fun _ _ h => h) fun t ht => ht ▸ h.dropAnswer.cut).andThen ?_
    rintro _ t rfl
    refine (snkWriteAll_ends _ _ (h.dropAnswer.appendPhase _)).mono (fun _ u hu => ⟨hu.1, ?_⟩) fun _ h => h
    exact ((SameTables.dropAnswer s).trans (.appendPhase _ _)).trans hu.2
  · rw [Bool.not_eq_true] at hv
    rw [hv, require_false, Result.andThen_ended]
    exact ⟨h.enterFault (by simp) _⟩

/-! ### RDHDR -/

theorem readField_quiet (s : State) (h : Quiet s) (hn : s.src.pos + 4 ≤ s.src.data.length) :
    readField s = .done ((s.src.data.drop s.src.pos).take 4) (s.setPos (s.src.pos + 4)) := by
  have := srcReadN_quiet 4 s h hn
  unfold readField
  rw [this]
  rfl

/-- The counts of a list of symbols written one after another. -/
def State.setFreqs (f : Byte → Word) (bs : List Byte) (s : State) : State := bs.foldl (fun s b => s.setFreq b (f b)) s

theorem setFreqs_eq (f : Byte → Word) (bs : List Byte) (s : State) :
    s.setFreqs f bs = { s with freq := (s.setFreqs f bs).freq } := by
  induction bs generalizing s with
  | nil => rfl
  | cons b bs ih =>
    rw [State.setFreqs, List.foldl_cons]
    exact ih (s.setFreq b (f b))

theorem freqAt_setFreqs (f : Byte → Word) (bs : List Byte) (s : State) (b : Byte) :
    (s.setFreqs f bs).freqAt b = if b ∈ bs then f b else s.freqAt b := by
  induction bs generalizing s with
  | nil => simp [State.setFreqs]
  | cons c bs ih =>
    rw [State.setFreqs, List.foldl_cons]
    refine (ih (s.setFreq c (f c))).trans ?_
    rw [freqAt_setFreq]
    by_cases h : b = c
    · simp [h]
    · simp [h]

theorem setPos_setFreqs (n : Nat) (f : Byte → Word) (bs : List Byte) (s : State) :
    (s.setPos n).setFreqs f bs = (s.setFreqs f bs).setPos n := by
  rw [setFreqs_eq f bs s, setFreqs_eq f bs (s.setPos n)]
  have : ((s.setPos n).setFreqs f bs).freq = (s.setFreqs f bs).freq := by
    apply freqAt_ext
    intro b
    rw [freqAt_setFreqs, freqAt_setFreqs]
    rfl
  rw [this]
  rfl

theorem rest_length (s : State) : s.rest.length = s.remaining := by simp [State.rest, State.remaining]

theorem readCounts_quiet (f : Byte → Word) (bs : List Byte) (s : State) (tail : List Byte) (h : Quiet s)
    (hd : s.rest = bs.flatMap (fun b => le32Bytes (f b)) ++ tail) :
    readCounts bs s = .done () ((s.setFreqs f bs).setPos (s.src.pos + 4 * bs.length)) := by
  induction bs generalizing s with
  | nil => rfl
  | cons b bs ih =>
    have hlen := congrArg List.length hd
    rw [rest_length, List.length_append, flatMap_length_four _ _ fun _ => rfl, List.length_cons, State.remaining] at hlen
    have hlt : s.src.pos + 4 ≤ s.src.data.length := by omega
    have htake : (s.src.data.drop s.src.pos).take 4 = le32Bytes (f b) := by
      have : s.src.data.drop s.src.pos = le32Bytes (f b) ++ (bs.flatMap (fun b => le32Bytes (f b)) ++ tail) := by
        rw [← List.append_assoc]; exact hd
      rw [this]
      exact List.take_left' rfl
    have hdrop : (s.src.data.drop s.src.pos).drop 4 = bs.flatMap (fun b => le32Bytes (f b)) ++ tail := by
      have : s.src.data.drop s.src.pos = le32Bytes (f b) ++ (bs.flatMap (fun b => le32Bytes (f b)) ++ tail) := by
        rw [← List.append_assoc]; exact hd
      rw [this]
      exact List.drop_left' rfl
    rw [readCounts, readField_quiet s h hlt, Result.andThen_done, htake, le32_le32Bytes]
    have hq : Quiet ((s.setPos (s.src.pos + 4)).setFreq b (f b)) := h
    rw [ih _ hq (by
      show s.src.data.drop (s.src.pos + 4) = _
      rw [← List.drop_drop]; exact hdrop)]
    show Result.done () ((((s.setFreq b (f b)).setPos (s.src.pos + 4)).setFreqs f bs).setPos (s.src.pos + 4 + 4 * bs.length)) = _
    rw [setPos_setFreqs, List.length_cons, show s.src.pos + 4 + 4 * bs.length = s.src.pos + 4 * (bs.length + 1) by omega]
    rfl

theorem readField_eq (s : State) (h : Quiet s) (bs tail : List Byte) (hb : bs.length = 4) (hd : s.rest = bs ++ tail) :
    readField s = .done bs (s.setPos (s.src.pos + 4)) ∧ (s.setPos (s.src.pos + 4)).rest = tail := by
  have hlen := congrArg List.length hd
  rw [rest_length, List.length_append, hb, State.remaining] at hlen
  rw [State.rest] at hd
  refine ⟨?_, ?_⟩
  · rw [readField_quiet s h (by omega), hd, List.take_left' hb]
  · rw [State.rest, State.setPos_src, ← List.drop_drop, hd, List.drop_left' hb]

/-- FREQ takes a value. -/
def State.withFreq (f : Vector Word 256) (s : State) : State := { s with freq := f }

/-- What RDHDR leaves when the header in the source is that of the table of `h` (46_container.md R103). -/
def State.headerRead (s h : State) : State :=
  ((((s.clearEngine.appendPhase .readingHeader).setTotal h.total).setPos (s.src.pos + 1032)).withFreq h.freq).setFreqValid

/-- The counts of a whole table, read back. -/
theorem readCounts_table (h s : State) (tail : List Byte) (hq : Quiet s)
    (hd : s.rest = symbols.flatMap (fun b => le32Bytes (h.freqAt b)) ++ tail) :
    readCounts symbols s = .done () ((s.setPos (s.src.pos + 1024)).withFreq h.freq) := by
  have hfreq : (s.setFreqs h.freqAt symbols).freq = h.freq := by
    apply freqAt_ext
    intro b
    rw [freqAt_setFreqs, if_pos (mem_symbols b)]
  rw [readCounts_quiet h.freqAt symbols s tail hq hd, setFreqs_eq, hfreq, symbols_length]
  rfl

/-- RDHDR reads back a header that WRHDR wrote of the table of `h` (46_container.md R103). -/
theorem rdhdrBody_quiet (s h : State) (tail : List Byte) (hq : Quiet s) (hd : s.rest = headerBytes h ++ tail)
    (hs : h.freqSum = h.total.toNat) :
    rdhdrBody s = .done () (s.headerRead h) := by
  let s1 := s.clearEngine.appendPhase .readingHeader
  have hq1 : Quiet s1 := hq
  have hd1 : s1.rest = Config.magic ++ (le32Bytes h.total ++ (symbols.flatMap (fun b => le32Bytes (h.freqAt b)) ++ tail)) := by
    rw [show s1.rest = s.rest from rfl, hd]
    simp only [headerBytes, List.append_assoc]
  obtain ⟨e1, r1⟩ := readField_eq s1 hq1 _ _ rfl hd1
  obtain ⟨e2, r2⟩ := readField_eq (s1.setPos (s1.src.pos + 4)) hq1 _ _ (le32Bytes_length _) r1
  have e3 := readCounts_table h (((s1.setPos (s1.src.pos + 4)).setPos (s1.src.pos + 4 + 4)).setTotal h.total) tail hq1 r2
  have hn : notify .readingHeader s.clearEngine = .done () s1 := notify_quiet (show Quiet s.clearEngine from hq)
  obtain ⟨t, ht⟩ : ∃ t : State, t = ((((s1.setPos (s1.src.pos + 4)).setPos (s1.src.pos + 4 + 4)).setTotal h.total).setPos
      (s1.src.pos + 4 + 4 + 1024)).withFreq h.freq := ⟨_, rfl⟩
  have hf : t.freq = h.freq := by rw [ht]; rfl
  have htot : t.total = h.total := by rw [ht]; rfl
  have hsum : t.freqSum = t.total.toNat := by rw [freqSum_congr hf, htot, hs]
  have hfin : t.setFreqValid = s.headerRead h := by
    rw [ht, show s1.src.pos + 4 + 4 + 1024 = s.src.pos + 1032 from by simp only [s1, State.appendPhase_src, State.clearEngine_src]]
    rfl
  rw [show ((((s1.setPos (s1.src.pos + 4)).setPos (s1.src.pos + 4 + 4)).setTotal h.total).src.pos + 1024)
    = s1.src.pos + 4 + 4 + 1024 from rfl, ← ht] at e3
  clear_value s1
  clear ht
  have e2' : readField (s1.setPos (s1.src.pos + 4)) =
    .done (le32Bytes h.total) ((s1.setPos (s1.src.pos + 4)).setPos (s1.src.pos + 4 + 4)) := e2
  rw [rdhdrBody, hn, Result.andThen_done, e1, Result.andThen_done, decide_eq_true rfl, require_true, Result.andThen_done, e2',
    Result.andThen_done, le32_le32Bytes, e3, Result.andThen_done, decide_eq_true hsum, require_true, Result.andThen_done, hfin]

/-- What RDHDR keeps until its last check: the invariant and an invalid table. -/
def Reading (s : State) : Prop := Inv s ∧ s.freqValid = false

theorem Inv.flags_off {s : State} (h : Inv s) (hv : s.freqValid = false) : s.treeDone = false ∧ s.codeValid = false := by
  have hd : s.treeDone = false := by
    by_contra hc
    simp [h.flagOrder.2 (by simpa using hc)] at hv
  refine ⟨hd, ?_⟩
  by_contra hc
  simp [h.flagOrder.1 (by simpa using hc)] at hd

/-- While the table is invalid its counts and its total may change. -/
theorem Reading.setTable {s : State} (h : Reading s) (f : Vector Word 256) (w : Word) :
    Reading { s with freq := f, total := w } := by
  obtain ⟨hi, hv⟩ := h
  obtain ⟨hd, hc⟩ := hi.flags_off hv
  exact ⟨{
    sourcePos := hi.sourcePos
    errClear := hi.errClear
    errCode := hi.errCode
    queueSorted := hi.queueSorted
    queueCap := hi.queueCap
    tableSum := fun h => by simp [hv] at h
    flagOrder := hi.flagOrder
    nodesFree := hi.nodesFree
    treeOfTable := fun h => by simp [hd] at h
    codeTable := fun h => by simp [hc] at h
    codeOfTree := fun h => by simp [hc] at h
    codeLength := hi.codeLength }, hv⟩

theorem srcReadN_ends (n : Nat) (s : State) (h : Inv s) :
    (srcReadN n s).Ends (fun _ t => Inv t ∧ SameTables s t) Inv := by
  induction n generalizing s with
  | zero => exact ⟨h, .refl s⟩
  | succ n ih =>
    rw [srcReadN]
    refine ((srcRead_ends s).mono (fun _ _ h => h) fun t ht => ht.inv (by simp) h).andThen fun r t ht => ?_
    obtain ⟨rfl, -, rfl⟩ | ⟨b, rfl, hlt, -, rfl⟩ := ht
    · exact ⟨h.dropAnswer, .dropAnswer s⟩
    · refine (ih _ (h.dropAnswer.setPos hlt)).andThen fun _ u hu => ⟨hu.1, ?_⟩
      exact ((SameTables.dropAnswer s).trans (.setPos _ _)).trans hu.2

theorem readField_ends (s : State) (h : Inv s) : (readField s).Ends (fun _ t => Inv t ∧ SameTables s t) Inv := by
  have := srcReadN_ends 4 s h
  unfold readField
  generalize srcReadN 4 s = r at this ⊢
  refine this.andThen fun r t ht => ?_
  cases r with
  | none => exact ⟨ht.1.enterFault (by simp) _⟩
  | some bs => exact ⟨ht⟩

theorem Reading.same {s t : State} (h : Reading s) (hi : Inv t) (k : SameTables s t) : Reading t :=
  ⟨hi, k.freqValid ▸ h.2⟩

theorem readCounts_ends (bs : List Byte) (s : State) (h : Reading s) :
    (readCounts bs s).Ends (fun _ t => Reading t) Inv := by
  induction bs generalizing s with
  | nil => exact ⟨h⟩
  | cons b bs ih =>
    rw [readCounts]
    refine (readField_ends s h.1).andThen fun c t ht => ih _ ?_
    exact (h.same ht.1 ht.2).setTable _ _

/-- RDHDR ends, and keeps the invariant, in every environment (R103, R104). -/
theorem rdhdrBody_ends (s : State) (h : Inv s) : (rdhdrBody s).Ends (fun _ t => Inv t ∧ t.freqValid = true) Inv := by
  rw [rdhdrBody]
  refine ((notify_ends _ _).mono (fun _ _ h => h) fun t ht => ht ▸ h.clear.dropAnswer.cut).andThen ?_
  rintro _ t rfl
  have h1 : Reading (s.clearEngine.dropAnswer.appendPhase .readingHeader) := ⟨h.clear.dropAnswer.appendPhase _, rfl⟩
  refine (readField_ends _ h1.1).andThen fun m t ht => ?_
  have h2 := h1.same ht.1 ht.2
  by_cases hm : m = Config.magic
  · rw [decide_eq_true hm, require_true, Result.andThen_done]
    refine (readField_ends _ h2.1).andThen fun l u hu => ?_
    have h3 : Reading (u.setTotal (le32 l)) := (h2.same hu.1 hu.2).setTable u.freq (le32 l)
    have hc := readCounts_ends symbols _ h3
    refine hc.andThen fun _ v hv => ?_
    by_cases hs : v.freqSum = v.total.toNat
    · rw [decide_eq_true hs, require_true, Result.andThen_done]
      obtain ⟨hi, hvv⟩ := hv
      obtain ⟨hd, hc⟩ := hi.flags_off hvv
      exact ⟨{
        sourcePos := hi.sourcePos
        errClear := hi.errClear
        errCode := hi.errCode
        queueSorted := hi.queueSorted
        queueCap := hi.queueCap
        tableSum := fun _ => hs
        flagOrder := by simp [hd, hc]
        nodesFree := hi.nodesFree
        treeOfTable := fun h => by simp [hd] at h
        codeTable := fun h => by simp [hc] at h
        codeOfTree := fun h => by simp [hc] at h
        codeLength := hi.codeLength }, rfl⟩
    · rw [decide_eq_false hs, require_false, Result.andThen_ended]
      exact ⟨hv.1.enterFault (by simp) _⟩
  · rw [decide_eq_false hm, require_false, Result.andThen_ended]
    exact ⟨h2.1.enterFault (by simp) _⟩

end Sys2Proof.Machine
end

