-- ==== Sys2Proof/Laws/Encoder.lean ====
section
/-! SUPPORT. ENCODE: the packing of digits into bytes (30_encoding.md R52), what the command comes to in a quiet environment, and
that it keeps the invariant in every environment. -/

namespace Sys2Proof.Machine

open Sys2Proof

/-! ### Packing -/

/-- The bytes that whole groups of eight digits fill. -/
def fullBytes (ds : List Digit) : List Byte :=
  (List.range (ds.length / 8)).map fun k => byteMsb ((ds.drop (8 * k)).take 8)

/-- The digits behind the last whole group of eight. -/
def leftDigits (ds : List Digit) : List Digit := ds.drop (8 * (ds.length / 8))

theorem fullBytes_of_lt {ds : List Digit} (h : ds.length < 8) : fullBytes ds = [] := by
  simp [fullBytes, Nat.div_eq_of_lt h]

theorem leftDigits_of_lt {ds : List Digit} (h : ds.length < 8) : leftDigits ds = ds := by
  simp [leftDigits, Nat.div_eq_of_lt h]

theorem leftDigits_length (ds : List Digit) : (leftDigits ds).length = ds.length % 8 := by
  simp only [leftDigits, List.length_drop]
  omega

theorem length_div_of_group {c ds : List Digit} (hc : c.length = 8) : (c ++ ds).length / 8 = ds.length / 8 + 1 := by
  rw [List.length_append, hc]
  omega

theorem drop_group {c ds : List Digit} (hc : c.length = 8) (k : Nat) : (c ++ ds).drop (8 * (k + 1)) = ds.drop (8 * k) := by
  rw [show 8 * (k + 1) = 8 + 8 * k by omega, ← List.drop_drop, List.drop_left' hc]

/-- A whole group in front is the first byte. -/
theorem fullBytes_group {c ds : List Digit} (hc : c.length = 8) : fullBytes (c ++ ds) = byteMsb c :: fullBytes ds := by
  rw [fullBytes, length_div_of_group hc, List.range_succ_eq_map, List.map_cons, List.map_map]
  congr 1
  · rw [Nat.mul_zero, List.drop_zero, List.take_left' hc]
  · refine List.map_congr_left fun k _ => ?_
    simp only [Function.comp_apply, Nat.succ_eq_add_one, drop_group hc]

theorem leftDigits_group {c ds : List Digit} (hc : c.length = 8) : leftDigits (c ++ ds) = leftDigits ds := by
  rw [leftDigits, length_div_of_group hc, drop_group hc, leftDigits]

/-- An induction over the groups of a digit sequence. -/
theorem groups_induction {P : List Digit → Prop} (short : ∀ ds, ds.length < 8 → P ds)
    (group : ∀ c ds, c.length = 8 → P ds → P (c ++ ds)) (ds : List Digit) : P ds := by
  generalize hn : ds.length = n
  induction n using Nat.strong_induction_on generalizing ds with
  | _ n ih =>
    by_cases h : ds.length < 8
    · exact short ds h
    · rw [← List.take_append_drop 8 ds]
      refine group _ _ (by rw [List.length_take]; omega) (ih (n - 8) (by omega) _ ?_)
      rw [List.length_drop]
      omega

theorem fullBytes_append (ds es : List Digit) : fullBytes (ds ++ es) = fullBytes ds ++ fullBytes (leftDigits ds ++ es) := by
  induction ds using groups_induction with
  | short ds h => rw [fullBytes_of_lt h, leftDigits_of_lt h, List.nil_append]
  | group c ds hc ih =>
    rw [List.append_assoc, fullBytes_group hc, fullBytes_group hc, leftDigits_group hc, ih, List.cons_append]

theorem leftDigits_append (ds es : List Digit) : leftDigits (ds ++ es) = leftDigits (leftDigits ds ++ es) := by
  induction ds using groups_induction with
  | short ds h => rw [leftDigits_of_lt h]
  | group c ds hc ih => rw [List.append_assoc, leftDigits_group hc, leftDigits_group hc, ih]

/-- The bytes a final flush adds. -/
def flushBytes (buf : List Digit) : List Byte := if 0 < buf.length then [padByte buf] else []

theorem payload_group {c ds : List Digit} (hc : c.length = 8) : payload (c ++ ds) = byteMsb c :: payload ds := by
  have hn : ((c ++ ds).length + 7) / 8 = (ds.length + 7) / 8 + 1 := by
    rw [List.length_append, hc]
    omega
  have hr : 8 * ((ds.length + 7) / 8 + 1) - (c ++ ds).length = 8 * ((ds.length + 7) / 8) - ds.length := by
    rw [List.length_append, hc]
    omega
  simp only [payload, hn, hr]
  rw [List.range_succ_eq_map, List.map_cons, List.map_map, List.append_assoc]
  congr 1
  · rw [Nat.mul_zero, List.drop_zero, List.take_left' hc]
  · refine List.map_congr_left fun k _ => ?_
    simp only [Function.comp_apply, Nat.succ_eq_add_one, drop_group hc]

/-- The payload is the whole groups and the padded rest (R52). -/
theorem payload_eq (ds : List Digit) : payload ds = fullBytes ds ++ flushBytes (leftDigits ds) := by
  induction ds using groups_induction with
  | short ds h =>
    rw [fullBytes_of_lt h, leftDigits_of_lt h, List.nil_append, flushBytes]
    by_cases h0 : 0 < ds.length
    · have hn : (ds.length + 7) / 8 = 1 := by omega
      simp only [payload, hn, h0, if_true]
      have hl : (ds ++ List.replicate (8 * 1 - ds.length) Config.pad).length = 8 := by
        rw [List.length_append, List.length_replicate]
        omega
      simp only [List.range_one, List.map_cons, List.map_nil, Nat.mul_zero, List.drop_zero]
      rw [List.take_of_length_le hl.le]
      rfl
    · have : ds = [] := List.length_eq_zero_iff.mp (by omega)
      subst this
      rfl
  | group c ds hc ih => rw [payload_group hc, fullBytes_group hc, leftDigits_group hc, ih, List.cons_append]

/-- A payload has ceil(n / 8) bytes (R52). -/
theorem payload_length (ds : List Digit) : (payload ds).length = (ds.length + 7) / 8 := by
  simp [payload]

/-! ### The loops in a quiet environment -/

theorem appendBytes_nil (s : State) : s.appendBytes [] = s := by simp [State.appendBytes]

theorem appendBytes_append (as bs : List Byte) (s : State) : (s.appendBytes as).appendBytes bs = s.appendBytes (as ++ bs) := by
  simp [State.appendBytes]

theorem pushDigits_quiet (ds buf : List Digit) (s : State) (h : Quiet s) (hb : buf.length < 8) :
    pushDigits ds buf s = .done (leftDigits (buf ++ ds)) (s.appendBytes (fullBytes (buf ++ ds))) := by
  induction ds generalizing buf s with
  | nil => rw [pushDigits, List.append_nil, leftDigits_of_lt hb, fullBytes_of_lt hb, appendBytes_nil]
  | cons d ds ih =>
    rw [pushDigits]
    by_cases h8 : (buf ++ [d]).length = 8
    · rw [if_pos h8, snkWrite_quiet h, Result.andThen_done, ih [] (s.appendByte (byteMsb (buf ++ [d]))) h (by simp),
        show buf ++ d :: ds = (buf ++ [d]) ++ ds by simp, leftDigits_group h8, fullBytes_group h8]
      simp [State.appendBytes, State.appendByte]
    · rw [if_neg h8, ih (buf ++ [d]) s h (by simp at h8 ⊢; omega), List.append_assoc,
        List.singleton_append]

/-- A run of coded bytes of the source is packed (R89). -/
theorem encodeLoop_run (xs : List Byte) (m : Nat) (buf : List Digit) (n : Nat) (s : State) (rest : List Byte) (h : Quiet s)
    (hb : buf.length < 8) (hd : s.rest = xs ++ rest) (hc : ∀ b ∈ xs, s.codeAt b ≠ []) (hn : n + xs.length ≤ s.total.toNat) :
    encodeLoop (xs.length + m) buf n s =
      encodeLoop m (leftDigits (buf ++ s.codesOf xs)) (n + xs.length)
        ((s.appendBytes (fullBytes (buf ++ s.codesOf xs))).setPos (s.src.pos + xs.length)) := by
  induction xs generalizing buf n s with
  | nil =>
    simp only [State.codesOf, List.flatMap_nil, List.append_nil, leftDigits_of_lt hb, fullBytes_of_lt hb, List.length_nil,
      appendBytes_nil, Nat.add_zero, Nat.zero_add, setPos_self]
  | cons b xs ih =>
    rw [List.cons_append, State.rest] at hd
    have hlt : s.src.pos < s.src.data.length := by
      by_contra hcon
      rw [List.drop_eq_nil_iff.mpr (by omega)] at hd
      simp at hd
    rw [List.drop_eq_getElem_cons hlt] at hd
    obtain ⟨hd1, hd2⟩ := List.cons.inj hd
    simp only [List.length_cons] at hn
    have hlen : 0 < (s.codeAt b).length := List.length_pos_iff.mpr (hc b (by simp))
    rw [List.length_cons, show xs.length + 1 + m = (xs.length + m) + 1 by omega, encodeLoop, srcRead_quiet h,
      List.getElem?_eq_getElem hlt, hd1, Result.andThen_done]
    dsimp only
    rw [State.setPos_total, decide_eq_true (by omega : n < s.total.toNat), require_true, Result.andThen_done,
      show (s.setPos (s.src.pos + 1)).codeAt b = s.codeAt b from rfl, decide_eq_true hlen, require_true, Result.andThen_done,
      show (s.setPos (s.src.pos + 1)).codeAt b = s.codeAt b from rfl, pushDigits_quiet (s.codeAt b) buf (s.setPos (s.src.pos + 1)) h hb, Result.andThen_done]
    have hl : (leftDigits (buf ++ s.codeAt b)).length < 8 := by
      rw [leftDigits_length]
      omega
    rw [ih (leftDigits (buf ++ s.codeAt b)) (n + 1) ((s.setPos (s.src.pos + 1)).appendBytes (fullBytes (buf ++ s.codeAt b)))
      h hl hd2 (fun c hcm => hc c (by simp [hcm])) (by show n + 1 + xs.length ≤ s.total.toNat; omega)]
    have hcodes : s.codesOf (b :: xs) = s.codeAt b ++ s.codesOf xs := by simp [State.codesOf]
    have hsame : ((s.setPos (s.src.pos + 1)).appendBytes (fullBytes (buf ++ s.codeAt b))).codesOf xs = s.codesOf xs := rfl
    rw [hsame, hcodes, ← List.append_assoc, leftDigits_append (buf ++ s.codeAt b), fullBytes_append (buf ++ s.codeAt b),
      show n + 1 + xs.length = n + (xs.length + 1) by omega, ← appendBytes_append]
    show encodeLoop m _ _ ((((s.appendBytes _).appendBytes _)).setPos (s.src.pos + 1 + xs.length)) = _
    rw [show s.src.pos + 1 + xs.length = s.src.pos + (xs.length + 1) by omega]

/-- What ENCODE's loops leave after these bytes: their codes' whole groups are in the sink and the position is behind them. -/
def State.packed (s : State) (xs : List Byte) : State :=
  ((s.appendPhase .writingPayload).appendBytes (fullBytes (s.codesOf xs))).setPos xs.length

theorem encodeBody_start (s : State) (h : Quiet s) (hv : s.freqValid = true) (hcv : s.codeValid = true) (xs rest : List Byte)
    (hd : s.src.data = xs ++ rest) (hc : ∀ b ∈ xs, s.codeAt b ≠ []) (hn : xs.length ≤ s.total.toNat) :
    encodeBody s =
      (encodeLoop (rest.length + 1) (leftDigits (s.codesOf xs)) xs.length (s.packed xs)).andThen fun r t =>
      (require (decide (r.2 = t.total.toNat)) .sourceChanged (BitVec.ofNat 32 r.2) t).andThen fun _ t => flushBuf r.1 t := by
  have hq : Quiet ((s.appendPhase .writingPayload).setPos 0) := h
  have hrem : ((s.appendPhase .writingPayload).setPos 0).remaining + 1 = xs.length + (rest.length + 1) := by
    show s.src.data.length - 0 + 1 = _
    rw [hd, List.length_append]
    omega
  rw [encodeBody, requireFlags, hv, hcv, Bool.and_self, require_true, Result.andThen_done, notify_quiet h, Result.andThen_done,
    srcRewind_quiet (show Quiet (s.appendPhase .writingPayload) from h), Result.andThen_done, hrem,
    encodeLoop_run xs (rest.length + 1) [] 0 _ rest hq (by simp) (by show s.src.data.drop 0 = _; rw [List.drop_zero, hd]) hc
      (by rw [Nat.zero_add]; exact hn)]
  simp only [List.nil_append, Nat.zero_add]
  show (encodeLoop _ (leftDigits (s.codesOf xs)) _ (((s.appendPhase .writingPayload).appendBytes
    (fullBytes (s.codesOf xs))).setPos (0 + xs.length))).andThen _ = _
  rw [Nat.zero_add]
  rfl

/-- ENCODE in a quiet environment appends the payload of the source bytes (R89, R91). -/
theorem encodeBody_quiet (s : State) (h : Quiet s) (hv : s.freqValid = true) (hcv : s.codeValid = true)
    (hc : ∀ b ∈ s.src.data, s.codeAt b ≠ []) (hn : s.src.data.length = s.total.toNat) :
    encodeBody s = .done () (((s.appendPhase .writingPayload).appendBytes (payload (s.codesOf s.src.data))).setPos
      s.src.data.length) := by
  have hq : Quiet (s.packed s.src.data) := h
  rw [encodeBody_start s h hv hcv s.src.data [] (by simp) hc hn.le, List.length_nil, Nat.zero_add, encodeLoop,
    srcRead_quiet hq, show (s.packed s.src.data).src.data[(s.packed s.src.data).src.pos]? = none from
      List.getElem?_eq_none (le_refl s.src.data.length), Result.andThen_done]
  dsimp only
  rw [Result.andThen_done, show (s.packed s.src.data).total = s.total from rfl, decide_eq_true hn, require_true,
    Result.andThen_done, payload_eq, ← appendBytes_append]
  dsimp only
  generalize leftDigits (s.codesOf s.src.data) = buf
  rw [flushBuf, flushBytes]
  by_cases hb : 0 < buf.length
  · rw [if_pos hb, if_pos hb, snkWrite_quiet hq]
    rfl
  · rw [if_neg hb, if_neg hb, appendBytes_nil]
    rfl

theorem rest_cons {s : State} {b : Byte} {ys : List Byte} (h : s.src.data.drop s.src.pos = b :: ys) :
    s.src.data[s.src.pos]? = some b := by
  have := congrArg (·[0]?) h
  simpa using this

/-- A byte without a code stops ENCODE (60_exceptions.md R131). -/
theorem encodeBody_noCode (s : State) (h : Quiet s) (hv : s.freqValid = true) (hcv : s.codeValid = true) (xs ys : List Byte)
    (b : Byte) (hd : s.src.data = xs ++ b :: ys) (hc : ∀ c ∈ xs, s.codeAt c ≠ []) (hb : s.codeAt b = [])
    (hn : xs.length < s.total.toNat) :
    encodeBody s = .ended (((s.packed xs).setPos (xs.length + 1)).enterFault .noCode (byteInfo b)) := by
  have hq : Quiet (s.packed xs) := h
  have hg : (s.packed xs).src.data[(s.packed xs).src.pos]? = some b :=
    rest_cons (ys := ys) (by show s.src.data.drop xs.length = _; rw [hd, List.drop_left' rfl])
  rw [encodeBody_start s h hv hcv xs (b :: ys) hd hc hn.le, encodeLoop, srcRead_quiet hq, hg, Result.andThen_done]
  dsimp only
  rw [State.setPos_total, show (s.packed xs).total = s.total from rfl, decide_eq_true hn, require_true, Result.andThen_done,
    show (State.setPos ((s.packed xs).src.pos + 1) (s.packed xs)).codeAt b = s.codeAt b from rfl, hb,
    decide_eq_false (by simp), require_false]
  rfl

/-- A source longer than TOTAL stops ENCODE (60_exceptions.md R132). -/
theorem encodeBody_long (s : State) (h : Quiet s) (hv : s.freqValid = true) (hcv : s.codeValid = true) (xs ys : List Byte)
    (b : Byte) (hd : s.src.data = xs ++ b :: ys) (hc : ∀ c ∈ xs, s.codeAt c ≠ []) (hn : xs.length = s.total.toNat) :
    encodeBody s = .ended (((s.packed xs).setPos (xs.length + 1)).enterFault .sourceChanged (BitVec.ofNat 32 xs.length)) := by
  have hq : Quiet (s.packed xs) := h
  have hg : (s.packed xs).src.data[(s.packed xs).src.pos]? = some b :=
    rest_cons (ys := ys) (by show s.src.data.drop xs.length = _; rw [hd, List.drop_left' rfl])
  rw [encodeBody_start s h hv hcv xs (b :: ys) hd hc hn.le, encodeLoop, srcRead_quiet hq, hg, Result.andThen_done]
  dsimp only
  rw [State.setPos_total, show (s.packed xs).total = s.total from rfl, decide_eq_false (by omega), require_false]
  rfl

/-- A source shorter than TOTAL stops ENCODE (60_exceptions.md R132). -/
theorem encodeBody_short (s : State) (h : Quiet s) (hv : s.freqValid = true) (hcv : s.codeValid = true)
    (hc : ∀ b ∈ s.src.data, s.codeAt b ≠ []) (hn : s.src.data.length < s.total.toNat) :
    encodeBody s = .ended ((s.packed s.src.data).enterFault .sourceChanged (BitVec.ofNat 32 s.src.data.length)) := by
  have hq : Quiet (s.packed s.src.data) := h
  rw [encodeBody_start s h hv hcv s.src.data [] (by simp) hc hn.le, List.length_nil, Nat.zero_add, encodeLoop,
    srcRead_quiet hq, show (s.packed s.src.data).src.data[(s.packed s.src.data).src.pos]? = none from
      List.getElem?_eq_none (le_refl s.src.data.length), Result.andThen_done]
  dsimp only
  rw [Result.andThen_done, show (s.packed s.src.data).total = s.total from rfl, decide_eq_false (by omega), require_false]
  rfl

/-! ### Every environment -/

theorem pushDigits_ends (ds buf : List Digit) (s : State) (h : Inv s) :
    (pushDigits ds buf s).Ends (fun _ t => Inv t ∧ SameTables s t ∧ t.src = s.src) Inv := by
  induction ds generalizing buf s with
  | nil => exact ⟨h, .refl s, rfl⟩
  | cons d ds ih =>
    rw [pushDigits]
    split
    · refine ((snkWrite_ends _ s).mono (fun _ _ h => h) fun t ht => ht.inv (by simp) h).andThen ?_
      rintro _ t rfl
      refine (ih _ _ (h.dropAnswer.appendByte _)).mono (fun _ u hu => ⟨hu.1, ?_, hu.2.2⟩) fun _ h => h
      exact ((SameTables.dropAnswer s).trans (.appendByte _ _)).trans hu.2.1
    · exact ih _ s h

theorem encodeLoop_ends (m : Nat) (buf : List Digit) (n : Nat) (s : State) (hm : s.remaining < m) (h : Inv s) :
    (encodeLoop m buf n s).Ends (fun _ t => Inv t) Inv := by
  induction m generalizing buf n s with
  | zero => omega
  | succ m ih =>
    rw [encodeLoop]
    refine ((srcRead_ends s).mono (fun _ _ h => h) fun t ht => ht.inv (by simp) h).andThen fun r t ht => ?_
    obtain ⟨rfl, -, rfl⟩ | ⟨b, rfl, hlt, -, rfl⟩ := ht
    · exact ⟨h.dropAnswer⟩
    · have hi : Inv (s.dropAnswer.setPos (s.src.pos + 1)) := h.dropAnswer.setPos hlt
      dsimp only
      generalize ht : s.dropAnswer.setPos (s.src.pos + 1) = t at hi ⊢
      have hsrc : t.remaining < m := by
        subst ht
        simp only [State.remaining, State.setPos_src, State.dropAnswer_src] at hm ⊢
        omega
      clear ht
      cases decide (n < t.total.toNat)
      · exact ⟨hi.enterFault (by simp) _⟩
      · rw [require_true, Result.andThen_done]
        cases decide (0 < (t.codeAt b).length)
        · exact ⟨hi.enterFault (by simp) _⟩
        · rw [require_true, Result.andThen_done]
          refine (pushDigits_ends _ _ t hi).andThen fun buf u hu => ih _ _ u ?_ hu.1
          rw [State.remaining, hu.2.2]
          exact hsrc

/-- ENCODE ends, and keeps the invariant, in every environment. -/
theorem encodeBody_ends (s : State) (h : Inv s) : (encodeBody s).Ends (fun _ t => Inv t) Inv := by
  rw [encodeBody, requireFlags]
  cases s.freqValid && s.codeValid
  · exact ⟨h.enterFault (by simp) _⟩
  · rw [require_true, Result.andThen_done]
    refine ((notify_ends _ _).mono (fun _ _ h => h) fun t ht => ht ▸ h.dropAnswer.cut).andThen ?_
    rintro _ t rfl
    have h1 : Inv (s.dropAnswer.appendPhase .writingPayload) := h.dropAnswer.appendPhase _
    generalize s.dropAnswer.appendPhase .writingPayload = u at h1 ⊢
    refine ((srcRewind_ends _).mono (fun _ _ h => h) fun t ht => ht.inv (by simp) h1).andThen ?_
    rintro _ t rfl
    refine (encodeLoop_ends _ _ _ _ (Nat.lt_succ_self _) (h1.dropAnswer.setPos (Nat.zero_le _))).andThen fun r v hv => ?_
    obtain ⟨buf, n⟩ := r
    dsimp only
    cases decide (n = v.total.toNat)
    · exact ⟨hv.enterFault (by simp) _⟩
    · rw [require_true, Result.andThen_done, flushBuf]
      split
      · refine (snkWrite_ends _ v).mono ?_ fun t ht => ht.inv (by simp) hv
        rintro _ t rfl
        exact hv.dropAnswer.appendByte _
      · exact ⟨hv⟩

end Sys2Proof.Machine
end

