-- ==== Sys2Proof/Laws/Decoder.lean ====
section
/-! SUPPORT. DECODE: bits and bytes (00_scope.md R7), the walk of the tree along a code (45_decoder.md R95, R96), what the command
comes to on a payload, and that it keeps the invariant in every environment. -/

namespace Sys2Proof.Machine

open Sys2Proof

/-! ### Bits -/

/-- Splitting a byte undoes assembling it (R7). -/
theorem bitsMsb_byteMsb {c : List Digit} (h : c.length = 8) : bitsMsb (byteMsb c) = c := by
  match c, h with
  | [a, b, c, d, e, f, g, i], _ =>
    revert a b c d e f g i
    decide

/-- Assembling undoes splitting (R7). -/
theorem byteMsb_bitsMsb (b : Byte) : byteMsb (bitsMsb b) = b := by
  revert b
  decide

theorem bitsMsb_length (b : Byte) : (bitsMsb b).length = 8 := rfl

theorem flatMap_bitsMsb_length (bs : List Byte) : (bs.flatMap bitsMsb).length = 8 * bs.length := by
  induction bs with
  | nil => rfl
  | cons b bs ih =>
    simp only [List.flatMap_cons, List.length_append, ih, bitsMsb_length, List.length_cons]
    omega

/-- The bits of a payload are the digits and the padding (R52). -/
theorem payload_bits (ds : List Digit) :
    (payload ds).flatMap bitsMsb = ds ++ List.replicate (8 * ((ds.length + 7) / 8) - ds.length) Config.pad := by
  induction ds using groups_induction with
  | short ds h =>
    rw [payload_eq, fullBytes_of_lt h, leftDigits_of_lt h, List.nil_append, flushBytes]
    by_cases h0 : 0 < ds.length
    · have hn : (ds.length + 7) / 8 = 1 := by omega
      rw [if_pos h0, List.flatMap_singleton, hn, padByte, bitsMsb_byteMsb]
      rw [List.length_append, List.length_replicate]
      omega
    · have : ds = [] := List.length_eq_zero_iff.mp (by omega)
      subst this
      rfl
  | group c ds hc ih =>
    have hr : 8 * (((c ++ ds).length + 7) / 8) - (c ++ ds).length = 8 * ((ds.length + 7) / 8) - ds.length := by
      rw [List.length_append, hc]
      omega
    rw [payload_group hc, List.flatMap_cons, bitsMsb_byteMsb hc, ih, hr, List.append_assoc]

/-! ### Emission -/

/-- Bytes written to the sink and counted. -/
def State.emitAll (bs : List Byte) (s : State) : State :=
  { s with snk := s.snk ++ bs, emitted := s.emitted + BitVec.ofNat 32 bs.length }

theorem emitAll_nil (s : State) : s.emitAll [] = s := by simp [State.emitAll]

theorem emitAll_cons (b : Byte) (bs : List Byte) (s : State) : (s.emitAll [b]).emitAll bs = s.emitAll (b :: bs) := by
  simp only [State.emitAll, List.append_assoc, List.singleton_append, List.length_cons, List.length_nil, Nat.zero_add,
    BitVec.add_assoc, ← BitVec.ofNat_add, Nat.add_comm 1]

theorem emitAll_append (as bs : List Byte) (s : State) : (s.emitAll as).emitAll bs = s.emitAll (as ++ bs) := by
  simp only [State.emitAll, List.append_assoc, List.length_append, BitVec.add_assoc, ← BitVec.ofNat_add]

theorem emit_quiet (b : Byte) (s : State) (h : Quiet s) : emit b s = .done () (s.emitAll [b]) := by
  rw [emit, snkWrite_quiet h]
  rfl

/-- `s` is at the point of DECODE where these bytes are still to come. -/
def Awaits (s : State) (ys : List Byte) : Prop := s.emitted.toNat + ys.length = s.total.toNat

theorem Awaits.emitAll {s : State} {as bs : List Byte} (h : Awaits s (as ++ bs)) : Awaits (s.emitAll as) bs := by
  have hlt := s.total.isLt
  rw [Awaits, List.length_append] at h
  show (s.emitted + BitVec.ofNat 32 as.length).toNat + bs.length = s.total.toNat
  rw [BitVec.toNat_add, BitVec.toNat_ofNat]
  omega

theorem Awaits.finished {s : State} {ys : List Byte} (h : Awaits s ys) : s.emitted = s.total ↔ ys = [] := by
  rw [Awaits] at h
  constructor
  · intro he
    rw [he] at h
    exact List.length_eq_zero_iff.mp (by omega)
  · rintro rfl
    exact BitVec.eq_of_toNat_eq (by simpa using h)

/-! ### The walk -/

/-- The walk from root index `root`: from position `cur` the digits `ds` stand for the bytes `ys`. Whatever `A` says of position,
digits and bytes, one bit takes it on (R95, R96). -/
structure Decodes (nodes : Vector Node 511) (root : NodeIdx) (A : NodeIdx → List Digit → List Byte → Prop) : Prop where
  step : ∀ (s : State) (cur : NodeIdx) (d : Digit) (ds : List Digit) (ys : List Byte), s.node = nodes → A cur (d :: ds) ys →
    (∃ b zs nxt, ys = b :: zs ∧ decodeBit root d cur s = (emit b s).andThen (fun _ s => .done nxt s) ∧
      ((zs = [] ∧ ds = []) ∨ (zs ≠ [] ∧ A nxt ds zs))) ∨
    (∃ nxt, decodeBit root d cur s = .done nxt s ∧ A nxt ds ys)
  digits : ∀ cur ds ys, A cur ds ys → ds ≠ []
  bytes : ∀ cur ds ys, A cur ds ys → ys ≠ []

section
variable {nodes : Vector Node 511} {root : NodeIdx} {A : NodeIdx → List Digit → List Byte → Prop}

/-- Bits that stop short of the last digit. -/
theorem decodeBits_part (h : Decodes nodes root A) (ds ds' : List Digit) (cur : NodeIdx) (ys : List Byte) (s : State)
    (hq : Quiet s) (hn : s.node = nodes) (hA : A cur (ds ++ ds') ys) (hd : ds' ≠ []) (hw : Awaits s ys) :
    ∃ nxt as bs, decodeBits root ds cur s = .done nxt (s.emitAll as) ∧ ys = as ++ bs ∧ A nxt ds' bs := by
  induction ds generalizing cur ys s with
  | nil => exact ⟨cur, [], ys, by rw [decodeBits, emitAll_nil], rfl, hA⟩
  | cons d ds ih =>
    rw [decodeBits]
    obtain ⟨b, zs, nxt, rfl, he, ⟨-, hcon⟩ | ⟨hz, hA'⟩⟩ | ⟨nxt, he, hA'⟩ := h.step s cur d (ds ++ ds') ys hn hA
    · simp [hd] at hcon
    · have hw' : Awaits (s.emitAll [b]) zs := Awaits.emitAll (as := [b]) hw
      rw [he, emit_quiet b s hq, Result.andThen_done, Result.andThen_done, if_neg (fun hc => hz (hw'.finished.mp hc))]
      obtain ⟨nxt', as, bs, he', rfl, hA''⟩ := ih nxt zs (s.emitAll [b]) hq hn hA' hw'
      exact ⟨nxt', b :: as, bs, by rw [he', emitAll_cons], rfl, hA''⟩
    · rw [he, Result.andThen_done, if_neg (fun hc => h.bytes _ _ _ hA (hw.finished.mp hc))]
      exact ih nxt ys s hq hn hA' hw

/-- Bits that hold the last digit: the bits behind it are discarded (R95, R97). -/
theorem decodeBits_last (h : Decodes nodes root A) (ds junk : List Digit) (cur : NodeIdx) (ys : List Byte) (s : State)
    (hq : Quiet s) (hn : s.node = nodes) (hA : A cur ds ys) (hw : Awaits s ys) :
    ∃ nxt, decodeBits root (ds ++ junk) cur s = .done nxt (s.emitAll ys) := by
  induction ds generalizing cur ys s with
  | nil => exact absurd rfl (h.digits _ _ _ hA)
  | cons d ds ih =>
    rw [List.cons_append, decodeBits]
    obtain ⟨b, zs, nxt, rfl, he, hr⟩ | ⟨nxt, he, hA'⟩ := h.step s cur d ds ys hn hA
    · have hw' : Awaits (s.emitAll [b]) zs := Awaits.emitAll (as := [b]) hw
      rw [he, emit_quiet b s hq, Result.andThen_done, Result.andThen_done]
      obtain ⟨rfl, -⟩ | ⟨hz, hA'⟩ := hr
      · rw [if_pos (hw'.finished.mpr rfl)]
        exact ⟨nxt, rfl⟩
      · rw [if_neg (fun hc => hz (hw'.finished.mp hc))]
        obtain ⟨nxt', he'⟩ := ih nxt zs (s.emitAll [b]) hq hn hA' hw'
        exact ⟨nxt', by rw [he', emitAll_cons]⟩
    · rw [he, Result.andThen_done, if_neg (fun hc => h.bytes _ _ _ hA (hw.finished.mp hc))]
      exact ih nxt ys s hq hn hA' hw

theorem Awaits.lt {s : State} {ys : List Byte} (h : Awaits s ys) (hy : ys ≠ []) : s.emitted.toNat < s.total.toNat := by
  have := List.length_pos_iff.mpr hy
  rw [Awaits] at h
  omega

theorem Awaits.not_lt {s : State} (h : Awaits s []) : ¬ s.emitted.toNat < s.total.toNat := by
  rw [Awaits, List.length_nil] at h
  omega

/-- The bytes that hold the digits are read, no byte behind them is, and the sink gains what they stand for (R95, R97). -/
theorem decodeLoop_whole (h : Decodes nodes root A) (pl tail : List Byte) (junk ds : List Digit) (m : Nat) (cur : NodeIdx)
    (ys : List Byte) (s : State) (hq : Quiet s) (hn : s.node = nodes) (hA : A cur ds ys) (hw : Awaits s ys)
    (hr : s.rest = pl ++ tail) (hb : pl.flatMap bitsMsb = ds ++ junk) (hj : junk.length < 8) (hm : pl.length < m) :
    decodeLoop root m cur s = .done () ((s.emitAll ys).setPos (s.src.pos + pl.length)) := by
  induction pl generalizing ds m cur ys s with
  | nil =>
    have := h.digits _ _ _ hA
    simp only [List.flatMap_nil] at hb
    simp [List.append_eq_nil_iff.mp hb.symm |>.1] at this
  | cons b pl ih =>
    obtain ⟨m, rfl⟩ : ∃ k, m = k + 1 := ⟨m - 1, by omega⟩
    have hg : s.src.data[s.src.pos]? = some b := rest_cons (ys := pl ++ tail) hr
    have hr' : (s.setPos (s.src.pos + 1)).rest = pl ++ tail := by
      rw [State.rest, State.setPos_src, ← List.drop_drop]
      rw [State.rest] at hr
      rw [hr]
      rfl
    rw [decodeLoop, if_pos (hw.lt (h.bytes _ _ _ hA)), srcRead_quiet hq, hg, Result.andThen_done]
    dsimp only
    have hlen := flatMap_bitsMsb_length pl
    rw [List.flatMap_cons] at hb
    by_cases h8 : ds.length ≤ 8
    · -- the last byte
      have hpl : pl = [] := by
        have := congrArg List.length hb
        simp only [List.length_append, hlen, bitsMsb_length] at this
        exact List.length_eq_zero_iff.mp (by omega)
      subst hpl
      simp only [List.flatMap_nil, List.append_nil] at hb
      obtain ⟨nxt, he⟩ := decodeBits_last h ds junk cur ys (s.setPos (s.src.pos + 1)) hq hn hA hw
      rw [hb, he, Result.andThen_done]
      obtain ⟨m, rfl⟩ : ∃ k, m = k + 1 := ⟨m - 1, by simp only [List.length_cons] at hm; omega⟩
      have hw' : Awaits ((s.setPos (s.src.pos + 1)).emitAll ys) [] :=
        Awaits.emitAll (s := s.setPos (s.src.pos + 1)) (by rw [List.append_nil]; exact hw)
      rw [decodeLoop, if_neg hw'.not_lt]
      rfl
    · -- more digits to come
      obtain ⟨ds', rfl, hb'⟩ : ∃ ds', ds = bitsMsb b ++ ds' ∧ pl.flatMap bitsMsb = ds' ++ junk := by
        obtain ⟨e, h1, h2⟩ | ⟨e, h1, h2⟩ := List.append_eq_append_iff.mp hb
        · exact ⟨e, h1, h2⟩
        · have := congrArg List.length h1
          rw [List.length_append, bitsMsb_length] at this
          omega
      have hd' : ds' ≠ [] := by
        rintro rfl
        simp [bitsMsb_length] at h8
      obtain ⟨nxt, as, bs, he, rfl, hA'⟩ :=
        decodeBits_part h (bitsMsb b) ds' cur ys (s.setPos (s.src.pos + 1)) hq hn hA hd' hw
      rw [he, Result.andThen_done]
      have hw' : Awaits ((s.setPos (s.src.pos + 1)).emitAll as) bs := Awaits.emitAll (s := s.setPos (s.src.pos + 1)) hw
      rw [ih ds' m nxt bs ((s.setPos (s.src.pos + 1)).emitAll as) hq hn hA' hw' hr' hb'
        (by simp only [List.length_cons] at hm; omega), emitAll_append]
      show Result.done () ((s.emitAll (as ++ bs)).setPos (s.src.pos + 1 + pl.length)) = _
      rw [List.length_cons, show s.src.pos + 1 + pl.length = s.src.pos + (pl.length + 1) by omega]

/-- A source that ends inside the payload: MalformedContainerError(4), with the bytes decoded so far in the sink; the digits that are
missing stand for the others, from the walk's position on (R95, R97). -/
theorem decodeLoop_truncated (h : Decodes nodes root A) (pl : List Byte) (ds : List Digit) (m : Nat) (cur : NodeIdx)
    (ys : List Byte) (s : State) (hq : Quiet s) (hn : s.node = nodes) (hA : A cur (pl.flatMap bitsMsb ++ ds) ys) (hd : ds ≠ [])
    (hw : Awaits s ys) (hr : s.rest = pl) (hm : pl.length < m) :
    ∃ as bs cur', ys = as ++ bs ∧ A cur' ds bs ∧
      decodeLoop root m cur s =
        .ended (((s.emitAll as).setPos (s.src.pos + pl.length)).enterFault .malformedContainer 4) := by
  induction pl generalizing m cur ys s with
  | nil =>
    obtain ⟨m, rfl⟩ : ∃ k, m = k + 1 := ⟨m - 1, by omega⟩
    have hg : s.src.data[s.src.pos]? = none := List.getElem?_eq_none (List.drop_eq_nil_iff.mp hr)
    refine ⟨[], ys, cur, rfl, hA, ?_⟩
    rw [decodeLoop, if_pos (hw.lt (h.bytes _ _ _ hA)), srcRead_quiet hq, hg, Result.andThen_done, emitAll_nil]
    rfl
  | cons b pl ih =>
    obtain ⟨m, rfl⟩ : ∃ k, m = k + 1 := ⟨m - 1, by omega⟩
    have hg : s.src.data[s.src.pos]? = some b := rest_cons hr
    have hr' : (s.setPos (s.src.pos + 1)).rest = pl := by
      rw [State.rest, State.setPos_src, ← List.drop_drop]
      rw [State.rest] at hr
      rw [hr]
      rfl
    rw [decodeLoop, if_pos (hw.lt (h.bytes _ _ _ hA)), srcRead_quiet hq, hg, Result.andThen_done]
    dsimp only
    rw [List.flatMap_cons, List.append_assoc] at hA
    obtain ⟨nxt, as, bs, he, rfl, hA'⟩ :=
      decodeBits_part h (bitsMsb b) _ cur ys (s.setPos (s.src.pos + 1)) hq hn hA (by simp [hd]) hw
    rw [he, Result.andThen_done]
    have hw' : Awaits ((s.setPos (s.src.pos + 1)).emitAll as) bs := Awaits.emitAll (s := s.setPos (s.src.pos + 1)) hw
    obtain ⟨as', bs', cur', rfl, hA'', he'⟩ := ih m nxt bs ((s.setPos (s.src.pos + 1)).emitAll as) hq hn hA' hw' hr'
      (by simp only [List.length_cons] at hm; omega)
    refine ⟨as ++ as', bs', cur', (List.append_assoc _ _ _).symm, hA'', ?_⟩
    rw [he', emitAll_append]
    show Result.ended (((s.emitAll (as ++ as')).setPos (s.src.pos + 1 + pl.length)).enterFault .malformedContainer 4) = _
    rw [List.length_cons, show s.src.pos + 1 + pl.length = s.src.pos + (pl.length + 1) by omega]

end

/-- A walk position in an internal node: the rest of one code, then whole codes. -/
def WalkAt (nodes : Vector Node 511) (T : Tree) (code : Byte → List Digit) (cur : NodeIdx) (ds : List Digit)
    (ys : List Byte) : Prop :=
  ∃ (n : Nat) (w : Word) (l r : Tree) (b : Byte) (p : List Digit) (zs : List Byte),
    (∀ s : State, s.node = nodes → treeAt s n cur = some (.internal w l r)) ∧ (b, p) ∈ (Tree.internal w l r).leafPaths ∧
    ys = b :: zs ∧ ds = p ++ zs.flatMap code ∧ (∀ z ∈ zs, (z, code z) ∈ T.leafPaths) ∧ p.length ≤ (code b).length

theorem treeAt_internal_cases {s : State} {n : Nat} {i : NodeIdx} {w : Word} {tl tr : Tree}
    (h : treeAt s n i = some (.internal w tl tr)) :
    ∃ m l r, n = m + 1 ∧ s.nodeAt i = .internal w l r ∧ treeAt s m l = some tl ∧ treeAt s m r = some tr := by
  cases n with
  | zero => simp [treeAt] at h
  | succ n =>
    cases hi : s.nodeAt i with
    | leaf b w => simp [treeAt, hi] at h
    | internal w' l r =>
      simp only [treeAt, hi] at h
      cases hl : treeAt s n l with
      | none => simp [hl] at h
      | some tl' =>
        cases hr : treeAt s n r with
        | none => simp [hl, hr] at h
        | some tr' =>
          simp only [hl, hr, Option.some.injEq, Tree.internal.injEq] at h
          obtain ⟨rfl, rfl, rfl⟩ := h
          exact ⟨n, l, r, rfl, rfl, hl, hr⟩

theorem treeAt_leaf_cases {s : State} {n : Nat} {i : NodeIdx} {b : Byte} {w : Word} (h : treeAt s n i = some (.leaf b w)) :
    s.nodeAt i = .leaf b w := by
  cases n with
  | zero => simp [treeAt] at h
  | succ n =>
    cases hi : s.nodeAt i with
    | leaf b' w' =>
      simp only [treeAt, hi, Option.some.injEq, Tree.leaf.injEq] at h
      rw [h.1, h.2]
    | internal w' l r =>
      simp only [treeAt, hi] at h
      split at h <;> simp at h

/-- DECODE's walk along the codes of a tree that is no single leaf. -/
theorem decodes_internal (s₀ : State) (root : NodeIdx) (n : Nat) (w : Word) (l r : Tree) (code : Byte → List Digit)
    (hT : treeAt s₀ n root = some (.internal w l r)) :
    Decodes s₀.node root (WalkAt s₀.node (.internal w l r) code) where
  digits := by
    rintro cur ds ys ⟨n, w, l, r, b, p, zs, -, hp, rfl, rfl, -, -⟩
    have := Tree.codes_ne_nil (T := .internal w l r) hp
    simp [this]
  bytes := by
    rintro cur ds ys ⟨n, w, l, r, b, p, zs, -, hp, rfl, rfl, -, -⟩
    simp
  step := by
    rintro s cur d ds ys hs ⟨m, w', l', r', b, p, zs, hC, hp, rfl, hds, hz, hlen⟩
    obtain ⟨_, _, _, -, hroot, -, -⟩ := treeAt_internal_cases ((treeAt_congr hs n root).trans hT)
    obtain ⟨m, cl, cr, rfl, hcur, hl, hr⟩ := treeAt_internal_cases (hC s hs)
    -- the child the digit leads to, and the rest of the path in it
    obtain ⟨q, C, hpq, hq, hchild⟩ : ∃ q C, p = d :: q ∧ (b, q) ∈ C.leafPaths ∧
        treeAt s m ((s.nodeAt cur).child d) = some C := by
      simp only [Tree.leafPaths, List.mem_append, List.mem_map, Prod.mk.injEq] at hp
      obtain ⟨y, hy, rfl, rfl⟩ | ⟨y, hy, rfl, rfl⟩ := hp
      · have hd : d = false := by simpa using congrArg List.head? hds
        subst hd
        exact ⟨y.2, l', rfl, hy, by rw [hcur]; exact hl⟩
      · have hd : d = true := by simpa using congrArg List.head? hds
        subst hd
        exact ⟨y.2, r', rfl, hy, by rw [hcur]; exact hr⟩
    subst hpq
    have hds' : ds = q ++ zs.flatMap code := (List.cons.inj hds).2
    simp only [decodeBit, hroot]
    cases C with
    | leaf b' w'' =>
      simp only [Tree.leafPaths, List.mem_singleton, Prod.mk.injEq] at hq
      obtain ⟨rfl, rfl⟩ := hq
      refine .inl ⟨b, zs, root, rfl, by simp only [treeAt_leaf_cases hchild], ?_⟩
      cases zs with
      | nil => exact .inl ⟨rfl, by simpa using hds'⟩
      | cons z zs =>
        refine .inr ⟨by simp, n, w, l, r, z, code z, zs, fun t ht => (treeAt_congr ht n root).trans hT, hz z (by simp), rfl,
          by simpa using hds', fun y hy => hz y (by simp [hy]), Nat.le_refl _⟩
    | internal w'' l'' r'' =>
      obtain ⟨_, _, _, -, hn, -, -⟩ := treeAt_internal_cases hchild
      refine .inr ⟨(s.nodeAt cur).child d, by simp only [hn], m, w'', l'', r'', b, q, zs, fun t ht => ?_, hq, rfl, hds', hz,
        by simp only [List.length_cons] at hlen; omega⟩
      exact (treeAt_congr (ht.trans hs.symm) m _).trans hchild

/-- The digits from a walk position on: more than the codes of the bytes behind the next one, and no more than with its code. -/
theorem WalkAt.span {nodes : Vector Node 511} {T : Tree} {code : Byte → List Digit} {cur : NodeIdx} {ds : List Digit} {b : Byte}
    {zs : List Byte} (h : WalkAt nodes T code cur ds (b :: zs)) :
    (zs.flatMap code).length < ds.length ∧ ds.length ≤ ((b :: zs).flatMap code).length := by
  obtain ⟨n, w, l, r, b', p, zs', -, hp, hy, rfl, -, hlen⟩ := h
  obtain ⟨rfl, rfl⟩ := List.cons.inj hy
  have : 0 < p.length := List.length_pos_iff.mpr (Tree.codes_ne_nil (T := .internal w l r) hp)
  simp only [List.flatMap_cons, List.length_append]
  omega

/-- DECODE's walk in a tree that is a single leaf: one digit 0 for each byte (R96). -/
theorem decodes_leaf (s₀ : State) (root : NodeIdx) (b : Byte) (w : Word) (hT : s₀.nodeAt root = .leaf b w) :
    Decodes s₀.node root fun _ ds ys => ys ≠ [] ∧ ds = List.replicate ys.length false ∧ ∀ y ∈ ys, y = b where
  digits := by
    rintro cur ds ys ⟨hy, rfl, -⟩
    simp [hy]
  bytes := by
    rintro cur ds ys ⟨hy, -, -⟩
    exact hy
  step := by
    rintro s cur d ds ys hs ⟨hy, hds, hb⟩
    obtain ⟨y, zs, rfl⟩ := List.exists_cons_of_ne_nil hy
    obtain ⟨rfl, hds'⟩ : d = false ∧ ds = List.replicate zs.length false := by
      rw [List.length_cons, List.replicate_succ] at hds
      exact List.cons.inj hds
    obtain rfl := hb y (by simp)
    refine .inl ⟨y, zs, cur, rfl, by simp only [decodeBit, (nodeAt_congr hs root).trans hT, Bool.not_false, require_true,
      Result.andThen_done], ?_⟩
    cases zs with
    | nil => exact .inl ⟨rfl, hds'⟩
    | cons z zs => exact .inr ⟨by simp, by simp, hds', fun y hy => hb y (by simp [hy])⟩

/-! ### Every environment -/

theorem emit_ends (b : Byte) (s : State) (h : Inv s) :
    (emit b s).Ends (fun _ t => Inv t ∧ SameTables s t ∧ t.src = s.src) Inv := by
  refine ((snkWrite_ends b s).mono (fun _ _ h => h) fun t ht => ht.inv (by simp) h).andThen ?_
  rintro _ t rfl
  refine ⟨(h.dropAnswer.appendByte b).bumpEmitted, ?_, rfl⟩
  exact ((SameTables.dropAnswer s).trans (.appendByte b _)).trans (.bumpEmitted _)

theorem decodeBit_ends (root : NodeIdx) (d : Digit) (cur : NodeIdx) (s : State) (h : Inv s) :
    (decodeBit root d cur s).Ends (fun _ t => Inv t ∧ SameTables s t ∧ t.src = s.src) Inv := by
  unfold decodeBit
  split
  · cases d
    · rw [Bool.not_false, require_true, Result.andThen_done]
      exact (emit_ends _ s h).andThen fun _ t ht => ⟨ht⟩
    · exact ⟨h.enterFault (by simp) _⟩
  · split
    · exact (emit_ends _ s h).andThen fun _ t ht => ⟨ht⟩
    · exact ⟨h, .refl s, rfl⟩

theorem decodeBits_ends (root : NodeIdx) (ds : List Digit) (cur : NodeIdx) (s : State) (h : Inv s) :
    (decodeBits root ds cur s).Ends (fun _ t => Inv t ∧ t.src = s.src) Inv := by
  induction ds generalizing cur s with
  | nil => exact ⟨h, rfl⟩
  | cons d ds ih =>
    refine (decodeBit_ends root d cur s h).andThen fun cur t ht => ?_
    split
    · exact ⟨ht.1, ht.2.2⟩
    · exact (ih cur t ht.1).mono (fun _ u hu => ⟨hu.1, hu.2.trans ht.2.2⟩) fun _ h => h

theorem decodeLoop_ends (root : NodeIdx) (m : Nat) (cur : NodeIdx) (s : State) (hm : s.remaining < m) (h : Inv s) :
    (decodeLoop root m cur s).Ends (fun _ t => Inv t) Inv := by
  induction m generalizing cur s with
  | zero => omega
  | succ m ih =>
    rw [decodeLoop]
    split
    · refine ((srcRead_ends s).mono (fun _ _ h => h) fun t ht => ht.inv (by simp) h).andThen fun r t ht => ?_
      obtain ⟨rfl, -, rfl⟩ | ⟨b, rfl, hlt, -, rfl⟩ := ht
      · exact ⟨h.dropAnswer.enterFault (by simp) _⟩
      · have hi : Inv (s.dropAnswer.setPos (s.src.pos + 1)) := h.dropAnswer.setPos hlt
        refine (decodeBits_ends root _ cur _ hi).andThen fun cur u hu => ih cur u ?_ hu.1
        rw [State.remaining, hu.2]
        simp only [State.remaining, State.setPos_src, State.dropAnswer_src] at hm ⊢
        omega
    · exact ⟨h⟩

/-- DECODE ends, and keeps the invariant, in every environment. -/
theorem decodeBody_ends (s : State) (h : Inv s) : (decodeBody s).Ends (fun _ t => Inv t) Inv := by
  rw [decodeBody, requireFlags]
  cases s.freqValid && s.treeDone
  · exact ⟨h.enterFault (by simp) _⟩
  · rw [require_true, Result.andThen_done]
    refine ((notify_ends _ _).mono (fun _ _ h => h) fun t ht => ht ▸ h.dropAnswer.cut).andThen ?_
    rintro _ t rfl
    have h1 := (h.dropAnswer.appendPhase .readingPayload).clearEmitted
    generalize (s.dropAnswer.appendPhase .readingPayload).clearEmitted = u at h1 ⊢
    dsimp only
    split
    · exact decodeLoop_ends _ _ _ u (Nat.lt_succ_self _) h1
    · exact ⟨h1⟩

end Sys2Proof.Machine
end

