-- ==== Sys2Proof/Laws/Codec.lean ====
section
/-! SUPPORT. DECODE on the payload of the state's own codes (45_decoder.md R95 to R99), and that COMPRESS, DECOMPRESS and the
queue commands end and keep the invariant (47_codec.md R107). -/

namespace Sys2Proof.Machine

open Sys2Proof

/-! ### DECODE -/

/-- Position and digits at the start of the payload of these bytes, and how many digits there are at any position. -/
theorem TreeOfTable.decodes {s : State} (h : TreeOfTable s) (xs : List Byte) (hx : ∀ b ∈ xs, b ∈ s.present) (h0 : xs ≠ []) :
    ∃ A, Decodes s.node s.rootIdx A ∧ A s.rootIdx (xs.flatMap s.treeCode) xs ∧
      ∀ cur ds b zs, A cur ds (b :: zs) →
        (zs.flatMap s.treeCode).length < ds.length ∧ ds.length ≤ ((b :: zs).flatMap s.treeCode).length := by
  obtain ⟨y, ys, rfl⟩ := List.exists_cons_of_ne_nil h0
  have hp : s.present ≠ [] := List.ne_nil_of_mem (hx y (by simp))
  obtain ⟨hv, -, -, T, hT, hperm, -, -, -⟩ := h.2.2 hp
  have hmem : ∀ b ∈ y :: ys, (b, s.treeCode b) ∈ T.codes := by
    intro b hb
    have := h.mem_treeCodes (hx b hb)
    simpa only [State.treeCodes, hT] using this
  have hTr : treeAt s Config.nodeCap s.rootIdx = some T := by simpa only [State.tree, hv, if_true] using hT
  cases T with
  | leaf b w =>
    have hone : ∀ z ∈ y :: ys, z = b ∧ s.treeCode z = [false] := by
      intro z hz
      simpa only [Tree.codes, List.mem_singleton, Prod.mk.injEq] using hmem z hz
    have hb : s.treeCode b = [false] := by
      obtain ⟨rfl, hy⟩ := hone y (by simp)
      exact hy
    refine ⟨_, decodes_leaf s s.rootIdx b w (treeAt_leaf_cases hTr), ⟨by simp, ?_, fun z hz => (hone z hz).1⟩, ?_⟩
    rotate_left
    · rintro cur ds c zs ⟨-, rfl, hall⟩
      have hlen : ∀ l : List Byte, (∀ z ∈ l, z = b) → (l.flatMap s.treeCode).length = l.length := by
        intro l hl
        induction l with
        | nil => rfl
        | cons z l ih =>
          rw [List.flatMap_cons, List.length_append, ih fun u hu => hl u (by simp [hu]), hl z (by simp), hb, List.length_cons]
          exact Nat.add_comm _ _
      rw [hlen zs fun u hu => hall u (by simp [hu]), hlen _ hall, List.length_replicate, List.length_cons]
      exact ⟨Nat.lt_succ_self _, Nat.le_refl _⟩
    clear hx h0 hmem
    generalize y :: ys = l at hone
    induction l with
    | nil => rfl
    | cons z l ih =>
      rw [List.flatMap_cons, (hone z (by simp)).2, List.length_cons, List.replicate_succ, List.singleton_append]
      exact congrArg _ (ih fun u hu => hone u (by simp [hu]))
  | internal w l r =>
    refine ⟨_, decodes_internal s s.rootIdx Config.nodeCap w l r s.treeCode hTr, ⟨Config.nodeCap, w, l, r, y, s.treeCode y, ys,
      fun t ht => (treeAt_congr ht _ _).trans hTr, hmem y (by simp), rfl, by simp, fun z hz => hmem z (by simp [hz]), Nat.le_refl _⟩,
      fun cur ds b zs hA => hA.span⟩

theorem decodeBody_start (s : State) (h : Quiet s) (hv : s.freqValid = true) (hd : s.treeDone = true) :
    decodeBody s =
      if 0 < s.total.toNat then
        decodeLoop s.rootIdx (s.remaining + 1) s.rootIdx (s.appendPhase .readingPayload).clearEmitted
      else .done () (s.appendPhase .readingPayload).clearEmitted := by
  rw [decodeBody, requireFlags, hv, hd, Bool.and_self, require_true, Result.andThen_done, notify_quiet h, Result.andThen_done]
  rfl

/-- A payload's bits are its digits and fewer than eight more. -/
theorem payload_bits_lt (ds : List Digit) : ∃ junk, (payload ds).flatMap bitsMsb = ds ++ junk ∧ junk.length < 8 := by
  refine ⟨_, payload_bits ds, ?_⟩
  rw [List.length_replicate]
  omega

/-- On bytes that hold the tree's codes DECODE writes what they stand for and reads no byte behind them; the fewer than eight bits
behind the last code may be anything (R95, R97). -/
theorem decodeBody_quiet (s : State) (h : Quiet s) (hv : s.freqValid = true) (hd : s.treeDone = true) (ht : TreeOfTable s)
    (xs pl tail : List Byte) (junk : List Digit) (hx : ∀ b ∈ xs, b ∈ s.present) (hl : xs.length = s.total.toNat)
    (hb : pl.flatMap bitsMsb = xs.flatMap s.treeCode ++ junk) (hj : junk.length < 8) (hr : s.rest = pl ++ tail) :
    decodeBody s = .done () (((s.appendPhase .readingPayload).clearEmitted.emitAll xs).setPos (s.src.pos + pl.length)) := by
  have hpl := flatMap_bitsMsb_length pl
  rw [decodeBody_start s h hv hd]
  by_cases h0 : xs = []
  · subst h0
    have : pl = [] := by
      rw [hb, List.flatMap_nil, List.nil_append] at hpl
      exact List.length_eq_zero_iff.mp (by omega)
    subst this
    rw [if_neg (by simp only [List.length_nil] at hl; omega), emitAll_nil]
    rfl
  · have hpos : 0 < xs.length := List.length_pos_iff.mpr h0
    obtain ⟨A, hA, hstart, -⟩ := ht.decodes xs hx h0
    have hlen := congrArg List.length hr
    rw [rest_length, List.length_append] at hlen
    rw [if_pos (by omega)]
    exact decodeLoop_whole hA _ tail junk _ _ s.rootIdx xs (s.appendPhase .readingPayload).clearEmitted h rfl hstart
      (by show 0 + xs.length = s.total.toNat; omega) hr hb hj (by omega)

/-- A source that ends inside the payload (R95, R97): the bytes whose codes lie whole in what is left of it are decoded, and no more. -/
theorem decodeBody_truncated (s : State) (h : Quiet s) (hv : s.freqValid = true) (hd : s.treeDone = true) (ht : TreeOfTable s)
    (xs more : List Byte) (hx : ∀ b ∈ xs, b ∈ s.present) (hl : xs.length = s.total.toNat)
    (hr : payload (xs.flatMap s.treeCode) = s.rest ++ more) (hm : more ≠ []) :
    ∃ as b bs, xs = as ++ b :: bs ∧ (as.flatMap s.treeCode).length ≤ 8 * s.rest.length ∧
      8 * s.rest.length < ((as ++ [b]).flatMap s.treeCode).length ∧
      decodeBody s = .ended ((((s.appendPhase .readingPayload).clearEmitted.emitAll as).setPos
        (s.src.pos + s.rest.length)).enterFault .malformedContainer 4) := by
  have h0 : xs ≠ [] := by
    rintro rfl
    rw [List.flatMap_nil, show payload [] = [] from rfl] at hr
    exact hm (List.append_eq_nil_iff.mp hr.symm).2
  have hpos : 0 < xs.length := List.length_pos_iff.mpr h0
  obtain ⟨A, hA, hstart, hspan⟩ := ht.decodes xs hx h0
  obtain ⟨junk, hb, hj⟩ := payload_bits_lt (xs.flatMap s.treeCode)
  rw [hr, List.flatMap_append] at hb
  have hml : 0 < more.length := List.length_pos_iff.mpr hm
  have hml' := flatMap_bitsMsb_length more
  obtain ⟨ds, hds, hne⟩ : ∃ ds, xs.flatMap s.treeCode = s.rest.flatMap bitsMsb ++ ds ∧ ds ≠ [] := by
    obtain ⟨e, h1, h2⟩ | ⟨e, h1, h2⟩ := List.append_eq_append_iff.mp hb
    · refine ⟨e, h1, ?_⟩
      rintro rfl
      have := congrArg List.length h2
      simp only [List.nil_append] at this
      omega
    · have := congrArg List.length h2
      rw [List.length_append] at this
      omega
  rw [decodeBody_start s h hv hd, if_pos (by omega)]
  rw [hds] at hstart
  obtain ⟨as, bs, cur, rfl, hleft, he⟩ := decodeLoop_truncated hA s.rest ds (s.remaining + 1) s.rootIdx xs
    (s.appendPhase .readingPayload).clearEmitted h rfl hstart hne (by show 0 + xs.length = s.total.toNat; omega) rfl
    (by rw [rest_length]; omega)
  obtain ⟨b, bs, rfl⟩ := List.exists_cons_of_ne_nil (hA.bytes _ _ _ hleft)
  obtain ⟨h1, h2⟩ := hspan _ _ _ _ hleft
  have hcount := congrArg List.length hds
  rw [List.flatMap_append, List.length_append, List.length_append, flatMap_bitsMsb_length] at hcount
  rw [List.flatMap_cons, List.length_append] at hcount h2
  refine ⟨as, b, bs, rfl, by omega, ?_, he⟩
  rw [List.flatMap_append, List.length_append, List.flatMap_singleton]
  omega

/-! ### The commands of the codec and of the queue, in every environment -/

theorem payloadBody_ends (s : State) (h : Inv s) : (payloadBody s).Ends (fun _ t => Inv t) Inv :=
  (buildBody_ends s h).andThen fun _ t ht => (gencodeBody_ends t ht.1).andThen fun _ u hu => encodeBody_ends u hu

theorem compressBody_ends (s : State) (h : Inv s) : (compressBody s).Ends (fun _ t => Inv t) Inv := by
  refine (countBody_ends s h).andThen fun _ t ht => ?_
  refine (wrhdrBody_ends t ht.1).andThen fun _ u hu => ?_
  split
  · exact payloadBody_ends u hu.1
  · exact ⟨hu.1⟩

theorem decompressBody_ends (s : State) (h : Inv s) : (decompressBody s).Ends (fun _ t => Inv t) Inv :=
  (rdhdrBody_ends s h).andThen fun _ t ht => (buildBody_ends t ht.1).andThen fun _ u hu => decodeBody_ends u hu.1

/-- A queue that is in order and within its bound may be put in place. -/
theorem Inv.setPq {s : State} (h : Inv s) {q : List Item} (hs : SortedQueue q) (hc : q.length ≤ Config.pqCap) :
    Inv (s.setPq q) where
  sourcePos := h.sourcePos
  errClear := h.errClear
  errCode := h.errCode
  queueSorted := hs
  queueCap := hc
  tableSum := h.tableSum
  flagOrder := h.flagOrder
  nodesFree := h.nodesFree
  treeOfTable hd := (h.treeOfTable hd).congr rfl rfl rfl rfl rfl rfl
  codeTable := h.codeTable
  codeOfTree hc b := (h.codeOfTree hc b).trans (treeCode_congr (s := s) (t := s.setPq q) rfl rfl rfl b)
  codeLength := h.codeLength

theorem pqInsert_ends (it : Item) (s : State) (h : Inv s) : (pqInsert it s).Ends (fun _ t => Inv t) Inv := by
  unfold pqInsert
  split
  · next hl => exact ⟨h.setPq (h.queueSorted.insertItem it) (by rw [insertItem_length]; omega)⟩
  · exact ⟨h.enterFault (by simp) _⟩

theorem pqPopMin_ends (s : State) (h : Inv s) : (pqPopMin s).Ends (fun _ t => Inv t) Inv := by
  have hs := h.queueSorted
  have hc := h.queueCap
  unfold pqPopMin
  split
  · exact ⟨h.enterFault (by simp) _⟩
  · next m rest hq =>
    rw [hq] at hs hc
    exact ⟨h.setPq hs.tail (by simp only [List.length_cons] at hc; omega)⟩

theorem pqPeekMin_ends (s : State) (h : Inv s) : (pqPeekMin s).Ends (fun _ t => Inv t) Inv := by
  unfold pqPeekMin
  split
  · exact ⟨h.enterFault (by simp) _⟩
  · exact ⟨h⟩

end Sys2Proof.Machine
end

