-- ==== Sys2Proof/Laws/Memory.lean ====
section
/-! SUPPORT. The form of the stream memories (`Memory.wf`, 10_state.md R26): reset has it, and every operation over them keeps it. -/

namespace Sys2Proof.Machine

open Sys2Proof

theorem reset_memory_wf : Memory.wf State.reset = true := by decide

/-- The form is a fact of SRC alone. -/
theorem Memory.wf_congr {s t : State} (h : t.src = s.src) (hs : Memory.wf s = true) : Memory.wf t = true := by
  simpa [Memory.wf, h] using hs

/-- An action keeps the form if its service and its failure do. -/
theorem request_wf {α : Type} {onFail : Word → State → Result α} {serve : State → Result α} {s : State} (hs : Memory.wf s = true)
    (hf : ∀ e t, t.src = s.src → (onFail e t).All fun u => Memory.wf u = true)
    (hv : ∀ t, t.src = s.src → (serve t).All fun u => Memory.wf u = true) :
    (request onFail serve s).All fun u => Memory.wf u = true := by
  obtain ⟨-, h⟩ | ⟨e, -, h⟩ | ⟨-, h⟩ := request_cases onFail serve s <;> rw [h]
  · exact hv _ rfl
  · exact hf e _ rfl
  · exact ⟨Memory.wf_congr (s := s) rfl hs⟩

theorem srcRewind_wf {s : State} (hs : Memory.wf s = true) : (srcRewind s).All fun u => Memory.wf u = true :=
  request_wf hs (fun _ _ h => ⟨Memory.wf_congr h hs⟩) fun t _ => (Result.all_done ..).mpr (by simp [Memory.wf])

theorem srcRead_wf {s : State} (hs : Memory.wf s = true) : (srcRead s).All fun u => Memory.wf u = true := by
  refine request_wf hs (fun _ _ h => ⟨Memory.wf_congr h hs⟩) fun t h => ?_
  cases hd : t.src.data[t.src.pos]? with
  | none => exact ⟨Memory.wf_congr h hs⟩
  | some b =>
    obtain ⟨hlt, -⟩ := List.getElem?_eq_some_iff.mp hd
    exact (Result.all_done ..).mpr (by simpa [Memory.wf] using hlt)

theorem snkWrite_wf {s : State} (b : Byte) (hs : Memory.wf s = true) : (snkWrite b s).All fun u => Memory.wf u = true :=
  request_wf hs (fun _ _ h => ⟨Memory.wf_congr h hs⟩) fun _ h => ⟨Memory.wf_congr h hs⟩

theorem srcReadN_wf (n : Nat) {s : State} (hs : Memory.wf s = true) : (srcReadN n s).All fun u => Memory.wf u = true := by
  induction n generalizing s with
  | zero => exact ⟨hs⟩
  | succ n ih =>
    refine (srcRead_wf hs).then fun r t ht => ?_
    cases r with
    | none => exact ⟨ht⟩
    | some b => exact (ih ht).then fun _ u hu => ⟨hu⟩

theorem snkWriteAll_wf (bs : List Byte) {s : State} (hs : Memory.wf s = true) : (snkWriteAll bs s).All fun u => Memory.wf u = true := by
  induction bs generalizing s with
  | nil => exact ⟨hs⟩
  | cons b bs ih => exact (snkWrite_wf b hs).then fun _ t ht => ih ht

/-- A source the environment puts in place has the form (log 3). -/
theorem setSource_wf (before after : List Byte) (s : State) :
    takeInput (.setSource before after) s = .next { s with src := ⟨before ++ after, before.length⟩ } ∧
      Memory.wf { s with src := ⟨before ++ after, before.length⟩ } = true := ⟨rfl, by simp [Memory.wf]⟩

end Sys2Proof.Machine
end

