-- ==== Sys2Proof/Laws/PerInstr.lean ====
section
/-! SUPPORT. What holds of every command as syntax: the fields of its word in format C (30_encoding.md R46). -/

namespace Sys2Proof.Laws.Fields

open Sys2Proof

/-- ZERO is 0, OPC is the command's operation code, and the command is well formed: it has no operand to check. -/
def Statement (i : Instr) : Prop :=
  (encode i).extractLsb' 8 24 = 0 ∧ (encode i).extractLsb' 0 8 = opc i ∧ i.wellFormed = true

theorem nop : Statement .nop := by unfold Statement; decide
theorem reset : Statement .reset := by unfold Statement; decide
theorem pqInsert : Statement .pqInsert := by unfold Statement; decide
theorem pqPopmin : Statement .pqPopmin := by unfold Statement; decide
theorem pqPeekmin : Statement .pqPeekmin := by unfold Statement; decide
theorem pqSize : Statement .pqSize := by unfold Statement; decide
theorem count : Statement .count := by unfold Statement; decide
theorem build : Statement .build := by unfold Statement; decide
theorem gencode : Statement .gencode := by unfold Statement; decide
theorem encode : Statement .encode := by unfold Statement; decide
theorem decode : Statement .decode := by unfold Statement; decide
theorem wrhdr : Statement .wrhdr := by unfold Statement; decide
theorem rdhdr : Statement .rdhdr := by unfold Statement; decide
theorem compress : Statement .compress := by unfold Statement; decide
theorem decompress : Statement .decompress := by unfold Statement; decide

end Sys2Proof.Laws.Fields
end

