-- ==== Sys2Proof/Laws/Relate.lean ====
section
/-! SUPPORT. Two runs side by side: a change to parts of the state that no command reads goes through every command unchanged. It
gives that an observer changes nothing else (60_exceptions.md R140), and that BUILD depends on the counts alone
(42_tree_builder.md R80). -/

namespace Sys2Proof.Machine

open Sys2Proof

/-- The same outcome with every state changed by `f`. -/
def Result.map {α : Type} (f : State → State) : Result α → Result α
  | .done a s => .done a (f s)
  | .ended s => .ended (f s)
  | .stuck e => .stuck e

theorem Result.map_andThen {α β : Type} {f : State → State} {r : Result α} {k l : α → State → Result β}
    (h : ∀ a s, l a (f s) = (k a s).map f) : (r.map f).andThen l = (r.andThen k).map f := by
  cases r with
  | done a s => exact h a s
  | ended s => rfl
  | stuck e => rfl

/-- A change that no read of the engine sees and that every update of the engine leaves in place. -/
structure EngineMap (f : State → State) : Prop where
  answers : ∀ s, (f s).answers = s.answers
  src : ∀ s, (f s).src = s.src
  freqValid : ∀ s, (f s).freqValid = s.freqValid
  treeDone : ∀ s, (f s).treeDone = s.treeDone
  codeValid : ∀ s, (f s).codeValid = s.codeValid
  total : ∀ s, (f s).total = s.total
  emitted : ∀ s, (f s).emitted = s.emitted
  nnodes : ∀ s, (f s).nnodes = s.nnodes
  rootValid : ∀ s, (f s).rootValid = s.rootValid
  rootIdx : ∀ s, (f s).rootIdx = s.rootIdx
  freq : ∀ s, (f s).freq = s.freq
  pq : ∀ s, (f s).pq = s.pq
  node : ∀ s, (f s).node = s.node
  code : ∀ s, (f s).code = s.code
  arg0 : ∀ s, (f s).arg0 = s.arg0
  arg1 : ∀ s, (f s).arg1 = s.arg1
  dropAnswer : ∀ s, (f s).dropAnswer = f s.dropAnswer
  resetBlock : ∀ s, (f s).resetBlock = f s.resetBlock
  enterFault : ∀ e i s, (f s).enterFault e i = f (s.enterFault e i)
  clearEngine : ∀ s, (f s).clearEngine = f s.clearEngine
  appendPhase : ∀ p s, (f s).appendPhase p = f (s.appendPhase p)
  setPos : ∀ n s, (f s).setPos n = f (s.setPos n)
  appendByte : ∀ b s, (f s).appendByte b = f (s.appendByte b)
  setFreq : ∀ b w s, (f s).setFreq b w = f (s.setFreq b w)
  setCode : ∀ b ds s, (f s).setCode b ds = f (s.setCode b ds)
  clearCodes : ∀ s, (f s).clearCodes = f s.clearCodes
  writeNode : ∀ n s, (f s).writeNode n = f (s.writeNode n)
  bumpNNodes : ∀ s, (f s).bumpNNodes = f s.bumpNNodes
  setPq : ∀ q s, (f s).setPq q = f (s.setPq q)
  setFreqValid : ∀ s, (f s).setFreqValid = f s.setFreqValid
  setTreeDone : ∀ s, (f s).setTreeDone = f s.setTreeDone
  setCodeValid : ∀ s, (f s).setCodeValid = f s.setCodeValid
  clearCodeValid : ∀ s, (f s).clearCodeValid = f s.clearCodeValid
  countByte : ∀ b s, (f s).countByte b = f (s.countByte b)
  startBuild : ∀ s, (f s).startBuild = f s.startBuild
  recordNDist : ∀ s, (f s).recordNDist = f s.recordNDist
  setRoot : ∀ t s, (f s).setRoot t = f (s.setRoot t)
  bumpEmitted : ∀ s, (f s).bumpEmitted = f s.bumpEmitted
  clearEmitted : ∀ s, (f s).clearEmitted = f s.clearEmitted
  setTotal : ∀ w s, (f s).setTotal w = f (s.setTotal w)
  setResult : ∀ it s, (f s).setResult it = f (s.setResult it)
  setSize : ∀ n s, (f s).setSize n = f (s.setSize n)

namespace EngineMap

variable {f : State → State}

theorem freqAt (h : EngineMap f) (b : Byte) (s : State) : (f s).freqAt b = s.freqAt b := freqAt_congr (h.freq s) b

theorem codeAt (h : EngineMap f) (b : Byte) (s : State) : (f s).codeAt b = s.codeAt b := codeAt_congr (h.code s) b

theorem nodeAt (h : EngineMap f) (i : NodeIdx) (s : State) : (f s).nodeAt i = s.nodeAt i := nodeAt_congr (h.node s) i

theorem remaining (h : EngineMap f) (s : State) : (f s).remaining = s.remaining := by rw [State.remaining, h.src, State.remaining]

theorem headerBytes (h : EngineMap f) (s : State) : Machine.headerBytes (f s) = Machine.headerBytes s :=
  headerBytes_congr (h.total s) (h.freq s)

theorem request {α : Type} (h : EngineMap f) {a b : Word → State → Result α} {c d : State → Result α} (s : State)
    (ha : ∀ e s, a e (f s) = (b e s).map f) (hc : ∀ s, c (f s) = (d s).map f) :
    Machine.request a c (f s) = (Machine.request b d s).map f := by
  unfold Machine.request State.answer
  rw [h.answers]
  split
  · rw [h.dropAnswer, hc]
  · rw [h.dropAnswer, ha]
  · rw [h.dropAnswer, h.resetBlock]
    rfl

theorem raise {α : Type} (h : EngineMap f) (e : Error) (i : Word) (s : State) :
    (Machine.raise e i (f s) : Result α) = (Machine.raise e i s).map f := by
  rw [raise_eq, raise_eq, h.enterFault]
  rfl

theorem require (h : EngineMap f) (c : Bool) (e : Error) (i : Word) (s : State) :
    Machine.require c e i (f s) = (Machine.require c e i s).map f := by
  cases c
  · exact h.raise e i s
  · rfl

theorem requireFlags (h : EngineMap f) (c : Bool) (o : BitVec 8) (s : State) :
    Machine.requireFlags c o (f s) = (Machine.requireFlags c o s).map f := h.require c _ _ s

theorem done {α : Type} {a : α} {s t : State} (e : s = f t) : Result.done a s = (Result.done a t).map f := by
  rw [e]
  rfl

theorem notify (h : EngineMap f) (p : Phase) (s : State) : Machine.notify p (f s) = (Machine.notify p s).map f :=
  h.request s (fun _ t => done (h.appendPhase p t)) fun t => done (h.appendPhase p t)

theorem srcRewind (h : EngineMap f) (s : State) : Machine.srcRewind (f s) = (Machine.srcRewind s).map f :=
  h.request s (fun e t => h.raise _ e t) fun t => done (h.setPos 0 t)

theorem srcRead (h : EngineMap f) (s : State) : Machine.srcRead (f s) = (Machine.srcRead s).map f := by
  refine h.request s (fun e t => h.raise _ e t) fun t => ?_
  rw [h.src]
  split
  · exact done (h.setPos _ t)
  · rfl

theorem snkWrite (h : EngineMap f) (b : Byte) (s : State) : Machine.snkWrite b (f s) = (Machine.snkWrite b s).map f :=
  h.request s (fun e t => h.raise _ e t) fun t => done (h.appendByte b t)

theorem snkWriteAll (h : EngineMap f) (bs : List Byte) (s : State) :
    Machine.snkWriteAll bs (f s) = (Machine.snkWriteAll bs s).map f := by
  induction bs generalizing s with
  | nil => rfl
  | cons b bs ih =>
    rw [Machine.snkWriteAll, Machine.snkWriteAll, h.snkWrite]
    exact Result.map_andThen fun _ t => ih t

theorem srcReadN (h : EngineMap f) (n : Nat) (s : State) : Machine.srcReadN n (f s) = (Machine.srcReadN n s).map f := by
  induction n generalizing s with
  | zero => rfl
  | succ n ih =>
    rw [Machine.srcReadN, Machine.srcReadN, h.srcRead]
    refine Result.map_andThen fun r t => ?_
    cases r with
    | none => rfl
    | some b =>
      dsimp only
      rw [ih]
      exact Result.map_andThen fun _ _ => rfl

theorem pqInsert (h : EngineMap f) (it : Item) (s : State) : Machine.pqInsert it (f s) = (Machine.pqInsert it s).map f := by
  unfold Machine.pqInsert
  rw [h.pq]
  split
  · exact done (h.setPq _ s)
  · exact h.raise _ _ s

theorem pqPopMin (h : EngineMap f) (s : State) : Machine.pqPopMin (f s) = (Machine.pqPopMin s).map f := by
  unfold Machine.pqPopMin
  rw [h.pq]
  split
  · exact h.raise _ _ s
  · exact done (h.setPq _ s)

theorem pqPeekMin (h : EngineMap f) (s : State) : Machine.pqPeekMin (f s) = (Machine.pqPeekMin s).map f := by
  unfold Machine.pqPeekMin
  rw [h.pq]
  split
  · exact h.raise _ _ s
  · rfl

theorem pqSize (h : EngineMap f) (s : State) : Machine.pqSize (f s) = Machine.pqSize s := congrArg List.length (h.pq s)

/-! ### The bodies -/

theorem countLoop (h : EngineMap f) (n : Nat) (s : State) : Machine.countLoop n (f s) = (Machine.countLoop n s).map f := by
  induction n generalizing s with
  | zero => rfl
  | succ n ih =>
    rw [Machine.countLoop, Machine.countLoop, h.srcRead]
    refine Result.map_andThen fun r t => ?_
    cases r with
    | none => rfl
    | some b =>
      dsimp only
      rw [h.require, h.total]
      refine Result.map_andThen fun _ u => ?_
      rw [h.countByte, ih]

theorem countBody (h : EngineMap f) (s : State) : Machine.countBody (f s) = (Machine.countBody s).map f := by
  rw [Machine.countBody, Machine.countBody, h.clearEngine, h.notify]
  refine Result.map_andThen fun _ s => ?_
  rw [h.srcRewind]
  refine Result.map_andThen fun _ s => ?_
  rw [h.remaining, h.countLoop]
  exact Result.map_andThen fun _ s => done (h.setFreqValid s)

theorem addNode (h : EngineMap f) (n : Node) (s : State) : Machine.addNode n (f s) = (Machine.addNode n s).map f := by
  rw [Machine.addNode, Machine.addNode, h.nnodes, h.writeNode, h.pqInsert]
  exact Result.map_andThen fun _ s => done (h.bumpNNodes s)

theorem seedLoop (h : EngineMap f) (bs : List Byte) (s : State) :
    Machine.seedLoop bs (f s) = (Machine.seedLoop bs s).map f := by
  induction bs generalizing s with
  | nil => rfl
  | cons b bs ih =>
    rw [Machine.seedLoop, Machine.seedLoop, h.freqAt]
    split
    · rw [h.addNode]
      exact Result.map_andThen fun _ s => ih s
    · exact ih s

theorem mergeLoop (h : EngineMap f) (n : Nat) (s : State) : Machine.mergeLoop n (f s) = (Machine.mergeLoop n s).map f := by
  induction n generalizing s with
  | zero => rfl
  | succ n ih =>
    rw [Machine.mergeLoop, Machine.mergeLoop, h.pqSize]
    split
    · rw [h.pqPopMin]
      refine Result.map_andThen fun a s => ?_
      rw [h.pqPopMin]
      refine Result.map_andThen fun b s => ?_
      split
      · rw [h.addNode]
        exact Result.map_andThen fun _ s => ih s
      · rfl
    · rfl

theorem takeRoot (h : EngineMap f) (s : State) : Machine.takeRoot (f s) = (Machine.takeRoot s).map f := by
  rw [Machine.takeRoot, Machine.takeRoot, h.pqSize]
  split
  · rw [h.pqPopMin]
    exact Result.map_andThen fun it s => done (h.setRoot it.tag s)
  · rfl

theorem buildBody (h : EngineMap f) (s : State) : Machine.buildBody (f s) = (Machine.buildBody s).map f := by
  rw [Machine.buildBody, Machine.buildBody, h.freqValid, h.requireFlags]
  refine Result.map_andThen fun _ s => ?_
  rw [h.notify]
  refine Result.map_andThen fun _ s => ?_
  rw [h.startBuild, h.seedLoop]
  refine Result.map_andThen fun _ s => ?_
  rw [h.recordNDist, h.mergeLoop]
  refine Result.map_andThen fun _ s => ?_
  rw [h.takeRoot]
  exact Result.map_andThen fun _ s => done (h.setTreeDone s)

theorem walk (h : EngineMap f) (n : Nat) (i : NodeIdx) (acc : List Digit) (s : State) :
    Machine.walk n i acc (f s) = (Machine.walk n i acc s).map f := by
  induction n generalizing s i acc with
  | zero => rfl
  | succ n ih =>
    rw [Machine.walk, Machine.walk, h.nodeAt]
    split
    · exact done (h.setCode _ _ s)
    · rw [ih]
      exact Result.map_andThen fun _ s => ih _ _ s

theorem codesFromRoot (h : EngineMap f) (s : State) : Machine.codesFromRoot (f s) = (Machine.codesFromRoot s).map f := by
  rw [Machine.codesFromRoot, Machine.codesFromRoot, h.rootValid, h.rootIdx, h.nodeAt]
  split
  · split
    · exact done (h.setCode _ _ s)
    · exact h.walk _ _ _ s
  · rfl

theorem gencodeBody (h : EngineMap f) (s : State) : Machine.gencodeBody (f s) = (Machine.gencodeBody s).map f := by
  rw [Machine.gencodeBody, Machine.gencodeBody, h.treeDone, h.requireFlags]
  refine Result.map_andThen fun _ s => ?_
  rw [h.notify]
  refine Result.map_andThen fun _ s => ?_
  rw [h.clearCodeValid, h.clearCodes, h.codesFromRoot]
  exact Result.map_andThen fun _ s => done (h.setCodeValid s)

theorem pushDigits (h : EngineMap f) (ds buf : List Digit) (s : State) :
    Machine.pushDigits ds buf (f s) = (Machine.pushDigits ds buf s).map f := by
  induction ds generalizing s buf with
  | nil => rfl
  | cons d ds ih =>
    rw [Machine.pushDigits, Machine.pushDigits]
    split
    · rw [h.snkWrite]
      exact Result.map_andThen fun _ s => ih _ s
    · exact ih _ s

theorem encodeLoop (h : EngineMap f) (m : Nat) (buf : List Digit) (n : Nat) (s : State) :
    Machine.encodeLoop m buf n (f s) = (Machine.encodeLoop m buf n s).map f := by
  induction m generalizing s buf n with
  | zero => rfl
  | succ m ih =>
    rw [Machine.encodeLoop, Machine.encodeLoop, h.srcRead]
    refine Result.map_andThen fun r s => ?_
    cases r with
    | none => rfl
    | some b =>
      dsimp only
      rw [h.total, h.require]
      refine Result.map_andThen fun _ s => ?_
      rw [h.codeAt, h.require]
      refine Result.map_andThen fun _ s => ?_
      rw [h.codeAt, h.pushDigits]
      exact Result.map_andThen fun _ s => ih _ _ s

theorem flushBuf (h : EngineMap f) (buf : List Digit) (s : State) :
    Machine.flushBuf buf (f s) = (Machine.flushBuf buf s).map f := by
  rw [Machine.flushBuf, Machine.flushBuf]
  split
  · exact h.snkWrite _ s
  · rfl

theorem encodeBody (h : EngineMap f) (s : State) : Machine.encodeBody (f s) = (Machine.encodeBody s).map f := by
  rw [Machine.encodeBody, Machine.encodeBody, h.freqValid, h.codeValid, h.requireFlags]
  refine Result.map_andThen fun _ s => ?_
  rw [h.notify]
  refine Result.map_andThen fun _ s => ?_
  rw [h.srcRewind]
  refine Result.map_andThen fun _ s => ?_
  rw [h.remaining, h.encodeLoop]
  refine Result.map_andThen fun r s => ?_
  dsimp only
  rw [h.total, h.require]
  exact Result.map_andThen fun _ s => h.flushBuf _ s

theorem emit (h : EngineMap f) (b : Byte) (s : State) : Machine.emit b (f s) = (Machine.emit b s).map f := by
  rw [Machine.emit, Machine.emit, h.snkWrite]
  exact Result.map_andThen fun _ s => done (h.bumpEmitted s)

theorem decodeBit (h : EngineMap f) (root : NodeIdx) (bit : Digit) (cur : NodeIdx) (s : State) :
    Machine.decodeBit root bit cur (f s) = (Machine.decodeBit root bit cur s).map f := by
  rw [Machine.decodeBit, Machine.decodeBit, h.nodeAt, h.nodeAt, h.nodeAt]
  split
  · rw [h.require]
    refine Result.map_andThen fun _ s => ?_
    rw [h.emit]
    exact Result.map_andThen fun _ s => rfl
  · split
    · rw [h.emit]
      exact Result.map_andThen fun _ s => rfl
    · rfl

theorem decodeBits (h : EngineMap f) (root : NodeIdx) (bits : List Digit) (cur : NodeIdx) (s : State) :
    Machine.decodeBits root bits cur (f s) = (Machine.decodeBits root bits cur s).map f := by
  induction bits generalizing s cur with
  | nil => rfl
  | cons bit bits ih =>
    rw [Machine.decodeBits, Machine.decodeBits, h.decodeBit]
    refine Result.map_andThen fun cur s => ?_
    rw [h.emitted, h.total]
    split
    · rfl
    · exact ih _ s

theorem decodeLoop (h : EngineMap f) (root : NodeIdx) (n : Nat) (cur : NodeIdx) (s : State) :
    Machine.decodeLoop root n cur (f s) = (Machine.decodeLoop root n cur s).map f := by
  induction n generalizing s cur with
  | zero => rfl
  | succ n ih =>
    rw [Machine.decodeLoop, Machine.decodeLoop, h.emitted, h.total]
    split
    · rw [h.srcRead]
      refine Result.map_andThen fun r s => ?_
      cases r with
      | none => exact h.raise _ _ s
      | some b =>
        dsimp only
        rw [h.decodeBits]
        exact Result.map_andThen fun _ s => ih _ s
    · rfl

theorem decodeBody (h : EngineMap f) (s : State) : Machine.decodeBody (f s) = (Machine.decodeBody s).map f := by
  rw [Machine.decodeBody, Machine.decodeBody, h.freqValid, h.treeDone, h.requireFlags]
  refine Result.map_andThen fun _ s => ?_
  rw [h.notify]
  refine Result.map_andThen fun _ s => ?_
  dsimp only
  rw [h.clearEmitted, h.total, h.rootIdx, h.remaining, h.decodeLoop]
  split <;> rfl

theorem wrhdrBody (h : EngineMap f) (s : State) : Machine.wrhdrBody (f s) = (Machine.wrhdrBody s).map f := by
  rw [Machine.wrhdrBody, Machine.wrhdrBody, h.freqValid, h.requireFlags]
  refine Result.map_andThen fun _ s => ?_
  rw [h.notify]
  refine Result.map_andThen fun _ s => ?_
  rw [h.headerBytes, h.snkWriteAll]

theorem readField (h : EngineMap f) (s : State) : Machine.readField (f s) = (Machine.readField s).map f := by
  have h4 := h.srcReadN 4 s
  unfold Machine.readField
  rw [h4]
  generalize Machine.srcReadN 4 s = r
  refine Result.map_andThen fun r s => ?_
  cases r with
  | none => exact h.raise _ _ s
  | some bs => rfl

theorem readCounts (h : EngineMap f) (bs : List Byte) (s : State) :
    Machine.readCounts bs (f s) = (Machine.readCounts bs s).map f := by
  induction bs generalizing s with
  | nil => rfl
  | cons b bs ih =>
    rw [Machine.readCounts, Machine.readCounts, h.readField]
    refine Result.map_andThen fun c s => ?_
    rw [h.setFreq, ih]

theorem rdhdrBody (h : EngineMap f) (s : State) : Machine.rdhdrBody (f s) = (Machine.rdhdrBody s).map f := by
  rw [Machine.rdhdrBody, Machine.rdhdrBody, h.clearEngine, h.notify]
  refine Result.map_andThen fun _ s => ?_
  rw [h.readField]
  refine Result.map_andThen fun m s => ?_
  rw [h.require]
  refine Result.map_andThen fun _ s => ?_
  rw [h.readField]
  refine Result.map_andThen fun l s => ?_
  rw [h.setTotal, h.readCounts]
  refine Result.map_andThen fun _ s => ?_
  rw [freqSum_congr (h.freq s), h.total, h.require]
  exact Result.map_andThen fun _ s => done (h.setFreqValid s)

theorem payloadBody (h : EngineMap f) (s : State) : Machine.payloadBody (f s) = (Machine.payloadBody s).map f := by
  rw [Machine.payloadBody, Machine.payloadBody, h.buildBody]
  refine Result.map_andThen fun _ s => ?_
  rw [h.gencodeBody]
  exact Result.map_andThen fun _ s => h.encodeBody s

theorem compressBody (h : EngineMap f) (s : State) : Machine.compressBody (f s) = (Machine.compressBody s).map f := by
  rw [Machine.compressBody, Machine.compressBody, h.countBody]
  refine Result.map_andThen fun _ s => ?_
  rw [h.wrhdrBody]
  refine Result.map_andThen fun _ s => ?_
  rw [h.total]
  split
  · exact h.payloadBody s
  · rfl

theorem decompressBody (h : EngineMap f) (s : State) : Machine.decompressBody (f s) = (Machine.decompressBody s).map f := by
  rw [Machine.decompressBody, Machine.decompressBody, h.rdhdrBody]
  refine Result.map_andThen fun _ s => ?_
  rw [h.buildBody]
  exact Result.map_andThen fun _ s => h.decodeBody s

end EngineMap

/-! ### The observer -/

theorem unobserved_map : EngineMap State.unobserved := by
  constructor <;> intros <;> rfl

/-! ### BUILD depends on the counts alone -/

/-- `t`, but with the parts of `s` that BUILD reads or writes. -/
def State.buildPart (t s : State) : State :=
  { t with
    freq := s.freq
    node := s.node
    nnodes := s.nnodes
    ndist := s.ndist
    rootValid := s.rootValid
    rootIdx := s.rootIdx
    pq := s.pq
    code := s.code
    treeDone := s.treeDone
    codeValid := s.codeValid }

theorem andThen_eq_done {α β : Type} {r : Result α} {k : α → State → Result β} {b : β} {t : State}
    (h : r.andThen k = .done b t) : ∃ a s, r = .done a s ∧ k a s = .done b t := by
  cases r with
  | done a s => exact ⟨a, s, rfl, h⟩
  | ended s => simp at h
  | stuck e => simp at h

theorem pqPopMin_buildPart {u s t : State} {it : Item} (h : pqPopMin s = .done it t) :
    pqPopMin (u.buildPart s) = .done it (u.buildPart t) := by
  unfold pqPopMin at h ⊢
  rw [show (u.buildPart s).pq = s.pq from rfl]
  split at h
  · simp at h
  · cases h
    rfl

theorem addNode_buildPart {u s t : State} {n : Node} (h : addNode n s = .done () t) :
    addNode n (u.buildPart s) = .done () (u.buildPart t) := by
  unfold addNode pqInsert at h ⊢
  rw [show ((u.buildPart s).writeNode n).pq = (s.writeNode n).pq from rfl]
  split at h
  · next hl =>
    rw [if_pos hl]
    cases h
    rfl
  · simp at h

theorem seedLoop_buildPart {u : State} (bs : List Byte) {s t : State} (h : seedLoop bs s = .done () t) :
    seedLoop bs (u.buildPart s) = .done () (u.buildPart t) := by
  induction bs generalizing s with
  | nil => cases h; rfl
  | cons b bs ih =>
    rw [seedLoop] at h ⊢
    rw [show (u.buildPart s).freqAt b = s.freqAt b from rfl]
    split at h
    · next hb =>
      obtain ⟨_, v, h1, h2⟩ := andThen_eq_done h
      rw [if_pos hb, addNode_buildPart h1, Result.andThen_done, ih h2]
    · next hb => rw [if_neg hb, ih h]

theorem mergeLoop_buildPart {u : State} (n : Nat) {s t : State} (h : mergeLoop n s = .done () t) :
    mergeLoop n (u.buildPart s) = .done () (u.buildPart t) := by
  induction n generalizing s with
  | zero => simp [mergeLoop] at h
  | succ n ih =>
    rw [mergeLoop] at h ⊢
    rw [show pqSize (u.buildPart s) = pqSize s from rfl]
    split at h
    · next hb =>
      obtain ⟨a, v, h1, h2⟩ := andThen_eq_done h
      obtain ⟨b, w, h3, h4⟩ := andThen_eq_done h2
      rw [if_pos hb, pqPopMin_buildPart h1, Result.andThen_done, pqPopMin_buildPart h3, Result.andThen_done]
      split at h4
      · next hw =>
        obtain ⟨_, x, h5, h6⟩ := andThen_eq_done h4
        rw [if_pos hw, addNode_buildPart h5, Result.andThen_done, ih h6]
      · simp at h4
    · next hb =>
      rw [if_neg hb]
      cases h
      rfl

theorem takeRoot_buildPart {u s t : State} (h : takeRoot s = .done () t) :
    takeRoot (u.buildPart s) = .done () (u.buildPart t) := by
  rw [takeRoot] at h ⊢
  rw [show pqSize (u.buildPart s) = pqSize s from rfl]
  split at h
  · next hb =>
    obtain ⟨a, v, h1, h2⟩ := andThen_eq_done h
    rw [if_pos hb, pqPopMin_buildPart h1, Result.andThen_done]
    cases h2
    rfl
  · next hb =>
    rw [if_neg hb]
    cases h
    rfl

theorem buildCore_buildPart {u s t : State} (h : buildCore s = .done () t) :
    buildCore (u.buildPart s) = .done () (u.buildPart t) := by
  rw [buildCore] at h ⊢
  obtain ⟨_, a, h1, h⟩ := andThen_eq_done h
  obtain ⟨_, b, h2, h⟩ := andThen_eq_done h
  obtain ⟨_, c, h3, h⟩ := andThen_eq_done h
  cases h
  rw [show (u.buildPart s).startBuild = u.buildPart s.startBuild from rfl, seedLoop_buildPart _ h1, Result.andThen_done,
    show (u.buildPart a).recordNDist = u.buildPart a.recordNDist from rfl, mergeLoop_buildPart _ h2, Result.andThen_done,
    takeRoot_buildPart h3, Result.andThen_done]
  rfl

/-- From equal counts BUILD leaves the same tree, whatever else the two states hold (R80). -/
theorem buildCore_deterministic {s s' t : State} (hf : s'.freq = s.freq) (h : buildCore s = .done () t) :
    buildCore s' = .done () (s'.buildPart t) := by
  have h1 := buildCore_buildPart (u := s') h
  have h2 : buildCore s' = buildCore (s'.buildPart s) := by
    rw [buildCore, buildCore]
    have : s'.startBuild = (s'.buildPart s).startBuild := by
      simp only [State.startBuild, State.clearCodes, State.buildPart, hf]
    rw [this]
  rw [h2, h1]

end Sys2Proof.Machine
end

