-- ==== Sys2Proof/Laws/Sink.lean ====
section
/-! SUPPORT. The bytes that WRHDR, ENCODE and DECODE append to the sink in every environment, and the tree of a table as the
document describes it. -/

namespace Sys2Proof.Machine

open Sys2Proof

/-! ### The tree of a table -/

theorem tableTree_congr {s t : State} (h : s.freq = t.freq) : s.tableTree = t.tableTree := by
  simp only [State.tableTree, State.seedTrees, present_congr h, freqAt_congr h]

theorem tableCode_congr {s t : State} (h : s.freq = t.freq) (b : Byte) : s.tableCode b = t.tableCode b := by
  simp only [State.tableCode, tableTree_congr h]

theorem treeCode_of_tableTree {s t : State} (h : t.tree = s.tableTree) (b : Byte) : t.treeCode b = s.tableCode b := by
  simp only [State.treeCode, State.treeCodes, State.tableCode, h]
  cases s.tableTree <;> rfl

/-! ### Appending -/

/-- The sink of `t` is that of `s` followed by some of these bytes, from the first on. -/
def Appended (bs : List Byte) (s t : State) : Prop := ∃ k, t.snk = s.snk ++ bs.take k

theorem Appended.none {bs : List Byte} {s t : State} (h : t.snk = s.snk) : Appended bs s t := ⟨0, by simp [h]⟩

theorem Appended.all {bs : List Byte} {s t : State} (h : t.snk = s.snk ++ bs) : Appended bs s t :=
  ⟨bs.length, by rw [List.take_length]; exact h⟩

/-- Some of the later bytes, behind all of the earlier ones. -/
theorem Appended.after {as bs : List Byte} {s t u : State} (h : t.snk = s.snk ++ as) (k : Appended bs t u) :
    Appended (as ++ bs) s u := by
  obtain ⟨n, hn⟩ := k
  refine ⟨as.length + n, ?_⟩
  rw [hn, h, List.take_length_add_append, List.append_assoc]

/-- Some of the earlier bytes are some of all of them. -/
theorem Appended.before {as bs : List Byte} {s t : State} (h : Appended as s t) : Appended (as ++ bs) s t := by
  obtain ⟨n, hn⟩ := h
  refine ⟨min n as.length, ?_⟩
  rw [hn, List.take_append_of_le_length (Nat.min_le_right _ _)]
  congr 1
  rw [← List.take_take, List.take_length]

theorem CutShort.snk {e : Error} {s t : State} (h : CutShort e s t) : t.snk = s.snk := by
  obtain ⟨c, rfl⟩ | rfl := h <;> rfl

theorem snkWriteAll_appended (bs : List Byte) (s : State) :
    (snkWriteAll bs s).Ends (fun _ t => Appended bs s t) (Appended bs s) := by
  induction bs generalizing s with
  | nil => exact ⟨.none rfl⟩
  | cons b bs ih =>
    rw [snkWriteAll]
    refine ((snkWrite_ends b s).mono (fun _ _ h => h) fun t ht => .none ht.snk).andThen ?_
    rintro _ t rfl
    have hb : (s.dropAnswer.appendByte b).snk = s.snk ++ [b] := rfl
    exact (ih _).mono (fun _ u hu => .after hb hu) fun u hu => .after hb hu

/-- WRHDR appends the header's bytes, from the first on (R102, R135). -/
theorem wrhdrBody_appended (s : State) :
    (wrhdrBody s).Ends (fun _ t => Appended (headerBytes s) s t) (Appended (headerBytes s) s) := by
  rw [wrhdrBody, requireFlags]
  cases s.freqValid
  · exact ⟨.none rfl⟩
  · rw [require_true, Result.andThen_done]
    refine ((notify_ends _ _).mono (fun _ _ h => h) fun t ht => .none (by rw [ht]; rfl)).andThen ?_
    rintro _ t rfl
    have := snkWriteAll_appended (headerBytes s) (s.dropAnswer.appendPhase .writingHeader)
    rw [headerBytes_congr (s := s.dropAnswer.appendPhase .writingHeader) (t := s) rfl rfl]
    exact this

/-! ### ENCODE -/

theorem codesOf_congr {s t : State} (h : s.code = t.code) (xs : List Byte) : s.codesOf xs = t.codesOf xs := by
  have : s.codeAt = t.codeAt := funext fun b => codeAt_congr h b
  simp only [State.codesOf, this]

/-- What the packing of these digits behind that buffer has done so far. -/
def Packing (ds buf : List Digit) (s : State) (buf' : List Digit) (t : State) : Prop :=
  buf' = leftDigits (buf ++ ds) ∧ t.snk = s.snk ++ fullBytes (buf ++ ds) ∧ t.code = s.code ∧ t.src = s.src

theorem pushDigits_appended (ds buf : List Digit) (s : State) (hb : buf.length < 8) :
    (pushDigits ds buf s).Ends (Packing ds buf s) (Appended (fullBytes (buf ++ ds)) s) := by
  induction ds generalizing buf s with
  | nil => exact ⟨by rw [List.append_nil, leftDigits_of_lt hb], by simp [fullBytes_of_lt hb], rfl, rfl⟩
  | cons d ds ih =>
    rw [pushDigits]
    by_cases h8 : (buf ++ [d]).length = 8
    · have hl : buf ++ d :: ds = (buf ++ [d]) ++ ds := by simp
      rw [if_pos h8, hl, fullBytes_group h8]
      refine ((snkWrite_ends _ s).mono (fun _ _ h => h) fun t ht => .none ht.snk).andThen ?_
      rintro _ t rfl
      have hs : (s.dropAnswer.appendByte (byteMsb (buf ++ [d]))).snk = s.snk ++ [byteMsb (buf ++ [d])] := rfl
      refine (ih [] _ (by simp)).mono ?_ fun u hu => .after hs hu
      rintro b u ⟨h1, h2, h3, h4⟩
      refine ⟨?_, ?_, h3, h4⟩
      · rw [hl, leftDigits_group h8]
        exact h1
      · rw [h2, hs, hl, fullBytes_group h8]
        simp
    · rw [if_neg h8, show buf ++ d :: ds = (buf ++ [d]) ++ ds by simp]
      refine (ih (buf ++ [d]) s (by simp at h8 ⊢; omega)).mono ?_ fun _ h => h
      rintro b u ⟨h1, h2, h3, h4⟩
      refine ⟨?_, ?_, h3, h4⟩
      · rw [h1]
        simp
      · rw [h2]
        simp

theorem encodeLoop_appended (m : Nat) (buf : List Digit) (n : Nat) (s : State) (hm : s.remaining < m) (hb : buf.length < 8) :
    (encodeLoop m buf n s).Ends
      (fun r t => r.1 = leftDigits (buf ++ s.codesOf s.rest) ∧ t.snk = s.snk ++ fullBytes (buf ++ s.codesOf s.rest))
      (Appended (fullBytes (buf ++ s.codesOf s.rest)) s) := by
  induction m generalizing buf n s with
  | zero => omega
  | succ m ih =>
    rw [encodeLoop]
    refine ((srcRead_ends s).mono (fun _ _ h => h) fun t ht => .none ht.snk).andThen fun r t ht => ?_
    obtain ⟨rfl, hle, rfl⟩ | ⟨b, rfl, hlt, hg, rfl⟩ := ht
    · have hr : s.rest = [] := List.drop_eq_nil_iff.mpr hle
      refine ⟨?_, ?_⟩ <;> simp [hr, State.codesOf, leftDigits_of_lt hb, fullBytes_of_lt hb]
    · have hr : s.rest = b :: (s.dropAnswer.setPos (s.src.pos + 1)).rest := by
        rw [State.rest, List.drop_eq_getElem_cons hlt]
        rw [List.getElem?_eq_getElem hlt, Option.some.injEq] at hg
        rw [hg]
        rfl
      have hrem : (s.dropAnswer.setPos (s.src.pos + 1)).remaining < m := by
        simp only [State.remaining, State.setPos_src, State.dropAnswer_src] at hm ⊢
        omega
      have hcode : (s.dropAnswer.setPos (s.src.pos + 1)).code = s.code := rfl
      have hsnk : (s.dropAnswer.setPos (s.src.pos + 1)).snk = s.snk := rfl
      dsimp only
      generalize s.dropAnswer.setPos (s.src.pos + 1) = t at hr hrem hcode hsnk ⊢
      have hcodes : s.codesOf s.rest = t.codeAt b ++ t.codesOf t.rest := by
        rw [hr, ← codesOf_congr hcode]
        simp only [State.codesOf, List.flatMap_cons]
      have hnone : ∀ {u : State}, u.snk = t.snk → Appended (fullBytes (buf ++ s.codesOf s.rest)) s u :=
        fun h => .none (h.trans hsnk)
      cases decide (n < t.total.toNat)
      · exact ⟨hnone rfl⟩
      · rw [require_true, Result.andThen_done]
        cases decide (0 < (t.codeAt b).length)
        · exact ⟨hnone rfl⟩
        · rw [require_true, Result.andThen_done, hcodes, ← List.append_assoc, fullBytes_append, leftDigits_append]
          have hpush := pushDigits_appended (t.codeAt b) buf t hb
          refine (hpush.mono (fun _ _ h => h) fun u hu => ?_).andThen ?_
          · obtain ⟨k, hk⟩ := hu
            exact Appended.before ⟨k, by rw [hk, hsnk]⟩
          · rintro _ u ⟨rfl, h2, h3, h4⟩
            have hu : u.remaining < m := by
              rw [State.remaining, h4]
              exact hrem
            have hcu : u.codesOf u.rest = t.codesOf t.rest := by
              rw [codesOf_congr h3]
              simp only [State.rest, h4]
            have hl : (leftDigits (buf ++ t.codeAt b)).length < 8 := by
              rw [leftDigits_length]
              omega
            have hsu : u.snk = s.snk ++ fullBytes (buf ++ t.codeAt b) := by rw [h2, hsnk]
            have := ih (leftDigits (buf ++ t.codeAt b)) (n + 1) u hu hl
            rw [hcu] at this
            refine this.mono ?_ fun v hv => .after hsu hv
            rintro r v ⟨g1, g2⟩
            exact ⟨g1, by rw [g2, hsu, List.append_assoc]⟩

/-- ENCODE appends the bytes of the payload of the source, from the first on (R89, R135). -/
theorem encodeBody_appended (s : State) :
    (encodeBody s).Ends (fun _ t => Appended (payload (s.codesOf s.src.data)) s t)
      (Appended (payload (s.codesOf s.src.data)) s) := by
  rw [encodeBody, requireFlags]
  cases s.freqValid && s.codeValid
  · exact ⟨.none rfl⟩
  · rw [require_true, Result.andThen_done]
    refine ((notify_ends _ _).mono (fun _ _ h => h) fun t ht => .none (by rw [ht]; rfl)).andThen ?_
    rintro _ t rfl
    refine ((srcRewind_ends _).mono (fun _ _ h => h) fun t ht => .none (by rw [ht.snk]; rfl)).andThen ?_
    rintro _ t rfl
    have hloop := encodeLoop_appended _ [] 0 ((s.dropAnswer.appendPhase .writingPayload).dropAnswer.setPos 0)
      (Nat.lt_succ_self _) (by simp)
    have hc : ((s.dropAnswer.appendPhase .writingPayload).dropAnswer.setPos 0).codesOf
        ((s.dropAnswer.appendPhase .writingPayload).dropAnswer.setPos 0).rest = s.codesOf s.src.data := by
      simp only [State.rest, State.setPos_src, State.dropAnswer_src, State.appendPhase_src, List.drop_zero]
      rfl
    rw [hc, List.nil_append] at hloop
    have hsnk : ((s.dropAnswer.appendPhase .writingPayload).dropAnswer.setPos 0).snk = s.snk := rfl
    generalize (s.dropAnswer.appendPhase .writingPayload).dropAnswer.setPos 0 = u at hloop hsnk ⊢
    refine (hloop.mono (fun _ _ h => h) fun v hv => ?_).andThen ?_
    · obtain ⟨k, hk⟩ := hv
      rw [payload_eq]
      exact Appended.before ⟨k, by rw [hk, hsnk]⟩
    · rintro ⟨buf, n⟩ v ⟨h1, h2⟩
      dsimp only at h1 ⊢
      rw [payload_eq, ← h1]
      have hv : v.snk = s.snk ++ fullBytes (s.codesOf s.src.data) := by rw [h2, hsnk]
      have hstay : ∀ {w : State}, w.snk = v.snk →
          Appended (fullBytes (s.codesOf s.src.data) ++ flushBytes buf) s w := fun h => .after hv (.none h)
      cases decide (n = v.total.toNat)
      · exact ⟨hstay rfl⟩
      · rw [require_true, Result.andThen_done, flushBuf, flushBytes]
        split
        · next hb =>
          refine (snkWrite_ends _ v).mono ?_ fun w hw => .after hv (.none hw.snk)
          rintro _ w rfl
          exact .after hv (.all rfl)
        · exact ⟨.after hv (.none rfl)⟩

end Sys2Proof.Machine
end

