-- ==== Sys2Proof/Tests/Slice0.lean ====
section
/-! SUPPORT. The package's own tests: the well-formedness smoke, the decoding of words written out from 30_encoding.md R47, one or two
small steps per command with the results of 95_test_vectors.md (the vector's name stands at each) or of the rule's own example, and for
each statement with hypotheses a witness that meets them. -/

namespace Sys2Proof.Tests

set_option Elab.async false

open Sys2Proof Sys2Proof.Machine

/-! ### Well-formedness: each check refuses an ill-formed term -/

theorem test_wf_weight_too_wide : (ScriptLine.pqInsertItem (2 ^ 32) 0).wellFormed = false := by decide
theorem test_wf_tag_too_wide : (ScriptLine.pqInsertItem 0 (2 ^ 32)).wellFormed = false := by decide
theorem test_wf_write_register : (ScriptLine.wr 25 0).wellFormed = false := by decide
theorem test_wf_write_value : (ScriptLine.wr 8 (2 ^ 32)).wellFormed = false := by decide
theorem test_wf_read_register : (ScriptLine.rd 25).wellFormed = false := by decide
theorem test_wf_source_position : (ScriptLine.src [0x41, 0x42] 3).wellFormed = false := by decide
theorem test_wf_accepts :
    (ScriptLine.pqInsertItem (2 ^ 32 - 1) (2 ^ 32 - 1)).wellFormed = true ∧ (ScriptLine.wr 24 0).wellFormed = true ∧
    (ScriptLine.rd 24).wellFormed = true ∧ (ScriptLine.src [0x41, 0x42] 2).wellFormed = true := by decide

/-! ### Decoding: the words of R47, ZERO and OPC written bit by bit -/

theorem test_decode_nop : decode (0b000000000000000000000000#24 ++ 0b00000000#8) = .ok .nop := by decide
theorem test_decode_reset : decode (0b000000000000000000000000#24 ++ 0b00000001#8) = .ok .reset := by decide
theorem test_decode_pqInsert : decode (0b000000000000000000000000#24 ++ 0b00010000#8) = .ok .pqInsert := by decide
theorem test_decode_pqPopmin : decode (0b000000000000000000000000#24 ++ 0b00010001#8) = .ok .pqPopmin := by decide
theorem test_decode_pqPeekmin : decode (0b000000000000000000000000#24 ++ 0b00010010#8) = .ok .pqPeekmin := by decide
theorem test_decode_pqSize : decode (0b000000000000000000000000#24 ++ 0b00010011#8) = .ok .pqSize := by decide
theorem test_decode_count : decode (0b000000000000000000000000#24 ++ 0b00100000#8) = .ok .count := by decide
theorem test_decode_build : decode (0b000000000000000000000000#24 ++ 0b00100001#8) = .ok .build := by decide
theorem test_decode_gencode : decode (0b000000000000000000000000#24 ++ 0b00100010#8) = .ok .gencode := by decide
theorem test_decode_encode : decode (0b000000000000000000000000#24 ++ 0b00100011#8) = .ok .encode := by decide
theorem test_decode_decode : decode (0b000000000000000000000000#24 ++ 0b00100100#8) = .ok .decode := by decide
theorem test_decode_wrhdr : decode (0b000000000000000000000000#24 ++ 0b00110000#8) = .ok .wrhdr := by decide
theorem test_decode_rdhdr : decode (0b000000000000000000000000#24 ++ 0b00110001#8) = .ok .rdhdr := by decide
theorem test_decode_compress : decode (0b000000000000000000000000#24 ++ 0b01000000#8) = .ok .compress := by decide
theorem test_decode_decompress : decode (0b000000000000000000000000#24 ++ 0b01000001#8) = .ok .decompress := by decide

/-- V-C2: illegal words, with the reason. -/
theorem test_decode_illegal :
    decode 0x00000002 = .error .undefinedOpc ∧ decode 0x00000014 = .error .undefinedOpc ∧
    decode 0x00000042 = .error .undefinedOpc ∧ decode 0x000000FF = .error .undefinedOpc ∧
    decode 0x00000100 = .error .zeroFieldSet ∧ decode 0x80000040 = .error .zeroFieldSet := by decide

/-- No two rows of the table hit one word. -/
theorem test_opcodeTable_disjoint : opcodeTable.Pairwise fun a b => a.matchWord ≠ b.matchWord := by decide

/-- What the host asks of the decoder. -/
theorem test_decodeTableWord :
    decodeTableWord 32 0x10 = some .pqInsert ∧ decodeTableWord 32 0x1010 = none ∧ decodeTableWord 8 0x1041 = some .decompress := by
  decide

/-! ### Small states -/

/-- A part of the next state an outcome gives, if it gives one. -/
def after {α : Type} (o : Host.Outcome State Fault Refusal) (f : State → α) : Option α :=
  match o with
  | .next t => some (f t)
  | .fault _ => none
  | .refused _ => none

theorem after_some {α : Type} {o : Host.Outcome State Fault Refusal} {f : State → α} {a : α} (h : after o f = some a) :
    ∃ t, o = .next t ∧ f t = a := by
  cases o with
  | next t => exact ⟨t, rfl, Option.some.inj h⟩
  | fault _ => cases h
  | refused _ => cases h

/-- The reset state with these source bytes before the source. -/
def onSource (bytes : List Byte) : State := { State.reset with src := ⟨bytes, 0⟩ }

/-- The bytes of S5's input, "AB". -/
def abBytes : List Byte := [0x41, 0x42]

/-- The table of "AB" (S5), the source counted. -/
def abTable : State := { (((onSource abBytes).setFreq 0x41 1).setFreq 0x42 1).setPos 2 with total := 2, freqValid := true }

/-- Its tree (S5). -/
def abTree : State :=
  { ((((abTable.writeNode (.leaf 0x41 1)).bumpNNodes.writeNode (.leaf 0x42 1)).bumpNNodes.writeNode (.internal 2 1 0)).bumpNNodes) with
    ndist := 2, rootValid := true, rootIdx := 2, treeDone := true }

/-- Its codes (S5). -/
def abCodes : State := { (abTree.setCode 0x41 [true]).setCode 0x42 [false] with codeValid := true }

/-- The table of "aaaa" (S3) and its single-leaf tree. -/
def aTree : State :=
  { (((onSource []).setFreq 0x61 4).writeNode (.leaf 0x61 4)).bumpNNodes with
    total := 4, freqValid := true, treeDone := true, ndist := 1, rootValid := true }

/-- "abracadabra" (V-D2). -/
def abraBytes : List Byte := [0x61, 0x62, 0x72, 0x61, 0x63, 0x61, 0x64, 0x61, 0x62, 0x72, 0x61]

/-- The table of "abracadabra" and its tree, written from the merging of R76, with the first two bytes of its payload (V-D5). -/
def abraTree : State :=
  { [Node.leaf 0x61 5, .leaf 0x62 2, .leaf 0x63 1, .leaf 0x64 1, .leaf 0x72 2, .internal 2 3 2, .internal 4 4 1, .internal 6 6 5,
      .internal 11 7 0].foldl (fun s n => (s.writeNode n).bumpNNodes)
      (([(0x61, 5), (0x62, 2), (0x63, 1), (0x64, 1), (0x72, 2)] : List (Byte × Word)).foldl (fun s x => s.setFreq x.1 x.2)
        (onSource [0x91, 0x75])) with
    total := 11, freqValid := true, treeDone := true, ndist := 5, rootValid := true, rootIdx := 8 }

/-- A state with these items in the queue and these operands. -/
def onQueue (q : List Item) (w t : Word) : State := { State.reset with pq := q, arg0 := w, arg1 := t }

/-! ### The commands -/

/-- R30: what the block's registers read right after reset, and that RESET then changes nothing. -/
theorem test_reset_registers : ∀ n < 25, hostRead n State.reset = 0 := by decide +kernel

theorem test_reset_is_reset : exec .reset State.reset = .next State.reset := rfl

/-- R109's example: STATUS 0x401 with ERRINFO 1 becomes 0; the sink stays. -/
theorem test_reset_clears :
    after (exec .reset { abCodes with fault := true, err := 4, errInfo := 1, snk := [0xAA] })
      (fun t => (hostRead 1 t, hostRead 2 t, hostRead 3 t, t.snk, t.src.pos)) = some (0, 0, 0, [0xAA], 2) := by decide +kernel

/-- V-N1. -/
theorem test_nop : exec .nop abCodes = .next abCodes := rfl

/-- R68's example. -/
theorem test_pqInsert_ties :
    after (exec .pqInsert (onQueue [⟨1, 0⟩, ⟨2, 7⟩, ⟨2, 3⟩, ⟨5, 1⟩] 2 9)) State.pq =
      some [⟨1, 0⟩, ⟨2, 7⟩, ⟨2, 3⟩, ⟨2, 9⟩, ⟨5, 1⟩] := by decide +kernel

/-- V-Q4: the upper bits of ARG1 are dropped and weights compare unsigned. -/
theorem test_pqInsert_widths :
    after (exec .pqInsert (onQueue [⟨0, 0x1FF⟩] 0xFFFFFFFF 0xFFFFFE05)) State.pq = some [⟨0, 0x1FF⟩, ⟨0xFFFFFFFF, 5⟩] := by
  decide +kernel

/-- R69's example, then V-Q2. -/
theorem test_pqPopmin :
    after (exec .pqPopmin (onQueue [⟨2, 7⟩, ⟨2, 3⟩, ⟨5, 1⟩] 0 0)) (fun t => (t.res0, t.res1, t.pq)) =
      some (2, 7, [⟨2, 3⟩, ⟨5, 1⟩]) := by decide +kernel

theorem test_pqPopmin_empty :
    after (exec .pqPopmin State.reset) (fun t => (hostRead 1 t, hostRead 2 t)) = some (0x101, 0) := by decide +kernel

/-- R70's example. -/
theorem test_pqPeekmin :
    after (exec .pqPeekmin (onQueue [⟨2, 7⟩, ⟨2, 3⟩] 0 0)) (fun t => (t.res0, t.res1, t.pq)) =
      some (2, 7, [⟨2, 7⟩, ⟨2, 3⟩]) := by decide +kernel

/-- R71's example; RES1 stays. -/
theorem test_pqSize :
    after (exec .pqSize { onQueue [⟨2, 7⟩, ⟨2, 3⟩, ⟨5, 1⟩] 0 0 with res1 := 9 }) (fun t => (t.res0, t.res1)) = some (3, 9) := by
  decide +kernel

/-- V-F4: both ends of the index range; the queue is emptied and the source rewound. -/
theorem test_count :
    after (exec .count { onSource [0x00, 0xFF, 0x00] with pq := [⟨9, 9⟩], src := ⟨[0x00, 0xFF, 0x00], 2⟩ })
      (fun t => (t.freqAt 0, t.freqAt 255, t.total, t.src.pos, t.pq)) = some (2, 1, 3, 3, []) := by decide +kernel

/-- 95_test_vectors.md, part 2.12: the source fails the rewind with code 5. -/
theorem test_count_rewind_fails :
    after (exec .count { onSource abBytes with answers := [.served, .failed 5] })
      (fun t => (hostRead 1 t, hostRead 2 t, t.src.pos, t.obs)) = some (0x501, 5, 0, [1]) := by decide +kernel

/-- S5. -/
theorem test_build :
    after (exec .build abTable) (fun t => (t.nodeAt 0, t.nodeAt 1, t.nodeAt 2, hostRead 6 t, hostRead 5 t, hostRead 4 t)) =
      some (.leaf 0x41 1, .leaf 0x42 1, .internal 2 1 0, 0x80000002, 3, 2) := by decide +kernel

/-- V-B2: a merged node stands behind a leaf of equal weight. -/
theorem test_build_tie :
    after (exec .build { abTable.setFreq 0x43 2 with total := 4 }) (fun t => (t.nodeAt 3, t.nodeAt 4, t.rootIdx)) =
      some (.internal 2 1 0, .internal 4 3 2, 4) := by decide +kernel

/-- S5. -/
theorem test_gencode :
    after (exec .gencode abTree) (fun t => (t.codeAt 0x41, t.codeAt 0x42, t.codeAt 0x43, hostRead 1 t)) =
      some ([true], [false], [], 0xE) := by decide +kernel

/-- V-G2: the one-digit code of a single leaf. -/
theorem test_gencode_single : after (exec .gencode aTree) (fun t => t.codeAt 0x61) = some [false] := by decide +kernel

/-- V-E1. -/
theorem test_encode : after (exec .encode abCodes) (fun t => (t.snk, t.src.pos, t.obs)) = some ([0x80], 2, [4]) := by
  decide +kernel

/-- V-E17: a byte without a code; the digit in the buffer is discarded. -/
theorem test_encode_no_code :
    after (exec .encode { abCodes with src := ⟨[0x41, 0x43], 0⟩ }) (fun t => (hostRead 1 t, hostRead 2 t, t.snk)) =
      some (0xB0F, 0x43, []) := by decide +kernel

/-- V-D3: padding bits set and bytes behind the payload, which are not read. -/
theorem test_decode_padding :
    after (exec .decode { abTree with src := ⟨[0xBF, 0xDE, 0xAD], 0⟩ }) (fun t => (t.snk, t.src.pos, t.emitted)) =
      some ([0x41, 0x42], 1, 2) := by decide +kernel

/-- V-D4: a 1 bit in a single-leaf tree. -/
theorem test_decode_single_leaf :
    after (exec .decode { aTree with src := ⟨[0x20], 0⟩ }) (fun t => (hostRead 1 t, hostRead 2 t, t.emitted, t.snk)) =
      some (0x307, 0, 2, [0x61, 0x61]) := by decide +kernel

/-- V-D5: the third byte of the payload is missing. -/
theorem test_decode_truncated :
    after (exec .decode abraTree) (fun t => (hostRead 1 t, hostRead 2 t, t.emitted, t.snk, t.src.pos)) =
      some (0x407, 4, 8, [0x61, 0x62, 0x72, 0x61, 0x63, 0x61, 0x64, 0x61], 2) := by decide +kernel

/-- The 1032 bytes `hdr(2; 0x41:1, 0x42:1)`, written from R50. -/
def abHeader : List Byte :=
  [0x48, 0x55, 0x46, 0x46, 2, 0, 0, 0] ++ List.replicate 260 0 ++ [1, 0, 0, 0, 1, 0, 0, 0] ++ List.replicate 756 0

theorem exec_wrhdr (s : State) : exec .wrhdr s = (wrhdrBody s).outcome := rfl
theorem exec_rdhdr (s : State) : exec .rdhdr s = (rdhdrBody s).outcome := rfl
theorem exec_decompress (s : State) : exec .decompress s = (decompressBody s).outcome := rfl

/-- R102's example. -/
theorem test_headerBytes : headerBytes abTable = abHeader := by decide +kernel

theorem test_wrhdr : after (exec .wrhdr abTable) State.snk = some abHeader := by
  rw [exec_wrhdr, wrhdrBody_quiet _ rfl rfl, test_headerBytes]
  rfl

theorem abTable_sum : abTable.freqSum = abTable.total.toNat := by decide +kernel

/-- V-R1. -/
theorem test_rdhdr :
    after (exec .rdhdr (onSource (abHeader ++ [0x80]))) (fun t => (hostRead 1 t, t.total, t.freqAt 0x41, t.freqAt 0x42, t.src.pos)) =
      some (2, 2, 1, 1, 1032) := by
  rw [exec_rdhdr, rdhdrBody_quiet _ abTable [0x80] rfl (by rw [test_headerBytes]; rfl) abTable_sum]
  decide +kernel

/-- V-R4. -/
theorem test_rdhdr_truncated :
    after (exec .rdhdr (onSource [0x48, 0x55])) (fun t => (hostRead 1 t, hostRead 2 t, t.src.pos)) = some (0x401, 2, 2) := by
  decide +kernel

/-- P1, but for the sink, of which test_headerBytes and test_encode show the parts. -/
theorem test_compress :
    after (exec .compress { onSource abBytes with src := ⟨abBytes, 2⟩ })
      (fun t => (hostRead 1 t, hostRead 6 t, t.codeAt 0x41, t.src.pos, t.obs)) =
      some (0xE, 0x80000002, [true], 2, [1, 3, 2, 5, 4]) := by
  decide +kernel

/-- 95_test_vectors.md, part 2.12: the sink fails the first write with code 0x1C. -/
theorem test_compress_sink_fails :
    after (exec .compress { onSource abBytes with answers := List.replicate 6 .served ++ [.failed 0x1C] })
      (fun t => (hostRead 1 t, hostRead 2 t, t.snk, t.src.pos, t.obs)) = some (0x603, 0x1C, [], 2, [1, 3]) := by
  decide +kernel

/-- S4: the empty source. -/
theorem test_compress_empty :
    after (exec .compress State.reset) (fun t => (hostRead 1 t, hostRead 6 t, t.obs)) = some (2, 0, [1, 3]) := by
  decide +kernel

/-- P2. -/
theorem test_decompress :
    after (exec .decompress (onSource (abHeader ++ [0x80]))) (fun t => (t.snk, t.emitted, t.src.pos, hostRead 1 t)) =
      some ([0x41, 0x42], 2, 1033, 6) := by
  rw [exec_decompress, decompressBody, rdhdrBody_quiet _ abTable [0x80] rfl (by rw [test_headerBytes]; rfl) abTable_sum]
  decide +kernel

/-- V-D5: nothing behind the header. -/
theorem test_decompress_truncated :
    after (exec .decompress (onSource abHeader)) (fun t => (hostRead 1 t, hostRead 2 t, t.emitted, t.src.pos, t.obs)) =
      some (0x407, 4, 0, 1032, [6, 2, 7]) := by
  rw [exec_decompress, decompressBody, rdhdrBody_quiet _ abTable [] rfl (by rw [test_headerBytes, List.append_nil]; rfl) abTable_sum]
  decide +kernel

/-! ### The host's side -/

/-- V-H1: the windows of the two-leaf tree. -/
theorem test_windows :
    hostRead 15 abCodes = 0x40000041 ∧ hostRead 15 { abCodes with sel := 2 } = 0xC0000001 ∧
    hostRead 14 { abCodes with sel := 3 } = 0 ∧ hostRead 15 { abCodes with sel := 3 } = 0 ∧
    hostRead 13 { abCodes with sel := 0x41 } = 1 ∧ hostRead 16 { abCodes with sel := 0x41 } = 1 ∧
    hostRead 17 { abCodes with sel := 0x41 } = 0x80000000 ∧ hostRead 17 { abCodes with sel := 0x42 } = 0 := by decide +kernel

/-- V-H4: SEL written as all ones keeps nine bits, and index 511 reads as zero. -/
theorem test_sel_511 :
    after (step { State.reset with inputs := [.write 12 0xFFFFFFFF] }) (fun t => (hostRead 12 t, hostRead 14 t, hostRead 15 t)) =
      some (0x1FF, 0, 0) := by decide +kernel

/-- V-C2: an illegal word. -/
theorem test_step_illegal :
    after (step { State.reset with inputs := [.write 0 0x80000040] }) (fun t => (hostRead 1 t, hostRead 2 t)) =
      some (0xA01, 0x80000040) := by decide +kernel

/-- A placed word runs at once; with no input the block waits. -/
theorem test_step_placed :
    after (step (State.reset.withFetchWord 32 0x21)) (fun t => (hostRead 1 t, hostRead 2 t)) = some (0x901, 0x21) := by decide +kernel

theorem test_step_waits : step State.reset = .next State.reset := rfl

/-! ### The small states, in full -/

theorem abTable_freqAt (b : Byte) : abTable.freqAt b = if b = 0x42 then 1 else if b = 0x41 then 1 else 0 := by
  rw [show abTable.freqAt b = (((onSource abBytes).setFreq 0x41 1).setFreq 0x42 1).freqAt b from freqAt_congr rfl b,
    freqAt_setFreq, freqAt_setFreq, freqAt_clear _ rfl]

theorem abTree_freqAt (b : Byte) : abTree.freqAt b = if b = 0x42 then 1 else if b = 0x41 then 1 else 0 :=
  (freqAt_congr rfl b).trans (abTable_freqAt b)

theorem abCodes_codeAt (b : Byte) : abCodes.codeAt b = if b = 0x42 then [false] else if b = 0x41 then [true] else [] := by
  rw [show abCodes.codeAt b = ((abTree.setCode 0x41 [true]).setCode 0x42 [false]).codeAt b from codeAt_congr rfl b,
    codeAt_setCode, codeAt_setCode, codeAt_clear _ rfl]

theorem abTree_nodeAt (i : NodeIdx) : abTree.nodeAt i =
    if i = 2 then .internal 2 1 0 else if i = 1 then .leaf 0x42 1 else if i = 0 then .leaf 0x41 1 else .zero := by
  rw [show abTree.nodeAt i = (((abTable.writeNode (.leaf 0x41 1)).bumpNNodes.writeNode (.leaf 0x42 1)).bumpNNodes.writeNode
      (.internal 2 1 0)).nodeAt i from nodeAt_congr rfl i,
    nodeAt_writeNode _ _ _ (by decide),
    show ((abTable.writeNode (.leaf 0x41 1)).bumpNNodes.writeNode (.leaf 0x42 1)).bumpNNodes.nodeAt i =
      ((abTable.writeNode (.leaf 0x41 1)).bumpNNodes.writeNode (.leaf 0x42 1)).nodeAt i from nodeAt_congr rfl i,
    nodeAt_writeNode _ _ _ (by decide),
    show (abTable.writeNode (.leaf 0x41 1)).bumpNNodes.nodeAt i = (abTable.writeNode (.leaf 0x41 1)).nodeAt i from nodeAt_congr rfl i,
    nodeAt_writeNode _ _ _ (by decide), nodeAt_clear _ rfl]
  rfl

theorem abTree_present : abTree.present = [0x41, 0x42] := by
  simp only [State.present, abTree_freqAt]
  decide +kernel

theorem abTree_tree : abTree.tree = some (.internal 2 (.leaf 0x42 1) (.leaf 0x41 1)) := by decide +kernel

theorem abTree_freqSum : abTree.freqSum = 2 := by
  simp only [State.freqSum, abTree_freqAt]
  decide +kernel

theorem abTree_treeOfTable : TreeOfTable abTree := by
  refine ⟨by rw [abTree_present]; rfl, fun h => absurd (abTree_present ▸ h) (by simp), fun _ =>
    ⟨rfl, rfl, rfl, _, abTree_tree, ?_, ?_, by decide, ?_⟩⟩
  · rw [abTree_present]; decide
  · rw [abTree_freqSum]; rfl
  · simp [Tree.leavesCount, abTree_freqAt]

theorem abTree_treeCode (b : Byte) : abTree.treeCode b = if b = 0x42 then [false] else if b = 0x41 then [true] else [] := by
  rw [State.treeCode, State.treeCodes, abTree_tree]
  by_cases h : b = 0x42
  · subst h; rfl
  · by_cases h' : b = 0x41
    · subst h'; rfl
    · rw [if_neg h, if_neg h']
      show (List.lookup b [((0x42 : Byte), [false]), (0x41, [true])]).getD [] = []
      rw [List.lookup_cons, beq_eq_false_iff_ne.mpr h, List.lookup_cons, beq_eq_false_iff_ne.mpr h']
      rfl

theorem aTree_freqAt (b : Byte) : aTree.freqAt b = if b = 0x61 then 4 else 0 := by
  rw [show aTree.freqAt b = ((onSource []).setFreq 0x61 4).freqAt b from freqAt_congr rfl b, freqAt_setFreq, freqAt_clear _ rfl]

theorem aTree_present : aTree.present = [0x61] := by
  simp only [State.present, aTree_freqAt]
  decide +kernel

theorem aTree_treeOfTable : TreeOfTable aTree := by
  have ht : aTree.tree = some (.leaf 0x61 4) := by decide +kernel
  refine ⟨by rw [aTree_present]; rfl, fun h => absurd (aTree_present ▸ h) (by simp), fun _ =>
    ⟨rfl, rfl, rfl, _, ht, ?_, ?_, by decide, ?_⟩⟩
  · rw [aTree_present]; decide
  · simp only [State.freqSum, aTree_freqAt]; decide +kernel
  · simp [Tree.leavesCount, aTree_freqAt]

theorem reset_treeOfTable : TreeOfTable State.reset :=
  ⟨by rw [(present_eq_nil_iff _).mpr (freqSum_eq_zero _ rfl)]; rfl, fun _ => ⟨rfl, rfl, rfl⟩, fun h =>
    absurd ((present_eq_nil_iff _).mpr (freqSum_eq_zero _ rfl)) h⟩

theorem abCodes_inv : Inv abCodes where
  sourcePos := by decide
  errClear _ := ⟨rfl, rfl⟩
  errCode h := absurd h (by decide)
  queueSorted := List.Pairwise.nil
  queueCap := by decide
  tableSum _ := (freqSum_congr rfl).trans abTree_freqSum
  flagOrder := ⟨fun _ => rfl, fun _ => rfl⟩
  nodesFree i hi := by
    have h3 : 3 ≤ i.toNat := hi
    rw [show abCodes.nodeAt i = abTree.nodeAt i from nodeAt_congr rfl i, abTree_nodeAt, if_neg, if_neg, if_neg] <;>
      (rintro rfl; simp at h3)
  treeOfTable _ := abTree_treeOfTable.congr rfl rfl rfl rfl rfl rfl
  codeTable _ b := by
    rw [abCodes_codeAt, show abCodes.freqAt b = abTree.freqAt b from freqAt_congr rfl b, abTree_freqAt]
    by_cases h : b = 0x42
    · subst h; decide
    · by_cases h' : b = 0x41
      · subst h'; decide
      · rw [if_neg h, if_neg h', if_neg h, if_neg h']; decide
  codeOfTree _ b := by
    have hc : abCodes.treeCode b = abTree.treeCode b := treeCode_congr (s := abCodes) (t := abTree) rfl rfl rfl b
    rw [abCodes_codeAt, hc, abTree_treeCode]
  codeLength b := by
    rw [abCodes_codeAt]
    by_cases h : b = 0x42
    · subst h; decide
    · by_cases h' : b = 0x41
      · subst h'; decide
      · rw [if_neg h, if_neg h']; decide

theorem abTable_freqSum : abTable.freqSum = 2 := (freqSum_congr rfl).trans abTree_freqSum

/-! ### Witnesses: for each statement with hypotheses, a state and operands that meet them all, at the boundaries of each clause -/

/-- The state with one input to take. -/
def withInput (i : Input) (s : State) : State := { s with inputs := [i] }

/-- The state with a source at its start. -/
def withSource (bytes : List Byte) (s : State) : State := { s with src := ⟨bytes, 0⟩ }

/-- The reset state in the fault state. -/
def faulted : State := { State.reset with fault := true, err := 1 }

theorem witness_BitOrder : [true, false, false, false, false, false, false, true].length = 8 ∧ 0 < 8 ∧ 7 < 8 := by decide

theorem witness_PayloadLayout :
    0 < 8 * (([true] ++ List.replicate 8 false).length + 7) / 8 ∧ 15 < 8 * ((([true] ++ List.replicate 8 false).length + 7) / 8) := by
  decide

theorem witness_StepRunsDecodedCommand :
    (withInput (.write 0 0x20) State.reset).inputs = .write 0 0x20 :: [] ∧ (withInput (.write 0 0x20) State.reset).fault = false ∧
    decode 0x20 = .ok .count := by decide

theorem witness_IllegalWordRaises_zero :
    (withInput (.write 0 0x100) State.reset).inputs = .write 0 0x100 :: [] ∧ (withInput (.write 0 0x100) State.reset).fault = false ∧
    (0x100 : Word).extractLsb' 8 24 ≠ 0 := by decide

theorem witness_IllegalWordRaises_opc :
    (withInput (.write 0 2) State.reset).inputs = .write 0 2 :: [] ∧ (withInput (.write 0 2) State.reset).fault = false ∧
    ∀ i, (2 : Word).extractLsb' 0 8 ≠ opc i := ⟨rfl, rfl, fun i => by cases i <;> decide⟩

theorem witness_FaultStateIgnoresCommands :
    (withInput (.write 0 0x40) faulted).inputs = .write 0 0x40 :: [] ∧ (withInput (.write 0 0x40) faulted).fault = true ∧
    (0x40 : Word) ≠ 1 ∧ (withInput (.write 0 1) faulted).inputs = .write 0 1 :: [] ∧ (withInput (.write 0 1) faulted).fault = true := by
  decide

theorem witness_FaultStateOnlyLeftByReset :
    faulted.fault = true ∧ step (withInput (.write 0 0) faulted) = .next faulted ∧
    step (withInput (.write 0 1) faulted) = .next State.reset ∧ step (withInput .hardReset faulted) = .next State.reset :=
  ⟨rfl, rfl, rfl, rfl⟩

theorem witness_HostWrites :
    (∀ n ∈ [1, 8, 9, 12, 25], (withInput (.write n 7) State.reset).inputs = .write n 7 :: [] ∧ n ≠ 0) ∧
    1 ≠ 8 ∧ 1 ≠ 9 ∧ 1 ≠ 12 := by decide

theorem witness_HostReadsChangeNothing : (withInput (.read 1) State.reset).inputs = .read 1 :: [] := rfl

theorem witness_RegisterValues : 24 < 25 := by decide

theorem witness_ReadWindows :
    ((0xFF : Byte).toNat = ({ abCodes with sel := 511 } : State).sel.toNat % 256 ∧ ({ abCodes with sel := 511 } : State).sel.toNat = 511) ∧
    ((0xFE : Byte).toNat = ({ abCodes with sel := 510 } : State).sel.toNat % 256 ∧ ({ abCodes with sel := 510 } : State).sel.toNat < 511 ∧
      abCodes.nnodes.toNat ≤ ({ abCodes with sel := 510 } : State).sel.toNat) ∧
    ((0 : Byte).toNat = abCodes.sel.toNat % 256 ∧ abCodes.sel.toNat < abCodes.nnodes.toNat ∧ abCodes.node[0] = .leaf 0x41 1) ∧
    ((2 : Byte).toNat = ({ abCodes with sel := 2 } : State).sel.toNat % 256 ∧
      ({ abCodes with sel := 2 } : State).sel.toNat < abCodes.nnodes.toNat ∧ abCodes.node[2] = .internal 2 1 0) ∧
    (abCodes.codeAt 0x41).length ≤ 255 ∧ 0 < 8 ∧ 7 < 8 ∧ 0 < 32 ∧ 31 < 32 := by decide +kernel

theorem witness_PqInsertScriptLine :
    ({ State.reset with inputs := expandLine (.pqInsertItem 5 1) } : State).inputs = expandLine (.pqInsertItem 5 1) ++ [] ∧
    State.reset.fault = false := by decide

theorem witness_ResetState : (withInput .hardReset State.reset).inputs = .hardReset :: [] := rfl

/-- `k` served actions behind the notification, then this answer. -/
def answersTo (k : Nat) (a : Answer) : List Answer := .served :: (List.replicate k .served ++ a :: [])

/-- The counted table, the environment answering as given. -/
def abAnswers (as : List Answer) : State := { abTable with answers := as }

theorem witness_ResetDuringCommand :
    (∀ k ∈ [0, 1031], (abAnswers (answersTo k .reset)).freqValid = true ∧ Answer.served ≠ .reset ∧ k < 1032 ∧
      (abAnswers (answersTo k .reset)).answers = .served :: (List.replicate k .served ++ .reset :: []) ∧
      ∃ t, exec .reset { abTable with
        snk := abTable.snk ++ (headerBytes abTable).take k
        obs := abTable.notified [3]
        answers := [] } = .next t) ∧
    (∀ s ∈ [abTable, abTree, abCodes], ({ s with answers := [.reset] } : State).answers = .reset :: [] ∧ s.freqValid = true) ∧
    abTree.treeDone = true ∧ abCodes.codeValid = true ∧
    Answer.reset ∉ [Answer.served, .served] ∧
    (∃ t, exec .encode { abCodes with answers := [.served, .served] ++ .reset :: [.served] } = .next t ∧ t.answers = [.served]) ∧
    ∃ t, exec .decode { abTree with answers := [.served, .served] ++ .reset :: [] } = .next t ∧ t.answers = [.reset] :=
  ⟨fun k hk => ⟨rfl, by decide, by revert hk; revert k; decide, rfl, _, rfl⟩, by simp [abTable, abTree, abCodes], rfl, rfl,
    by decide, after_some (by decide +kernel), after_some (by decide +kernel)⟩

/-- A queue of `n` items of weight 7 (V-Q3). -/
def fullQueue (n : Nat) : State := onQueue (List.replicate n ⟨7, 0⟩) 7 1

theorem fullQueue_length (n : Nat) : (fullQueue n).pq.length = n := List.length_replicate

theorem fullQueue_sorted (n : Nat) : SortedQueue (fullQueue n).pq := List.pairwise_replicate.mpr (.inr (Nat.le_refl _))

theorem witness_PqInsertResult :
    (SortedQueue (fullQueue 255).pq ∧ (fullQueue 255).pq.length < 256) ∧
    (SortedQueue (fullQueue 256).pq ∧ 256 ≤ (fullQueue 256).pq.length) :=
  ⟨⟨fullQueue_sorted _, (fullQueue_length _).trans_lt (by decide)⟩, fullQueue_sorted _, (fullQueue_length _).ge⟩

theorem witness_PqPopminResult : (fullQueue 1).pq = ⟨7, 0⟩ :: [] ∧ (fullQueue 0).pq = [] := ⟨rfl, rfl⟩

theorem witness_PqPeekminResult : (fullQueue 1).pq = ⟨7, 0⟩ :: [] ∧ (fullQueue 0).pq = [] := ⟨rfl, rfl⟩

theorem witness_PqSizeResult : (fullQueue 256).pq.length ≤ 256 := (fullQueue_length _).le

theorem witness_QueueOrderLaw : State.reset.pq = [] ∧ (List.replicate 256 (⟨7, 0⟩ : Item)).length ≤ 256 :=
  ⟨rfl, List.length_replicate.le⟩

theorem witness_SequenceErrors :
    State.reset.freqValid = false ∧ State.reset.treeDone = false ∧ (abTree.freqValid = true ∧ abTree.codeValid = false) ∧
    (abTable.freqValid = true ∧ abTable.treeDone = false) := by decide

/-- What two probing runs of a command find: that the first is cut off where it is meant to be, whether the action between them is no
notification, and whether it writes no byte. -/
def between (i : Instr) (s : State) (as rest : List Answer) : Option (Bool × Bool × Bool) :=
  match exec i (s.probe (as ++ .reset :: rest)), exec i (s.probe (as ++ .served :: .reset :: rest)) with
  | .next a, .next u => some (decide (a.answers = rest), decide (u.obs = a.obs), decide (u.snk = a.snk))
  | _, _ => none

theorem between_some {i : Instr} {s : State} {as rest : List Answer} {o k : Bool} (h : between i s as rest = some (true, o, k)) :
    ∃ a u, exec i (s.probe (as ++ .reset :: rest)) = .next a ∧ a.answers = rest ∧
      exec i (s.probe (as ++ .served :: .reset :: rest)) = .next u ∧ decide (u.obs = a.obs) = o ∧ decide (u.snk = a.snk) = k := by
  unfold between at h
  split at h
  · rename_i a u ha hu
    simp only [Option.some.injEq, Prod.mk.injEq, decide_eq_true_eq] at h
    exact ⟨a, u, ha, h.1, hu, h.2.1, h.2.2⟩
  · cases h

/-- COUNT's and COMPRESS's rewind, ENCODE's last read, DECODE's only one, RDHDR's and DECOMPRESS's first one. -/
theorem witness_SourceFailure :
    (∀ x ∈ [(Instr.count, onSource abBytes, 1), (.compress, onSource abBytes, 1), (.encode, abCodes, 4),
        (.decode, withSource [0x80] abTree, 1), (.rdhdr, State.reset, 1), (.decompress, State.reset, 1)],
      ∃ a u, exec x.1 (x.2.1.probe (List.replicate x.2.2 .served ++ .reset :: [.served])) = .next a ∧ a.answers = [.served] ∧
        exec x.1 (x.2.1.probe (List.replicate x.2.2 .served ++ .served :: .reset :: [.served])) = .next u ∧
        decide (u.obs = a.obs) = true ∧ decide (u.snk = a.snk) = true) ∧
    Answer.served ≠ .reset ∧ Answer.failed 7 ≠ .reset ∧
    (abAnswers [.failed 7, .failed 5]).answers = .failed 7 :: .failed 5 :: [] ∧
    (∀ k ∈ [0, 2], k ≤ abTable.src.data.length ∧ k ≤ 4294967295) ∧
    ∀ k, (abAnswers (.served :: answersTo k (.failed 5))).answers =
      .served :: .served :: (List.replicate k .served ++ .failed 5 :: []) := by
  refine ⟨fun x hx => between_some ?_, by decide, by decide, rfl, by decide, fun _ => rfl⟩
  simp only [List.mem_cons, List.not_mem_nil, or_false] at hx
  rcases hx with rfl | rfl | rfl | rfl | rfl | rfl <;> decide +kernel

/-- The first write of WRHDR and of COMPRESS, ENCODE's only one, and the last one of DECODE. -/
theorem witness_SinkFailure :
    (∀ x ∈ [(Instr.wrhdr, abTable, 1), (.compress, onSource abBytes, 6), (.encode, abCodes, 5), (.decode, withSource [0x80] abTree, 3)],
      ∃ a u, exec x.1 (x.2.1.probe (List.replicate x.2.2 .served ++ .reset :: [.served])) = .next a ∧ a.answers = [.served] ∧
        exec x.1 (x.2.1.probe (List.replicate x.2.2 .served ++ .served :: .reset :: [.served])) = .next u ∧
        decide (u.obs = a.obs) = true ∧ decide (u.snk = a.snk) = false) ∧
    ∀ k ∈ [0, 1031], (abAnswers (answersTo k (.failed 0x1C))).freqValid = true ∧ Answer.served ≠ .reset ∧ k < 1032 ∧
      (abAnswers (answersTo k (.failed 0x1C))).answers = .served :: (List.replicate k .served ++ .failed 0x1C :: []) := by
  refine ⟨fun x hx => between_some ?_, fun k hk => ⟨rfl, by decide, by revert hk; revert k; decide, rfl⟩⟩
  simp only [List.mem_cons, List.not_mem_nil, or_false] at hx
  rcases hx with rfl | rfl | rfl | rfl <;> decide +kernel

theorem onReplicate_length (n : Nat) : (onSource (List.replicate n 0)).src.data.length = n := List.length_replicate

theorem witness_CountResult :
    (Quiet State.reset ∧ State.reset.src.data.length ≤ 4294967295) ∧
    (Quiet (onSource (List.replicate 4294967295 0)) ∧ (onSource (List.replicate 4294967295 0)).src.data.length ≤ 4294967295) :=
  ⟨⟨rfl, by decide⟩, rfl, by rw [onReplicate_length]⟩

theorem witness_CountOverflow :
    Quiet (onSource (List.replicate 4294967296 0)) ∧ 4294967295 < (onSource (List.replicate 4294967296 0)).src.data.length :=
  ⟨rfl, by rw [onReplicate_length]; decide⟩

/-- A table whose counts add up to the greatest sum. -/
def fullTable : State := { State.reset.setFreq 0 0xFFFFFFFF with total := 0xFFFFFFFF, freqValid := true }

theorem fullTable_freqSum : fullTable.freqSum = 4294967295 := by
  have h := freqSum_setFreq State.reset 0 0xFFFFFFFF
  rw [freqAt_clear _ rfl, freqSum_eq_zero State.reset rfl] at h
  rw [freqSum_congr (s := fullTable) (t := State.reset.setFreq 0 0xFFFFFFFF) rfl]
  rw [show BitVec.toNat (0 : Word) = 0 from rfl, Nat.add_zero, Nat.zero_add] at h
  rw [h]
  decide

theorem witness_BuildResult :
    (Quiet abTable ∧ abTable.freqValid = true ∧ abTable.freqSum ≤ 4294967295) ∧
    (Quiet fullTable ∧ fullTable.freqValid = true ∧ fullTable.freqSum ≤ 4294967295) ∧
    abTree.present[1]? = some 0x42 :=
  ⟨⟨rfl, rfl, by rw [abTable_freqSum]; decide⟩, ⟨rfl, rfl, fullTable_freqSum.le⟩, by rw [abTree_present]; rfl⟩

theorem witness_BuildMakesTheDescribedTree : Quiet abTable ∧ abTable.freqValid = true ∧ abTable.freqSum ≤ 4294967295 :=
  witness_BuildResult.1

theorem witness_BuildDeterministic :
    Quiet abTable ∧ Quiet abCodes ∧ abTable.freqValid = true ∧ abCodes.freqValid = true ∧ abTable.freq = abCodes.freq ∧
    abTable.freqSum ≤ 4294967295 := ⟨rfl, rfl, rfl, rfl, rfl, witness_BuildResult.1.2.2⟩

theorem witness_GencodeResult :
    (Quiet abTree ∧ abTree.treeDone = true ∧ TreeOfTable abTree) ∧ (Quiet aTree ∧ aTree.treeDone = true ∧ TreeOfTable aTree) ∧
    (Quiet { State.reset with treeDone := true } ∧ TreeOfTable { State.reset with treeDone := true }) :=
  ⟨⟨rfl, rfl, abTree_treeOfTable⟩, ⟨rfl, rfl, aTree_treeOfTable⟩, rfl, reset_treeOfTable.congr rfl rfl rfl rfl rfl rfl⟩

theorem abCodes_nonempty : abCodes.codeAt 0x41 ≠ [] ∧ abCodes.codeAt 0x42 ≠ [] := by
  rw [abCodes_codeAt, abCodes_codeAt]
  decide

/-- The table, tree and codes of "aaaa" (S3). -/
def aCodes : State := { aTree.setCode 0x61 [false] with codeValid := true }

theorem aCodes_codeAt (b : Byte) : aCodes.codeAt b = if b = 0x61 then [false] else [] := by
  rw [show aCodes.codeAt b = (aTree.setCode 0x61 [false]).codeAt b from codeAt_congr rfl b, codeAt_setCode, codeAt_clear _ rfl]

theorem aTree_treeCode (b : Byte) : aTree.treeCode b = if b = 0x61 then [false] else [] := by
  have ht : aTree.tree = some (.leaf 0x61 4) := by decide +kernel
  rw [State.treeCode, State.treeCodes, ht]
  by_cases h : b = 0x61
  · subst h; rfl
  · rw [if_neg h]
    show (List.lookup b [((0x61 : Byte), [false])]).getD [] = []
    rw [List.lookup_cons, beq_eq_false_iff_ne.mpr h]
    rfl

theorem aCodes_inv : Inv aCodes where
  sourcePos := by decide
  errClear _ := ⟨rfl, rfl⟩
  errCode h := absurd h (by decide)
  queueSorted := List.Pairwise.nil
  queueCap := by decide
  tableSum _ := by
    rw [freqSum_congr (s := aCodes) (t := aTree) rfl]
    simp only [State.freqSum, aTree_freqAt]
    decide +kernel
  flagOrder := ⟨fun _ => rfl, fun _ => rfl⟩
  nodesFree i hi := by
    have h1 : 1 ≤ i.toNat := hi
    rw [show aCodes.nodeAt i = ((onSource []).setFreq 0x61 4 |>.writeNode (.leaf 0x61 4)).nodeAt i from nodeAt_congr rfl i,
      nodeAt_writeNode _ _ _ (by decide), if_neg, nodeAt_clear _ rfl]
    rintro rfl
    exact absurd h1 (by decide)
  treeOfTable _ := aTree_treeOfTable.congr rfl rfl rfl rfl rfl rfl
  codeTable _ b := by
    rw [aCodes_codeAt, show aCodes.freqAt b = aTree.freqAt b from freqAt_congr rfl b, aTree_freqAt]
    by_cases h : b = 0x61
    · subst h; decide
    · rw [if_neg h, if_neg h]; decide
  codeOfTree _ b := by
    have hc : aCodes.treeCode b = aTree.treeCode b := treeCode_congr (s := aCodes) (t := aTree) rfl rfl rfl b
    rw [aCodes_codeAt, hc, aTree_treeCode]
  codeLength b := by
    rw [aCodes_codeAt]
    by_cases h : b = 0x61
    · subst h; decide
    · rw [if_neg h]; decide

/-- The empty table after BUILD and GENCODE (V-G7). -/
def emptyCodes : State := { State.reset with freqValid := true, treeDone := true, codeValid := true }

theorem emptyCodes_present : emptyCodes.present = [] := (present_eq_nil_iff _).mpr (freqSum_eq_zero _ rfl)

theorem emptyCodes_inv : Inv emptyCodes where
  sourcePos := by decide
  errClear _ := ⟨rfl, rfl⟩
  errCode h := absurd h (by decide)
  queueSorted := List.Pairwise.nil
  queueCap := by decide
  tableSum _ := freqSum_eq_zero _ rfl
  flagOrder := ⟨fun _ => rfl, fun _ => rfl⟩
  nodesFree i _ := nodeAt_clear _ rfl i
  treeOfTable _ := reset_treeOfTable.congr rfl rfl rfl rfl rfl rfl
  codeTable _ b := by rw [codeAt_clear _ rfl, freqAt_clear _ rfl]; decide
  codeOfTree _ b := by rw [codeAt_clear _ rfl]; rfl
  codeLength := codeLength_clear rfl

theorem witness_CodesArePrefixFree :
    (Inv abCodes ∧ abCodes.codeValid = true ∧ (0x41 : Byte) ≠ 0x42 ∧ abCodes.codeAt 0x41 ≠ [] ∧ abCodes.codeAt 0x42 ≠ []) ∧
    (Inv aCodes ∧ aCodes.codeValid = true ∧ aCodes.present = [0x61]) ∧
    (Inv emptyCodes ∧ emptyCodes.codeValid = true ∧ emptyCodes.present = []) :=
  ⟨⟨abCodes_inv, rfl, by decide, abCodes_nonempty⟩, ⟨aCodes_inv, rfl, (present_congr rfl).trans aTree_present⟩,
    emptyCodes_inv, rfl, emptyCodes_present⟩

theorem witness_CodeLengths : Inv abCodes ∧ abCodes.codeValid = true ∧ 0 < (abCodes.freqAt 0x41).toNat :=
  ⟨abCodes_inv, rfl, by decide +kernel⟩

theorem witness_EncodeResult :
    Quiet abCodes ∧ abCodes.freqValid = true ∧ abCodes.codeValid = true ∧ abCodes.src.data.length = abCodes.total.toNat ∧
    ∀ b ∈ abCodes.src.data, abCodes.codeAt b ≠ [] := ⟨rfl, rfl, rfl, rfl, by
      show ∀ b ∈ [(0x41 : Byte), 0x42], _
      simpa using abCodes_nonempty⟩

theorem witness_EncodeNoCode :
    Quiet (withSource [0x41, 0x43] abCodes) ∧ (withSource [0x41, 0x43] abCodes).src.data = [0x41] ++ 0x43 :: [] ∧
    (∀ c ∈ [(0x41 : Byte)], abCodes.codeAt c ≠ []) ∧ abCodes.codeAt 0x43 = [] ∧ [(0x41 : Byte)].length < abCodes.total.toNat :=
  ⟨rfl, rfl, by simpa using abCodes_nonempty.1, by rw [abCodes_codeAt]; rfl, by decide⟩

theorem witness_EncodeSourceChanged :
    (∀ c ∈ [(0x41 : Byte), 0x42], abCodes.codeAt c ≠ []) ∧
    ((withSource [0x41, 0x42, 0x41] abCodes).src.data = [0x41, 0x42] ++ [0x41] ∧
      [(0x41 : Byte), 0x42].length = abCodes.total.toNat ∧ [(0x41 : Byte)] ≠ []) ∧
    ((withSource [0x41] abCodes).src.data = [0x41] ++ [] ∧ [(0x41 : Byte)].length < abCodes.total.toNat) :=
  ⟨by simpa using abCodes_nonempty, ⟨rfl, rfl, by decide⟩, rfl, by decide⟩

theorem abTree_codes : [(0x41 : Byte), 0x42].flatMap abTree.treeCode = [true, false] := by
  simp [abTree_treeCode]

theorem abTree_counts : ∀ b ∈ [(0x41 : Byte), 0x42], 0 < (abTree.freqAt b).toNat := by simp [abTree_freqAt]

/-- The tree of "AB" with other bytes in the source: TreeOfTable does not look at it. -/
theorem witness_DecodeResult :
    Quiet (withSource [0xBF, 0xDE] abTree) ∧ abTree.freqValid = true ∧ abTree.treeDone = true ∧
    TreeOfTable (withSource [0xBF, 0xDE] abTree) ∧ (∀ b ∈ [(0x41 : Byte), 0x42], 0 < (abTree.freqAt b).toNat) ∧
    [(0x41 : Byte), 0x42].length = abTree.total.toNat ∧
    [(0xBF : Byte)].flatMap bitsMsb = [(0x41 : Byte), 0x42].flatMap abTree.treeCode ++ List.replicate 6 true ∧
    (List.replicate 6 true).length < 8 ∧ (withSource [0xBF, 0xDE] abTree).rest = [0xBF] ++ [0xDE] :=
  ⟨rfl, rfl, rfl, abTree_treeOfTable.congr rfl rfl rfl rfl rfl rfl, abTree_counts, rfl, by rw [abTree_codes]; decide, by decide, rfl⟩

theorem abraTree_tree : abraTree.tree = some (.internal 11 (.internal 6 (.internal 4 (.leaf 0x72 2) (.leaf 0x62 2))
    (.internal 2 (.leaf 0x64 1) (.leaf 0x63 1))) (.leaf 0x61 5)) := by decide +kernel

theorem abraTree_present : abraTree.present = [0x61, 0x62, 0x63, 0x64, 0x72] := by decide +kernel

theorem abraTree_treeOfTable : TreeOfTable abraTree := by
  refine ⟨by rw [abraTree_present]; rfl, fun h => absurd (abraTree_present ▸ h) (by simp), fun _ =>
    ⟨rfl, rfl, rfl, _, abraTree_tree, ?_, ?_, by decide, by decide +kernel⟩⟩
  · rw [abraTree_present]; decide
  · decide +kernel

/-- Nothing of the payload is there, and V-D5: two of the three bytes `91 75 22` of V-E3, which hold the codes of the first eight
symbols whole (test_decode_truncated). -/
theorem witness_DecodeTruncated :
    (Quiet (withSource [] abTree) ∧ TreeOfTable (withSource [] abTree) ∧
      (∀ b ∈ [(0x41 : Byte), 0x42], 0 < (abTree.freqAt b).toNat) ∧ [(0x41 : Byte), 0x42].length = abTree.total.toNat ∧
      payload ([(0x41 : Byte), 0x42].flatMap abTree.treeCode) = (withSource [] abTree).rest ++ [0x80] ∧ [(0x80 : Byte)] ≠ []) ∧
    Quiet abraTree ∧ abraTree.freqValid = true ∧ abraTree.treeDone = true ∧ TreeOfTable abraTree ∧
    (∀ b ∈ abraBytes, 0 < (abraTree.freqAt b).toNat) ∧ abraBytes.length = abraTree.total.toNat ∧
    payload (abraBytes.flatMap abraTree.treeCode) = abraTree.rest ++ [0x22] ∧ [(0x22 : Byte)] ≠ [] :=
  ⟨⟨rfl, abTree_treeOfTable.congr rfl rfl rfl rfl rfl rfl, abTree_counts, rfl, by rw [abTree_codes]; decide, by decide⟩,
    rfl, rfl, rfl, abraTree_treeOfTable, by decide +kernel, rfl, by decide +kernel, by decide⟩

/-- The first bit 1 at digit 0, and at the last digit but one of four bytes and behind a whole byte. -/
theorem witness_DecodeSingleLeafOneBit :
    Quiet (withSource [0x80] aTree) ∧ aTree.freqValid = true ∧ aTree.treeDone = true ∧ aTree.nodeAt aTree.rootIdx = .leaf 0x61 4 ∧
    ((withSource [0x80] aTree).rest = List.replicate 0 0 ++ 0x80 :: [] ∧ (0x80 : Byte).getLsbD (7 - 0) = true ∧
      8 * 0 + 0 < aTree.total.toNat) ∧
    ((withSource [0x10] aTree).rest = List.replicate 0 0 ++ 0x10 :: [] ∧ (∀ j, j < 3 → (0x10 : Byte).getLsbD (7 - j) = false) ∧
      (0x10 : Byte).getLsbD (7 - 3) = true ∧ 8 * 0 + 3 < aTree.total.toNat) ∧
    ((withSource [0, 0x01] aTree).rest = List.replicate 1 0 ++ 0x01 :: [] ∧ (∀ j, j < 7 → (0x01 : Byte).getLsbD (7 - j) = false) ∧
      (0x01 : Byte).getLsbD (7 - 7) = true ∧ 8 * 1 + 7 < ({ aTree with total := 16 } : State).total.toNat) :=
  ⟨rfl, rfl, rfl, by decide +kernel, ⟨rfl, rfl, by decide⟩, ⟨rfl, by decide, rfl, by decide⟩, rfl, by decide, rfl, by decide⟩

theorem witness_WrhdrResult : Quiet abTable ∧ abTable.freqValid = true := ⟨rfl, rfl⟩

theorem witness_RdhdrResult :
    Quiet (onSource (headerBytes abTable ++ [0x80])) ∧
    (onSource (headerBytes abTable ++ [0x80])).rest = headerBytes abTable ++ [0x80] ∧ abTable.freqSum = abTable.total.toNat :=
  ⟨rfl, rfl, abTable_sum⟩

theorem witness_RdhdrSumMismatch :
    Quiet (onSource (headerBytes { abTable with total := 3 })) ∧
    (onSource (headerBytes { abTable with total := 3 })).rest = headerBytes { abTable with total := 3 } ++ [] ∧
    ({ abTable with total := 3 } : State).freqSum ≠ ({ abTable with total := 3 } : State).total.toNat :=
  ⟨rfl, (List.append_nil _).symm, fun h => absurd (abTable_freqSum.symm.trans ((freqSum_congr rfl).trans h)) (by decide)⟩

theorem witness_RdhdrBadMagic :
    Quiet (onSource [0x48, 0x55, 0x46, 0x47]) ∧ 4 ≤ (onSource [0x48, 0x55, 0x46, 0x47]).rest.length ∧
    (onSource [0x48, 0x55, 0x46, 0x47]).rest.take 4 ≠ [0x48, 0x55, 0x46, 0x46] := ⟨rfl, by decide, by decide⟩

/-- No byte; three bytes that are no part of the magic; and one byte less than a header. -/
theorem witness_RdhdrTruncated :
    (Quiet State.reset ∧ State.reset.src.pos ≤ State.reset.src.data.length ∧ State.reset.rest.length < 1032 ∧
      ¬ 4 ≤ State.reset.rest.length) ∧
    ((onSource [0x58, 0x59, 0x5A]).rest.length < 1032 ∧ ¬ 4 ≤ (onSource [0x58, 0x59, 0x5A]).rest.length) ∧
    ((onSource (Config.magic ++ List.replicate 1027 0)).rest.length < 1032 ∧
      (onSource (Config.magic ++ List.replicate 1027 0)).rest.take 4 = [0x48, 0x55, 0x46, 0x46]) :=
  ⟨⟨rfl, by decide, by decide, by decide⟩, ⟨by decide, by decide⟩, by
    show (Config.magic ++ List.replicate 1027 0).length < 1032
    rw [List.length_append, List.length_replicate]
    decide, rfl⟩

theorem witness_CompressResult :
    Quiet (onSource abBytes) ∧ (onSource abBytes).src.data ≠ [] ∧ (onSource abBytes).src.data.length ≤ 4294967295 :=
  ⟨rfl, by decide, by decide⟩

theorem witness_CompressEmpty : Quiet State.reset ∧ State.reset.src.data = [] := ⟨rfl, rfl⟩

theorem abTable_tableTree : abTable.tableTree = some (.internal 2 (.leaf 0x42 1) (.leaf 0x41 1)) := by
  rw [State.tableTree, State.seedTrees, present_congr (s := abTable) (t := abTree) rfl, abTree_present]
  simp only [List.foldl, abTable_freqAt]
  decide

theorem witness_DecompressResult :
    Quiet (onSource (headerBytes abTable ++ [0x80] ++ [0x77])) ∧ abTable.freqSum = abTable.total.toNat ∧
    (∀ b ∈ [(0x41 : Byte), 0x42], 0 < (abTable.freqAt b).toNat) ∧ [(0x41 : Byte), 0x42].length = abTable.total.toNat ∧
    [(0x80 : Byte)].flatMap bitsMsb = [(0x41 : Byte), 0x42].flatMap abTable.tableCode ++ List.replicate 6 false ∧
    (List.replicate 6 false).length < 8 ∧
    (onSource (headerBytes abTable ++ [0x80] ++ [0x77])).rest = headerBytes abTable ++ [0x80] ++ [0x77] :=
  ⟨rfl, abTable_sum, by simp [abTable_freqAt], rfl, by
    simp only [List.flatMap_cons, List.flatMap_nil, State.tableCode, abTable_tableTree]
    decide, by decide, rfl⟩

theorem witness_RoundTrip : Quiet (onSource abBytes) ∧ Quiet State.reset ∧ (onSource abBytes).src.data.length ≤ 4294967295 :=
  ⟨rfl, rfl, by decide⟩

theorem witness_CompressDeterministic :
    Quiet (onSource abBytes) ∧ Quiet abCodes ∧ (onSource abBytes).src.data = abCodes.src.data ∧
    (onSource abBytes).src.data.length ≤ 4294967295 := ⟨rfl, rfl, rfl, by decide⟩

theorem inv_withInput {s : State} (h : Inv s) (i : Input) : Inv (withInput i s) :=
  h.same (by constructor <;> rfl) rfl h.sourcePos h.errClear h.errCode

theorem witness_StepKeepsInv :
    Inv (withInput (.write 0 0) abCodes) ∧ step (withInput (.write 0 0) abCodes) = .next abCodes := ⟨inv_withInput abCodes_inv _, rfl⟩

theorem witness_EveryStepCompletes : Inv abCodes := abCodes_inv

/-- The second clause: the notifications of COUNT and WRHDR, and COMPRESS's second one. -/
theorem witness_ObserverChangesNothingElse :
    exec .nop abCodes = .next abCodes ∧
    ∀ x ∈ [(Instr.count, onSource abBytes, 0), (.wrhdr, abTable, 0), (.compress, onSource abBytes, 5)],
      ∃ a u, exec x.1 (x.2.1.probe (List.replicate x.2.2 .served ++ .reset :: [.served])) = .next a ∧ a.answers = [.served] ∧
        exec x.1 (x.2.1.probe (List.replicate x.2.2 .served ++ .served :: .reset :: [.served])) = .next u ∧
        decide (u.obs = a.obs) = false ∧ decide (u.snk = a.snk) = true := by
  refine ⟨rfl, fun x hx => between_some ?_⟩
  simp only [List.mem_cons, List.not_mem_nil, or_false] at hx
  rcases hx with rfl | rfl | rfl <;> decide +kernel

/-- PQ_PEEKMIN on one item. -/
theorem witness_HostRegisterFrame :
    NoCut (fullQueue 1) ∧ Instr.pqPeekmin ≠ .reset ∧ exec .pqPeekmin (fullQueue 1) = .next { fullQueue 1 with res0 := 7, res1 := 0 } ∧
    NoCut abCodes ∧ Instr.nop ≠ .reset ∧ exec .nop abCodes = .next abCodes ∧
    Instr.nop ∉ [Instr.pqPopmin, .pqPeekmin, .pqSize] :=
  ⟨List.not_mem_nil, by decide, rfl, List.not_mem_nil, by decide, rfl, by decide⟩

theorem witness_StreamFrame :
    exec .nop abCodes = .next abCodes ∧ abCodes.src.pos ≤ abCodes.src.data.length ∧
    Instr.nop ∉ [Instr.wrhdr, .encode, .decode, .compress, .decompress] ∧ exec .reset abCodes = .next abCodes.resetBlock :=
  ⟨rfl, by decide, by decide, rfl⟩

theorem witness_SinkStores :
    (∃ t, exec .wrhdr abTable = .next t ∧ t.snk = abHeader) ∧ (∃ t, exec .encode abCodes = .next t ∧ t.snk = [0x80]) ∧
    ∃ t, exec .decode (withSource [0x80] abTree) = .next t ∧ t.snk = [0x41, 0x42] :=
  ⟨after_some test_wrhdr, after_some (by decide +kernel), after_some (by decide +kernel)⟩

theorem witness_TableFrame :
    NoCut abCodes ∧ exec .nop abCodes = .next abCodes ∧
    (∀ l ∈ [[Instr.reset, .count, .rdhdr, .compress, .decompress, .build, .gencode],
      [.reset, .count, .rdhdr, .compress, .decompress, .build, .pqInsert, .pqPopmin],
      [.reset, .count, .rdhdr, .compress, .decompress, .decode], [.count, .encode, .decode, .rdhdr, .compress, .decompress]],
      Instr.nop ∉ l) := ⟨List.not_mem_nil, rfl, by decide⟩

theorem witness_ErrorRegisterFrame :
    (NoCut State.reset ∧ Instr.pqPopmin ≠ .reset ∧ exec .pqPopmin State.reset = .next (State.reset.enterFault .emptyQueue 0)) ∧
    ∃ t, exec .count { onSource abBytes with answers := [.served, .failed 5] } = .next t ∧ (t.fault, t.err, t.errInfo) = (true, 5, 5) :=
  ⟨⟨List.not_mem_nil, by decide, rfl⟩, after_some (by decide +kernel)⟩

end Sys2Proof.Tests
end

section
/-! The digits of a byte (00_scope.md R7): where each stands in the byte, unpacking and packing. -/

namespace Sys2Proof.Machine

/-- `bits_msb` lists the bits from 7 down (R7). -/
theorem bitsMsb_eq_map_range (b : Byte) : bitsMsb b = (List.range 8).map fun k => b.getLsbD (7 - k) := rfl

theorem getElem?_bitsMsb (b : Byte) {k : Nat} (hk : k < 8) : (bitsMsb b)[k]? = some (b.getLsbD (7 - k)) := by
  rw [bitsMsb_eq_map_range, List.getElem?_map, List.getElem?_range hk, Option.map_some]

/-- Packing has unpacking as its left inverse (`bitsMsb_byteMsb`), so the place of a digit in unpacking is its place in packing. -/
theorem getLsbD_byteMsb {ds : List Digit} (h : ds.length = 8) {k : Nat} (hk : k < 8) :
    (byteMsb ds).getLsbD (7 - k) = ds.getD k false := by
  have hdigit : ds[k]? = some ((byteMsb ds).getLsbD (7 - k)) := by
    rw [← getElem?_bitsMsb (byteMsb ds) hk, bitsMsb_byteMsb h]
  rw [List.getD_eq_getElem?_getD, hdigit, Option.getD_some]

/-- Settles O4: unpacking by the list of bits it is, packing as unpacking's inverse. -/
theorem bitOrder : Obligations.BitOrder :=
  ⟨fun _ h _ hk => getLsbD_byteMsb h hk, fun b _ hk => getElem?_bitsMsb b hk⟩

end Sys2Proof.Machine
end

section
/-! One step, by the input it takes (10_state.md R18, R19, R29, R30; 70_reset_and_hazards.md R150, R151). -/

namespace Sys2Proof.Machine

theorem step_cons {s : State} {i : Input} {rest : List Input} (h : s.inputs = i :: rest) :
    step s = takeInput i { s with inputs := rest } := by
  unfold step stepInput
  rw [h]

theorem takeInput_write {n : Nat} (hn : n ≠ 0) (v : Word) (s : State) : takeInput (.write n v) s = .next (hostWrite n v s) :=
  if_neg hn

theorem hostWrite_ignored {n : Nat} (h8 : n ≠ 8) (h9 : n ≠ 9) (h12 : n ≠ 12) (v : Word) (s : State) : hostWrite n v s = s := by
  unfold hostWrite
  split
  · exact absurd rfl h8
  · exact absurd rfl h9
  · exact absurd rfl h12
  · rfl

/-- Settles O11, by the cases of `hostWrite`. -/
theorem hostWrites : Obligations.HostWrites := by
  intro s n v rest h hn
  rw [step_cons h, takeInput_write hn]
  refine ⟨?_, ?_, ?_, fun h8 h9 h12 => by rw [hostWrite_ignored h8 h9 h12]⟩ <;> rintro rfl <;> rfl

/-- Settles O12: a read is a step that only lengthens the list of values seen. -/
theorem hostReadsChangeNothing : Obligations.HostReadsChangeNothing := by
  intro s n rest h
  exact step_cons h

theorem freqAt_resetBlock (s : State) (b : Byte) : s.resetBlock.freqAt b = 0 := freqAt_clear _ rfl b

theorem nodeAt_resetBlock (s : State) (i : NodeIdx) : s.resetBlock.nodeAt i = .leaf 0 0 := nodeAt_clear _ rfl i

theorem codeAt_resetBlock (s : State) (b : Byte) : s.resetBlock.codeAt b = [] := codeAt_clear _ rfl b

/-- Settles O16: RESET is `State.resetBlock`, and so is a hardware reset. -/
theorem resetState : Obligations.ResetState := by
  refine fun s => ⟨⟨s.resetBlock, rfl, ?_⟩, fun rest h => step_cons h⟩
  simp [freqAt_resetBlock, nodeAt_resetBlock, codeAt_resetBlock]

/-- Settles O17: RESET leaves State.reset as it is, and its streams and lists are written out in it. -/
theorem initialState : Obligations.InitialState := ⟨rfl, rfl, rfl, rfl, rfl, rfl, rfl, rfl⟩

end Sys2Proof.Machine
end

section
/-! The invariant as a property of runs (10_state.md R20 to R26, 47_codec.md R107): in a state that has it every command and every input
comes to a next state, and that state has it too. -/

namespace Sys2Proof.Machine

/-- Settles O52: reset leaves the state right after reset as it is. -/
theorem invAtReset : Obligations.InvAtReset := Inv.resetBlock (s := State.reset) reset_memory_wf

/-- A body whose every end has the invariant gives a next state that has it. -/
theorem Result.Ends.next_inv {D : Unit → State → Prop} {r : Result Unit} (hr : r.Ends D Inv) (hD : ∀ s, D () s → Inv s) :
    ∃ t, r.outcome = .next t ∧ Inv t := by
  obtain ⟨t, ht, h⟩ := hr.next
  exact ⟨t, ht, h.elim (hD t) id⟩

/-- The end of PQ_POPMIN and PQ_PEEKMIN: the item found is recorded as the result. -/
theorem Result.Ends.setResult_completes {r : Result Item} (hr : r.Ends (fun _ t => Inv t) Inv) :
    ∃ t, (r.andThen fun it s => .done () (s.setResult it)).outcome = .next t ∧ Inv t := by
  refine Result.Ends.next_inv (D := fun _ t => Inv t) (hr.andThen fun it _ ht => ?_) fun _ ht => ht
  exact ⟨ht.setResult it⟩

/-- Every command completes and keeps the invariant, whatever the environment answers. -/
theorem exec_completes (i : Instr) {s : State} (h : Inv s) : ∃ t, exec i s = .next t ∧ Inv t := by
  cases i with
  | nop => exact ⟨s, rfl, h⟩
  | reset => exact ⟨_, rfl, h.cut⟩
  | pqInsert => exact (pqInsert_ends _ s h).next_inv fun _ ht => ht
  | pqPopmin => exact (pqPopMin_ends s h).setResult_completes
  | pqPeekmin => exact (pqPeekMin_ends s h).setResult_completes
  | pqSize => exact ⟨_, rfl, h.setSize _⟩
  | count => exact (countBody_ends s h).next_inv fun _ ht => ht.1
  | build => exact (buildBody_ends s h).next_inv fun _ ht => ht.1
  | gencode => exact (gencodeBody_ends s h).next_inv fun _ ht => ht
  | encode => exact (encodeBody_ends s h).next_inv fun _ ht => ht
  | decode => exact (decodeBody_ends s h).next_inv fun _ ht => ht
  | wrhdr => exact (wrhdrBody_ends s h).next_inv fun _ ht => ht.1
  | rdhdr => exact (rdhdrBody_ends s h).next_inv fun _ ht => ht.1
  | compress => exact (compressBody_ends s h).next_inv fun _ ht => ht
  | decompress => exact (decompressBody_ends s h).next_inv fun _ ht => ht

theorem commandWrite_completes (w : Word) {s : State} (h : Inv s) : ∃ t, commandWrite w s = .next t ∧ Inv t := by
  unfold commandWrite
  split
  · split
    · exact exec_completes .reset h
    · exact ⟨s, rfl, h⟩
  · split
    · exact exec_completes _ h
    · exact ⟨_, rfl, h.enterFault (by decide) w⟩

/-- The invariant does not speak of the operands, SEL, the sink and the model's own lists, which inputs write. -/
theorem Inv.withHostFields {s : State} (h : Inv s) (arg0 arg1 : Word) (sel : BitVec 9) (snk : List Byte) (inputs : List Input)
    (seen : List Word) :
    Inv { s with arg0 := arg0, arg1 := arg1, sel := sel, snk := snk, inputs := inputs, seen := seen } :=
  h.same (by constructor <;> rfl) rfl h.sourcePos h.errClear h.errCode

theorem Inv.hostWrite {s : State} (h : Inv s) (n : Nat) (v : Word) : Inv (hostWrite n v s) := by
  unfold Machine.hostWrite
  split
  · exact h.withHostFields v _ _ _ _ _
  · exact h.withHostFields _ v _ _ _ _
  · exact h.withHostFields _ _ (v.extractLsb' 0 9) _ _ _
  · exact h

/-- A source put in place comes with a position within it (log 3). -/
theorem Inv.setSource {s : State} (h : Inv s) (before after : List Byte) :
    Inv { s with src := ⟨before ++ after, before.length⟩ } :=
  h.same (by constructor <;> rfl) rfl (setSource_wf before after s).2 h.errClear h.errCode

theorem takeInput_completes (i : Input) {s : State} (h : Inv s) : ∃ t, takeInput i s = .next t ∧ Inv t := by
  cases i with
  | write reg v =>
    by_cases hreg : reg = 0
    · exact hreg ▸ commandWrite_completes v h
    · exact ⟨_, takeInput_write hreg v s, h.hostWrite reg v⟩
  | read reg => exact ⟨_, rfl, h.withHostFields _ _ _ _ _ (s.seen ++ [hostRead reg s])⟩
  | hardReset => exact ⟨_, rfl, h.cut⟩
  | setSource before after => exact ⟨_, rfl, h.setSource before after⟩
  | setSink bytes => exact ⟨_, rfl, h.withHostFields _ _ _ bytes _ _⟩

/-- Every step completes and keeps the invariant, whatever the input and the environment's answers. -/
theorem step_completes {s : State} (h : Inv s) : ∃ t, step s = .next t ∧ Inv t := by
  unfold step stepInput
  split
  · exact ⟨s, rfl, h⟩
  · exact takeInput_completes _ (h.withHostFields _ _ _ _ _ _)

/-- Settles O53: the next state of a step is the one in which it completes. -/
theorem stepKeepsInv : Obligations.StepKeepsInv := by
  intro s t h hst
  obtain ⟨u, hu, hinv⟩ := step_completes h
  cases hu.symm.trans hst
  exact hinv

end Sys2Proof.Machine
end

section
/-! What the host's register reads give, bit by bit (10_state.md R14 to R17, R29). -/

namespace Sys2Proof.Machine

theorem getElem_bit (b : Bool) {k : Nat} (hk : k < 32) : (bit b)[k] = (decide (k = 0) && b) := by
  cases b <;> simp [bit]

theorem getLsbD_statusWord_flags (s : State) :
    s.statusWord.getLsbD 0 = s.fault ∧ s.statusWord.getLsbD 1 = s.freqValid ∧ s.statusWord.getLsbD 2 = s.treeDone ∧
      s.statusWord.getLsbD 3 = s.codeValid := by
  simp [State.statusWord, getElem_bit]

/-- Above the flags STATUS holds ERR from bit 8 on, and zeros below it (R15). -/
theorem getLsbD_statusWord {k : Nat} (h4 : 4 ≤ k) (hk : k < 32) (s : State) :
    s.statusWord.getLsbD k = (!decide (k < 8) && s.err.getLsbD (k - 8)) := by
  have hflag : ∀ n ≤ 3, k - n ≠ 0 := fun n hn => by omega
  simp [State.statusWord, getElem_bit, hflag, hk, show k ≠ 0 by omega]

theorem statusWord_extract_err (s : State) : s.statusWord.extractLsb' 8 8 = s.err := by
  ext j hj
  simp [getLsbD_statusWord (show 4 ≤ 8 + j by omega) (by omega), BitVec.getLsbD_eq_getElem hj]

theorem statusWord_extract_reserved (s : State) :
    s.statusWord.extractLsb' 4 4 = 0 ∧ s.statusWord.extractLsb' 16 16 = 0 := by
  constructor <;> ext j hj <;> rw [BitVec.getElem_extractLsb', getLsbD_statusWord (by omega) (by omega)]
  · simp [show 4 + j < 8 by omega]
  · simp [show 8 ≤ 16 + j - 8 by omega]

/-- Below VALID ROOT holds IDX, and zeros above it (R17). -/
theorem getLsbD_rootWord {k : Nat} (hk : k < 31) (s : State) : s.rootWord.getLsbD k = s.rootIdx.getLsbD k := by
  simp [State.rootWord, getElem_bit, hk, show k < 32 by omega]

theorem rootWord_extract_idx (s : State) : s.rootWord.extractLsb' 0 9 = s.rootIdx := by
  ext j hj
  rw [BitVec.getElem_extractLsb', getLsbD_rootWord (by omega), Nat.zero_add, BitVec.getLsbD_eq_getElem hj]

theorem rootWord_extract_reserved (s : State) : s.rootWord.extractLsb' 9 22 = 0 := by
  ext j hj
  simp [getLsbD_rootWord (show 9 + j < 31 by omega)]

theorem getLsbD_rootWord_valid (s : State) : s.rootWord.getLsbD 31 = s.rootValid := by
  simp [State.rootWord, getElem_bit]

theorem hostRead_above {n : Nat} (h : 24 < n) (s : State) : hostRead n s = 0 := by
  obtain ⟨m, rfl⟩ : ∃ m, n = m + 25 := ⟨n - 25, by omega⟩
  rfl

/-- Settles O13: STATUS and ROOT by their fields, the other registers as they are held. -/
theorem registerValues : Obligations.RegisterValues := by
  intro s
  obtain ⟨hfault, hfreq, htree, hcode⟩ := getLsbD_statusWord_flags s
  have hzext : ∀ x : BitVec 9, (x.setWidth 32).toNat = x.toNat := fun x => BitVec.toNat_setWidth_of_le (by decide)
  obtain ⟨hlow, hhigh⟩ := statusWord_extract_reserved s
  exact ⟨rfl, ⟨hfault, hfreq, htree, hcode, hlow, statusWord_extract_err s, hhigh⟩, rfl, rfl, hzext _,
    hzext _, ⟨getLsbD_rootWord_valid s, rootWord_extract_reserved s, rootWord_extract_idx s⟩, rfl, rfl, rfl, rfl, rfl,
    hzext _, fun _ hn => hostRead_above hn s⟩

end Sys2Proof.Machine
end

section
/-! What the read windows give for SEL (10_state.md R19). -/

namespace Sys2Proof.Machine

theorem selSymbol_eq {s : State} {b : Byte} (h : b.toNat = s.sel.toNat % 256) : s.selSymbol = b := by
  apply BitVec.eq_of_toNat_eq
  simp [State.selSymbol, h]

theorem nodeAt_eq_getElem {s : State} {i : NodeIdx} (h : i.toNat < 511) : s.nodeAt i = s.node[i.toNat] := by
  simp [State.nodeAt, h]

/-- Index 511, which NODE does not have (log 11). -/
theorem nodeAt_out {s : State} {i : NodeIdx} (h : i.toNat = 511) : s.nodeAt i = Node.zero := by
  simp [State.nodeAt, h]

/-- NODE_WIN1 of an allocated leaf: the allocation bit, and the symbol below it. -/
theorem nodeWin1_leaf {s : State} (h : s.sel.toNat < s.nnodes.toNat) {c : Byte} {w : Word} (hn : s.nodeAt s.sel = .leaf c w) :
    s.nodeWin1.toNat = 2 ^ 30 + c.toNat := by
  have hc : c.toNat < 2 ^ 30 := c.isLt.trans (by decide)
  rw [State.nodeWin1, if_pos h, hn]
  dsimp only
  rw [BitVec.toNat_or, BitVec.toNat_setWidth_of_le (by decide)]
  exact (Nat.two_pow_add_eq_or_of_lt hc 1).symm

/-- NODE_WIN1 of an allocated internal node: the kind and the allocation bit, and the two indices in fields of their own. -/
theorem nodeWin1_internal {s : State} (h : s.sel.toNat < s.nnodes.toNat) {w : Word} {l r : NodeIdx}
    (hn : s.nodeAt s.sel = .internal w l r) : s.nodeWin1.toNat = 2 ^ 31 + 2 ^ 30 + 2 ^ 9 * r.toNat + l.toNat := by
  have hl := l.isLt
  have hr := r.isLt
  have hshift : (r.setWidth 32 <<< 9).toNat = 2 ^ 9 * r.toNat := by
    rw [BitVec.toNat_shiftLeft, BitVec.toNat_setWidth_of_le (by decide), Nat.shiftLeft_eq, Nat.mod_eq_of_lt (by omega), Nat.mul_comm]
  have hfields : 2 ^ 30 * 3 ||| 2 ^ 9 * r.toNat ||| l.toNat = 2 ^ 31 + 2 ^ 30 + 2 ^ 9 * r.toNat + l.toNat := by
    rw [← Nat.two_pow_add_eq_or_of_lt (by omega) 3,
      show 2 ^ 30 * 3 + 2 ^ 9 * r.toNat = 2 ^ 9 * (2 ^ 21 * 3 + r.toNat) by omega, ← Nat.two_pow_add_eq_or_of_lt hl]
    omega
  rw [State.nodeWin1, if_pos h, hn]
  dsimp only
  rw [BitVec.toNat_or, BitVec.toNat_or, hshift, BitVec.toNat_setWidth_of_le (by decide)]
  exact hfields

/-- A number built from digits, the first the most significant, holds them as its bits. -/
theorem testBit_foldl_digits (f : Nat → Digit) {n i : Nat} (hi : i < n) :
    ((List.range n).foldl (fun acc k => 2 * acc + (f k).toNat) 0).testBit (n - 1 - i) = f i := by
  induction n with
  | zero => omega
  | succ n ih =>
    rw [List.range_succ, List.foldl_append, List.foldl_cons, List.foldl_nil, ← Nat.bit_val]
    obtain rfl | hlt := Nat.lt_succ_iff_lt_or_eq.mp hi |>.symm
    · rw [show i + 1 - 1 - i = 0 by omega, Nat.testBit_bit_zero]
    · rw [show n + 1 - 1 - i = n - 1 - i + 1 by omega, Nat.testBit_bit_succ, ih hlt]

/-- CODE_BITS_WINj holds digit number 32 * j + i in bit 31 - i. -/
theorem getLsbD_codeBits (ds : List Digit) (j : Nat) {i : Nat} (hi : i < 32) :
    (codeBits ds j).getLsbD (31 - i) = ds.getD (32 * j + i) false := by
  rw [codeBits, BitVec.getLsbD_ofNat, decide_eq_true (by omega), Bool.true_and]
  exact testBit_foldl_digits (fun k => ds.getD (32 * j + k) false) hi

theorem hostRead_codeBits {j : Nat} (hj : j < 8) (s : State) : hostRead (17 + j) s = codeBits (s.codeAt s.selSymbol) j := by
  interval_cases j <;> rfl

/-- Settles O14: SEL selects a symbol and an entry; then one fact for each window. -/
theorem readWindows : Obligations.ReadWindows := by
  intro s b hb
  obtain rfl := selSymbol_eq hb
  refine ⟨rfl, fun h => ?_, fun h => ?_, fun h => if_neg (by omega), fun hlt halloc => ⟨fun c w hn => ?_, fun w l r hn => ?_⟩,
    fun hlen => ?_, fun j i hj hi => ?_⟩
  · exact congrArg Node.weight (nodeAt_out h)
  · exact congrArg Node.weight (nodeAt_eq_getElem h)
  · exact nodeWin1_leaf halloc ((nodeAt_eq_getElem hlt).trans hn)
  · exact nodeWin1_internal halloc ((nodeAt_eq_getElem hlt).trans hn)
  · exact Nat.mod_eq_of_lt (by omega)
  · rw [hostRead_codeBits hj, getLsbD_codeBits _ _ hi]

end Sys2Proof.Machine
end

section
/-! The queue commands by their outcomes (41_priority_queue.md R68 to R71). -/

namespace Sys2Proof.Machine

variable {s t : State}

theorem exec_pqInsert_cases (h : exec .pqInsert s = .next t) :
    (s.pq.length < Config.pqCap ∧ t = s.setPq (insertItem s.insertOperand s.pq)) ∨
    (Config.pqCap ≤ s.pq.length ∧ t = s.enterFault .queueFull 0) := by
  simp only [exec, execPqInsert, pqInsert] at h
  split at h
  · next hl => cases h; exact .inl ⟨hl, rfl⟩
  · next hl => cases h; exact .inr ⟨Nat.le_of_not_lt hl, rfl⟩

theorem exec_pqPopmin_cases (h : exec .pqPopmin s = .next t) :
    (∃ m q, s.pq = m :: q ∧ t = (s.setPq q).setResult m) ∨ (s.pq = [] ∧ t = s.enterFault .emptyQueue 0) := by
  simp only [exec, execPqPopmin, pqPopMin] at h
  split at h
  · next hq => cases h; exact .inr ⟨hq, rfl⟩
  · next m q hq => cases h; exact .inl ⟨m, q, hq, rfl⟩

theorem exec_pqPeekmin_cases (h : exec .pqPeekmin s = .next t) :
    (∃ m q, s.pq = m :: q ∧ t = s.setResult m) ∨ (s.pq = [] ∧ t = s.enterFault .emptyQueue 0) := by
  simp only [exec, execPqPeekmin, pqPeekMin] at h
  split at h
  · next hq => cases h; exact .inr ⟨hq, rfl⟩
  · next m q hq => cases h; exact .inl ⟨m, q, hq, rfl⟩

end Sys2Proof.Machine
end

section
/-! What a command leaves (10_state.md R17 to R26), where no hardware reset cuts it off. -/

namespace Sys2Proof.Machine

/-- Where no hardware reset is coming, `t` holds of `f` what `s` does, and none is coming there either. -/
def Kept {β : Type} (f : State → β) (s t : State) : Prop := NoCut s → NoCut t ∧ f t = f s

variable {β : Type} {f : State → β}

/-- An update that leaves the answers and `f`. -/
theorem Kept.of {s t : State} (ha : t.answers = s.answers) (hf : f t = f s) : Kept f s t :=
  fun hs => ⟨by rwa [NoCut, ha], hf⟩

theorem NoCut.answer {s : State} (h : NoCut s) : s.answer ≠ .reset := by
  intro ha
  unfold State.answer at ha
  cases hs : s.answers with
  | nil => rw [hs] at ha; cases ha
  | cons a as => rw [hs] at ha; exact h (hs ▸ ha ▸ .head _)

theorem NoCut.dropAnswer {s : State} (h : NoCut s) : NoCut s.dropAnswer := fun hm => h (List.mem_of_mem_tail hm)

/-- What the use of an answer and fault entry leave is kept across the end of any action. -/
theorem baseRel_kept (hd : ∀ s, f s.dropAnswer = f s) (he : ∀ e i s, f (s.enterFault e i) = f s) : BaseRel (Kept f) where
  refl _ := .of rfl rfl
  trans h k hs :=
    have ⟨ht, hst⟩ := h hs
    have ⟨hu, htu⟩ := k ht
    ⟨hu, htu.trans hst⟩
  dropAnswer s hs := ⟨hs.dropAnswer, hd s⟩
  cut _ hr hs := absurd hr hs.answer
  enterFault e i s _ := .of rfl (he e i s)

/-- The operands, the results and SEL (R18, R19). -/
def State.hostRegs (s : State) : Word × Word × BitVec 9 × Word × Word := (s.arg0, s.arg1, s.sel, s.res0, s.res1)

/-- Everything but the tables, their registers and flags (R17, R20 to R25): the error registers, the host's registers, the environment. -/
def State.outsideTables (s : State) :=
  (s.fault, s.err, s.errInfo, s.hostRegs, s.src, s.snk, s.obs, s.observerAttached, s.answers, s.inputs, s.seen)

section TableUpdates

variable {R : State → State → Prop} (hbase : BaseRel R) (hnote : ∀ p s, R s (s.appendPhase p))
  (htables : ∀ s t, t.outsideTables = s.outsideTables → R s t)

include hbase hnote htables

theorem countRel_of_tables (hpos : ∀ n s, R s (s.setPos n)) : CountRel R where
  toBaseRel := hbase
  appendPhase := hnote
  setPos := hpos
  clearEngine _ := htables _ _ rfl
  countByte _ _ := htables _ _ rfl
  setFreqValid _ := htables _ _ rfl

theorem rdhdrRel_of_tables (hpos : ∀ n s, R s (s.setPos n)) : RdhdrRel R where
  toBaseRel := hbase
  appendPhase := hnote
  setPos := hpos
  clearEngine _ := htables _ _ rfl
  setFreq _ _ _ := htables _ _ rfl
  setTotal _ _ := htables _ _ rfl
  setFreqValid _ := htables _ _ rfl

theorem buildRel_of_tables : BuildRel R where
  toBaseRel := hbase
  appendPhase := hnote
  setPq _ _ := htables _ _ rfl
  writeNode _ _ := htables _ _ rfl
  bumpNNodes _ := htables _ _ rfl
  startBuild _ := htables _ _ rfl
  recordNDist _ := htables _ _ rfl
  setRoot _ _ := htables _ _ rfl
  setTreeDone _ := htables _ _ rfl

theorem gencodeRel_of_tables : GencodeRel R where
  toBaseRel := hbase
  appendPhase := hnote
  setCode _ _ _ := htables _ _ rfl
  clearCodes _ := htables _ _ rfl
  setCodeValid _ := htables _ _ rfl
  clearCodeValid _ := htables _ _ rfl

/-- A relation that the actions respect, and that holds wherever only tables differ, holds across every command. -/
theorem engineRel_of_tables (hpos : ∀ n s, R s (s.setPos n)) (hbyte : ∀ b s, R s (s.appendByte b)) : EngineRel R where
  __ := countRel_of_tables hbase hnote htables hpos
  __ := rdhdrRel_of_tables hbase hnote htables hpos
  __ := buildRel_of_tables hbase hnote htables
  __ := gencodeRel_of_tables hbase hnote htables
  appendByte := hbyte
  clearEmitted _ := htables _ _ rfl
  bumpEmitted _ := htables _ _ rfl

end TableUpdates

theorem engineRel_hostRegs : EngineRel (Kept State.hostRegs) :=
  engineRel_of_tables (baseRel_kept (fun _ => rfl) fun _ _ _ => rfl) (fun _ _ => .of rfl rfl)
    (fun s t h => by
      simp only [State.outsideTables, Prod.mk.injEq] at h
      obtain ⟨-, -, -, hregs, -, -, -, -, hanswers, -, -⟩ := h
      exact .of hanswers hregs)
    (fun _ _ => .of rfl rfl) fun _ _ => .of rfl rfl

variable {i : Instr} {s t : State}

/-- The queue commands that give a result leave the operands and SEL (R18, R19). -/
theorem exec_result_operands (hi : i ∈ [Instr.pqPopmin, .pqPeekmin, .pqSize]) (he : exec i s = .next t) :
    t.arg0 = s.arg0 ∧ t.arg1 = s.arg1 ∧ t.sel = s.sel := by
  simp only [List.mem_cons, List.not_mem_nil, or_false] at hi
  obtain rfl | rfl | rfl := hi
  · obtain ⟨m, q, -, rfl⟩ | ⟨-, rfl⟩ := exec_pqPopmin_cases he <;> exact ⟨rfl, rfl, rfl⟩
  · obtain ⟨m, q, -, rfl⟩ | ⟨-, rfl⟩ := exec_pqPeekmin_cases he <;> exact ⟨rfl, rfl, rfl⟩
  · cases he
    exact ⟨rfl, rfl, rfl⟩

theorem exec_hostRegs (hi : i ∉ [Instr.reset, .pqPopmin, .pqPeekmin, .pqSize]) (hs : NoCut s) (he : exec i s = .next t) :
    t.hostRegs = s.hostRegs := by
  by_cases hq : i = .pqInsert
  · subst hq
    obtain ⟨-, rfl⟩ | ⟨-, rfl⟩ := exec_pqInsert_cases he <;> rfl
  · have hstage : i ∉ [Instr.reset, .pqInsert, .pqPopmin, .pqPeekmin, .pqSize] := by
      simp only [List.mem_cons, not_or] at hi ⊢
      exact ⟨hi.1, hq, hi.2⟩
    exact (engineRel_hostRegs.exec_stage hstage he hs).2

/-- Settles O56: the stages and PQ_INSERT keep the host's registers, the other queue commands write only results. -/
theorem hostRegisterFrame : Obligations.HostRegisterFrame := by
  intro i s t hs hreset he
  by_cases hi : i ∈ [Instr.pqPopmin, .pqPeekmin, .pqSize]
  · obtain ⟨h0, h1, hsel⟩ := exec_result_operands hi he
    exact ⟨h0, h1, hsel, fun hn => absurd hi hn⟩
  · have hregs := exec_hostRegs (List.not_mem_cons_of_ne_of_not_mem hreset hi) hs he
    simp only [State.hostRegs, Prod.mk.injEq] at hregs
    obtain ⟨h0, h1, hsel, hres⟩ := hregs
    exact ⟨h0, h1, hsel, fun _ => hres⟩

end Sys2Proof.Machine
end

section
/-! The streams (10_state.md R26): in every environment a command keeps the position within the source, leaves the source's bytes, and
lets SNK and OBS only grow. -/

namespace Sys2Proof.Machine

variable {s t : State}

/-- What leaves SRC keeps the form of the memories. -/
theorem baseRel_wf : BaseRel fun s t => Memory.wf s = true → Memory.wf t = true where
  refl _ h := h
  trans h k hs := k (h hs)
  dropAnswer _ h := h
  cut _ _ h := h
  enterFault _ _ _ _ h := h

theorem wf_of_outsideTables (s t : State) (h : t.outsideTables = s.outsideTables) : Memory.wf s = true → Memory.wf t = true := by
  simp only [State.outsideTables, Prod.mk.injEq] at h
  obtain ⟨-, -, -, -, hsrc, -⟩ := h
  exact Memory.wf_congr hsrc

theorem notify_wf (p : Phase) (hs : Memory.wf s = true) : (notify p s).All fun u => Memory.wf u = true :=
  request_wf hs (fun _ _ h => ⟨Memory.wf_congr h hs⟩) fun _ h => ⟨Memory.wf_congr h hs⟩

theorem raise_wf {α : Type} (e : Error) (i : Word) (hs : Memory.wf s = true) :
    (raise e i s : Result α).All fun u => Memory.wf u = true := ⟨hs⟩

theorem require_wf (c : Bool) (e : Error) (i : Word) (hs : Memory.wf s = true) :
    (require c e i s).All fun u => Memory.wf u = true := by
  cases c
  · exact raise_wf e i hs
  · exact ⟨hs⟩

theorem requireFlags_wf (c : Bool) (o : BitVec 8) (hs : Memory.wf s = true) :
    (requireFlags c o s).All fun u => Memory.wf u = true := require_wf c _ _ hs

theorem buildBody_wf (hs : Memory.wf s = true) : (buildBody s).All fun u => Memory.wf u = true :=
  ((buildRel_of_tables baseRel_wf (fun _ _ h => h) wf_of_outsideTables).buildBody (s₀ := s) id).mono
    fun _ h => h hs

theorem gencodeBody_wf (hs : Memory.wf s = true) : (gencodeBody s).All fun u => Memory.wf u = true :=
  ((gencodeRel_of_tables baseRel_wf (fun _ _ h => h) wf_of_outsideTables).gencodeBody (s₀ := s) id).mono
    fun _ h => h hs

theorem wrhdrBody_wf (hs : Memory.wf s = true) : (wrhdrBody s).All fun u => Memory.wf u = true := by
  refine (requireFlags_wf _ _ hs).then fun _ s hs => ?_
  exact (notify_wf _ hs).then fun _ s hs => snkWriteAll_wf _ hs

theorem countLoop_wf (n : Nat) (hs : Memory.wf s = true) : (countLoop n s).All fun u => Memory.wf u = true := by
  induction n generalizing s with
  | zero => exact ⟨trivial⟩
  | succ n ih =>
    refine (srcRead_wf hs).then fun r s hs => ?_
    cases r with
    | none => exact ⟨hs⟩
    | some b => exact (require_wf _ _ _ hs).then fun _ s hs => ih hs

theorem countBody_wf (hs : Memory.wf s = true) : (countBody s).All fun u => Memory.wf u = true := by
  refine (notify_wf (s := s.clearEngine) _ hs).then fun _ s hs => ?_
  refine (srcRewind_wf hs).then fun _ s hs => ?_
  exact (countLoop_wf _ hs).then fun _ s hs => ⟨hs⟩

theorem pushDigits_wf (ds buf : List Digit) (hs : Memory.wf s = true) :
    (pushDigits ds buf s).All fun u => Memory.wf u = true := by
  induction ds generalizing s buf with
  | nil => exact ⟨hs⟩
  | cons d ds ih =>
    unfold pushDigits
    split
    · exact (snkWrite_wf _ hs).then fun _ s hs => ih _ hs
    · exact ih _ hs

theorem encodeLoop_wf (m : Nat) (buf : List Digit) (n : Nat) (hs : Memory.wf s = true) :
    (encodeLoop m buf n s).All fun u => Memory.wf u = true := by
  induction m generalizing s buf n with
  | zero => exact ⟨trivial⟩
  | succ m ih =>
    refine (srcRead_wf hs).then fun r s hs => ?_
    cases r with
    | none => exact ⟨hs⟩
    | some b =>
      refine (require_wf _ _ _ hs).then fun _ s hs => ?_
      refine (require_wf _ _ _ hs).then fun _ s hs => ?_
      exact (pushDigits_wf _ _ hs).then fun buf s hs => ih _ _ hs

theorem flushBuf_wf (buf : List Digit) (hs : Memory.wf s = true) : (flushBuf buf s).All fun u => Memory.wf u = true := by
  unfold flushBuf
  split
  · exact snkWrite_wf _ hs
  · exact ⟨hs⟩

theorem encodeBody_wf (hs : Memory.wf s = true) : (encodeBody s).All fun u => Memory.wf u = true := by
  refine (requireFlags_wf _ _ hs).then fun _ s hs => ?_
  refine (notify_wf _ hs).then fun _ s hs => ?_
  refine (srcRewind_wf hs).then fun _ s hs => ?_
  refine (encodeLoop_wf _ _ _ hs).then fun r s hs => ?_
  exact (require_wf _ _ _ hs).then fun _ s hs => flushBuf_wf _ hs

theorem emit_wf (b : Byte) (hs : Memory.wf s = true) : (emit b s).All fun u => Memory.wf u = true :=
  (snkWrite_wf b hs).then fun _ _ hs => ⟨hs⟩

theorem decodeBit_wf (root : NodeIdx) (d : Digit) (cur : NodeIdx) (hs : Memory.wf s = true) :
    (decodeBit root d cur s).All fun u => Memory.wf u = true := by
  unfold decodeBit
  split
  · refine (require_wf _ _ _ hs).then fun _ s hs => ?_
    exact (emit_wf _ hs).then fun _ s hs => ⟨hs⟩
  · split
    · exact (emit_wf _ hs).then fun _ s hs => ⟨hs⟩
    · exact ⟨hs⟩

theorem decodeBits_wf (root : NodeIdx) (ds : List Digit) (cur : NodeIdx) (hs : Memory.wf s = true) :
    (decodeBits root ds cur s).All fun u => Memory.wf u = true := by
  induction ds generalizing s cur with
  | nil => exact ⟨hs⟩
  | cons d ds ih =>
    refine (decodeBit_wf root d cur hs).then fun cur s hs => ?_
    split
    · exact ⟨hs⟩
    · exact ih _ hs

theorem decodeLoop_wf (root : NodeIdx) (n : Nat) (cur : NodeIdx) (hs : Memory.wf s = true) :
    (decodeLoop root n cur s).All fun u => Memory.wf u = true := by
  induction n generalizing s cur with
  | zero => exact ⟨trivial⟩
  | succ n ih =>
    unfold decodeLoop
    split
    · refine (srcRead_wf hs).then fun r s hs => ?_
      cases r with
      | none => exact raise_wf _ _ hs
      | some b => exact (decodeBits_wf root _ _ hs).then fun cur s hs => ih _ hs
    · exact ⟨hs⟩

theorem decodeBody_wf (hs : Memory.wf s = true) : (decodeBody s).All fun u => Memory.wf u = true := by
  refine (requireFlags_wf _ _ hs).then fun _ s hs => ?_
  refine (notify_wf _ hs).then fun _ s hs => ?_
  have hc : Memory.wf s.clearEmitted = true := hs
  dsimp only
  split
  · exact decodeLoop_wf _ _ _ hc
  · exact ⟨hc⟩

theorem readField_wf (hs : Memory.wf s = true) : (readField s).All fun u => Memory.wf u = true := by
  refine (srcReadN_wf 4 hs).then fun r s hs => ?_
  cases r with
  | none => exact raise_wf _ _ hs
  | some bs => exact ⟨hs⟩

theorem readCounts_wf (bs : List Byte) (hs : Memory.wf s = true) : (readCounts bs s).All fun u => Memory.wf u = true := by
  induction bs generalizing s with
  | nil => exact ⟨hs⟩
  | cons b bs ih => exact (readField_wf hs).then fun c s hs => ih hs

theorem rdhdrBody_wf (hs : Memory.wf s = true) : (rdhdrBody s).All fun u => Memory.wf u = true := by
  refine (notify_wf (s := s.clearEngine) _ hs).then fun _ s hs => ?_
  refine (readField_wf hs).then fun _ s hs => ?_
  refine (require_wf _ _ _ hs).then fun _ s hs => ?_
  refine (readField_wf hs).then fun l s hs => ?_
  refine (readCounts_wf (s := s.setTotal (le32 l)) _ hs).then fun _ s hs => ?_
  exact (require_wf _ _ _ hs).then fun _ s hs => ⟨hs⟩

theorem compressBody_wf (hs : Memory.wf s = true) : (compressBody s).All fun u => Memory.wf u = true := by
  refine (countBody_wf hs).then fun _ s hs => ?_
  refine (wrhdrBody_wf hs).then fun _ s hs => ?_
  split
  · refine (buildBody_wf hs).then fun _ s hs => ?_
    exact (gencodeBody_wf hs).then fun _ s hs => encodeBody_wf hs
  · exact ⟨hs⟩

theorem decompressBody_wf (hs : Memory.wf s = true) : (decompressBody s).All fun u => Memory.wf u = true := by
  refine (rdhdrBody_wf hs).then fun _ s hs => ?_
  exact (buildBody_wf hs).then fun _ s hs => decodeBody_wf hs

/-- What the environment holds of the streams and what it has for the host (R26). -/
def State.streams (s : State) := (s.src, s.snk, s.obs, s.observerAttached, s.inputs, s.seen)

/-- RESET and the queue commands take no action, so they leave the environment. -/
theorem exec_streams {i : Instr} (hi : i ∈ [Instr.reset, .pqInsert, .pqPopmin, .pqPeekmin, .pqSize]) (he : exec i s = .next t) :
    t.streams = s.streams := by
  simp only [List.mem_cons, List.not_mem_nil, or_false] at hi
  obtain rfl | rfl | rfl | rfl | rfl := hi
  · cases he
    rfl
  · obtain ⟨-, rfl⟩ | ⟨-, rfl⟩ := exec_pqInsert_cases he <;> rfl
  · obtain ⟨m, q, -, rfl⟩ | ⟨-, rfl⟩ := exec_pqPopmin_cases he <;> rfl
  · obtain ⟨m, q, -, rfl⟩ | ⟨-, rfl⟩ := exec_pqPeekmin_cases he <;> rfl
  · cases he
    rfl

theorem exec_wf {i : Instr} (hs : Memory.wf s = true) (he : exec i s = .next t) : Memory.wf t = true := by
  cases i with
  | nop => cases he; exact hs
  | reset | pqInsert | pqPopmin | pqPeekmin | pqSize => exact Memory.wf_congr (congrArg Prod.fst (exec_streams (by simp) he)) hs
  | count => exact (countBody_wf hs).next he
  | build => exact (buildBody_wf hs).next he
  | gencode => exact (gencodeBody_wf hs).next he
  | encode => exact (encodeBody_wf hs).next he
  | decode => exact (decodeBody_wf hs).next he
  | wrhdr => exact (wrhdrBody_wf hs).next he
  | rdhdr => exact (rdhdrBody_wf hs).next he
  | compress => exact (compressBody_wf hs).next he
  | decompress => exact (decompressBody_wf hs).next he

/-- How the streams of two states of a run are related (R26): SRC.data is the same, and SNK and OBS only grow. -/
structure StreamsGrow (s t : State) : Prop where
  data : t.src.data = s.src.data
  snk : s.snk <+: t.snk
  obs : s.obs <+: t.obs
  unobserved : s.observerAttached = false → t.obs = s.obs
  attached : t.observerAttached = s.observerAttached
  inputs : t.inputs = s.inputs
  seen : t.seen = s.seen

theorem StreamsGrow.of_streams (h : t.streams = s.streams) : StreamsGrow s t := by
  simp only [State.streams, Prod.mk.injEq] at h
  obtain ⟨hsrc, hsnk, hobs, hatt, hin, hseen⟩ := h
  exact ⟨congrArg _ hsrc, hsnk ▸ List.prefix_rfl, hobs ▸ List.prefix_rfl, fun _ => hobs, hatt, hin, hseen⟩

theorem StreamsGrow.trans {u : State} (h : StreamsGrow s t) (k : StreamsGrow t u) : StreamsGrow s u where
  data := k.data.trans h.data
  snk := h.snk.trans k.snk
  obs := h.obs.trans k.obs
  unobserved hs := (k.unobserved (h.attached.trans hs)).trans (h.unobserved hs)
  attached := k.attached.trans h.attached
  inputs := k.inputs.trans h.inputs
  seen := k.seen.trans h.seen

theorem StreamsGrow.appendPhase (p : Phase) (s : State) : StreamsGrow s (s.appendPhase p) where
  data := rfl
  snk := List.prefix_rfl
  obs := by
    rw [State.appendPhase_obs]
    split
    · exact List.prefix_append _ _
    · exact List.prefix_rfl
  unobserved h := by
    rw [State.appendPhase_obs, h]
    rfl
  attached := rfl
  inputs := rfl
  seen := rfl

theorem StreamsGrow.appendByte (b : Byte) (s : State) : StreamsGrow s (s.appendByte b) :=
  ⟨rfl, List.prefix_append _ _, List.prefix_rfl, fun _ => rfl, rfl, rfl, rfl⟩

theorem engineRel_streamsGrow : EngineRel StreamsGrow :=
  engineRel_of_tables
    ⟨fun _ => .of_streams rfl, .trans, fun _ => .of_streams rfl, fun _ _ => .of_streams rfl, fun _ _ _ _ => .of_streams rfl⟩
    .appendPhase
    (fun s t h => .of_streams (by
      simp only [State.outsideTables, Prod.mk.injEq] at h
      obtain ⟨-, -, -, -, hsrc, hsnk, hobs, hatt, -, hin, hseen⟩ := h
      simp only [State.streams, hsrc, hsnk, hobs, hatt, hin, hseen]))
    (fun _ _ => ⟨rfl, List.prefix_rfl, List.prefix_rfl, fun _ => rfl, rfl, rfl, rfl⟩) .appendByte

theorem exec_streamsGrow {i : Instr} (he : exec i s = .next t) : StreamsGrow s t := by
  by_cases hi : i ∈ [Instr.reset, .pqInsert, .pqPopmin, .pqPeekmin, .pqSize]
  · exact .of_streams (exec_streams hi he)
  · exact engineRel_streamsGrow.exec_stage hi he

theorem baseRel_snk : BaseRel fun s t => t.snk = s.snk where
  refl _ := rfl
  trans h k := k.trans h
  dropAnswer _ := rfl
  cut _ _ := rfl
  enterFault _ _ _ _ := rfl

theorem snk_of_outsideTables (s t : State) (h : t.outsideTables = s.outsideTables) : t.snk = s.snk := by
  simp only [State.outsideTables, Prod.mk.injEq] at h
  obtain ⟨-, -, -, -, -, hsnk, -⟩ := h
  exact hsnk

/-- The commands that make no request to the sink. -/
theorem exec_snk {i : Instr} (hi : i ∉ [Instr.wrhdr, .encode, .decode, .compress, .decompress]) (he : exec i s = .next t) :
    t.snk = s.snk := by
  cases i with
  | nop => cases he; rfl
  | reset | pqInsert | pqPopmin | pqPeekmin | pqSize => exact congrArg (fun x => x.2.1) (exec_streams (by simp) he)
  | count => exact ((countRel_of_tables baseRel_snk (fun _ _ => rfl) snk_of_outsideTables fun _ _ => rfl).countBody rfl).next he
  | build => exact ((buildRel_of_tables baseRel_snk (fun _ _ => rfl) snk_of_outsideTables).buildBody rfl).next he
  | gencode => exact ((gencodeRel_of_tables baseRel_snk (fun _ _ => rfl) snk_of_outsideTables).gencodeBody rfl).next he
  | rdhdr => exact ((rdhdrRel_of_tables baseRel_snk (fun _ _ => rfl) snk_of_outsideTables fun _ _ => rfl).rdhdrBody rfl).next he
  | wrhdr | encode | decode | compress | decompress => exact absurd (by simp) hi

/-- Settles O57: the streams' growth, the form of SRC, and the commands that leave the sink or every stream. -/
theorem streamFrame : Obligations.StreamFrame := by
  intro i s t he
  obtain ⟨hdata, hsnk, hobs, hun, hatt, hin, hseen⟩ := exec_streamsGrow he
  refine ⟨hdata, fun hpos => ?_, hsnk, hobs, hun, hatt, hin, hseen, fun hi => exec_snk hi he, ?_⟩
  · exact of_decide_eq_true (exec_wf (decide_eq_true hpos) he)
  · rintro rfl
    cases he
    exact ⟨rfl, rfl, rfl⟩

end Sys2Proof.Machine
end

section
/-! What each command leaves of the tables, their registers and flags (10_state.md R17, R20 to R25, 20_memory.md R31). -/

namespace Sys2Proof.Machine

/-- What COUNT and RDHDR write (R20). -/
def State.countPart (s : State) := (s.freq, s.total, s.freqValid)

/-- What BUILD writes besides (R22). -/
def State.treePart (s : State) := (s.node, s.nnodes, s.ndist, s.rootValid, s.rootIdx, s.treeDone)

/-- What GENCODE writes besides (R24). -/
def State.codePart (s : State) := (s.code, s.codeValid)

theorem buildRel_kept : BuildRel (Kept fun s => (s.countPart, s.emitted, s.src)) where
  toBaseRel := baseRel_kept (fun _ => rfl) fun _ _ _ => rfl
  appendPhase _ _ := .of rfl rfl
  setPq _ _ := .of rfl rfl
  writeNode _ _ := .of rfl rfl
  bumpNNodes _ := .of rfl rfl
  startBuild _ := .of rfl rfl
  recordNDist _ := .of rfl rfl
  setRoot _ _ := .of rfl rfl
  setTreeDone _ := .of rfl rfl

theorem gencodeRel_kept : GencodeRel (Kept fun s => (s.countPart, s.treePart, s.pq, s.emitted, s.src)) where
  toBaseRel := baseRel_kept (fun _ => rfl) fun _ _ _ => rfl
  appendPhase _ _ := .of rfl rfl
  setCode _ _ _ := .of rfl rfl
  clearCodes _ := .of rfl rfl
  setCodeValid _ := .of rfl rfl
  clearCodeValid _ := .of rfl rfl

theorem encodeRel_kept : EncodeRel (Kept fun s => (s.countPart, s.treePart, s.codePart, s.pq, s.emitted)) where
  toBaseRel := baseRel_kept (fun _ => rfl) fun _ _ _ => rfl
  appendPhase _ _ := .of rfl rfl
  setPos _ _ := .of rfl rfl
  appendByte _ _ := .of rfl rfl

theorem decodeRel_kept : DecodeRel (Kept fun s => (s.countPart, s.treePart, s.codePart, s.pq)) where
  toBaseRel := baseRel_kept (fun _ => rfl) fun _ _ _ => rfl
  appendPhase _ _ := .of rfl rfl
  setPos _ _ := .of rfl rfl
  appendByte _ _ := .of rfl rfl
  bumpEmitted _ := .of rfl rfl
  clearEmitted _ := .of rfl rfl

theorem wrhdrRel_kept : WrhdrRel (Kept fun s => (s.countPart, s.treePart, s.codePart, s.pq, s.emitted, s.src)) where
  toBaseRel := baseRel_kept (fun _ => rfl) fun _ _ _ => rfl
  appendPhase _ _ := .of rfl rfl
  appendByte _ _ := .of rfl rfl

variable {s t : State}

theorem exec_build_frame (hs : NoCut s) (he : exec .build s = .next t) :
    t.countPart = s.countPart ∧ t.emitted = s.emitted ∧ t.src = s.src := by
  simpa using ((buildRel_kept.buildBody (buildRel_kept.refl s)).next he hs).2

theorem exec_gencode_frame (hs : NoCut s) (he : exec .gencode s = .next t) :
    t.countPart = s.countPart ∧ t.treePart = s.treePart ∧ t.pq = s.pq ∧ t.emitted = s.emitted ∧ t.src = s.src := by
  simpa using ((gencodeRel_kept.gencodeBody (gencodeRel_kept.refl s)).next he hs).2

theorem exec_encode_frame (hs : NoCut s) (he : exec .encode s = .next t) :
    t.countPart = s.countPart ∧ t.treePart = s.treePart ∧ t.codePart = s.codePart ∧ t.pq = s.pq ∧ t.emitted = s.emitted := by
  simpa using ((encodeRel_kept.encodeBody (encodeRel_kept.refl s)).next he hs).2

theorem exec_decode_frame (hs : NoCut s) (he : exec .decode s = .next t) :
    t.countPart = s.countPart ∧ t.treePart = s.treePart ∧ t.codePart = s.codePart ∧ t.pq = s.pq := by
  simpa using ((decodeRel_kept.decodeBody (decodeRel_kept.refl s)).next he hs).2

theorem exec_wrhdr_frame (hs : NoCut s) (he : exec .wrhdr s = .next t) :
    t.countPart = s.countPart ∧ t.treePart = s.treePart ∧ t.codePart = s.codePart ∧ t.pq = s.pq ∧ t.emitted = s.emitted ∧
      t.src = s.src := by
  simpa using ((wrhdrRel_kept.wrhdrBody (wrhdrRel_kept.refl s)).next he hs).2

/-- The queue commands write the queue, the results and the error registers only. -/
theorem exec_queue_frame {i : Instr} (hi : i ∈ [Instr.pqInsert, .pqPopmin, .pqPeekmin, .pqSize]) (he : exec i s = .next t) :
    t.countPart = s.countPart ∧ t.treePart = s.treePart ∧ t.codePart = s.codePart ∧
      (i ∉ [Instr.pqInsert, .pqPopmin] → t.pq = s.pq) ∧ t.emitted = s.emitted ∧ t.src = s.src := by
  simp only [List.mem_cons, List.not_mem_nil, or_false] at hi
  obtain rfl | rfl | rfl | rfl := hi
  · obtain ⟨-, rfl⟩ | ⟨-, rfl⟩ := exec_pqInsert_cases he <;> exact ⟨rfl, rfl, rfl, fun h => absurd (.head _) h, rfl, rfl⟩
  · obtain ⟨m, q, -, rfl⟩ | ⟨-, rfl⟩ := exec_pqPopmin_cases he <;>
      exact ⟨rfl, rfl, rfl, fun h => absurd (.tail _ (.head _)) h, rfl, rfl⟩
  · obtain ⟨m, q, -, rfl⟩ | ⟨-, rfl⟩ := exec_pqPeekmin_cases he <;> exact ⟨rfl, rfl, rfl, fun _ => rfl, rfl, rfl⟩
  · cases he
    exact ⟨rfl, rfl, rfl, fun _ => rfl, rfl, rfl⟩

/-- The frame of every command, by the parts that the commands share. -/
theorem exec_frame (i : Instr) (hs : NoCut s) (he : exec i s = .next t) :
    (i ∉ [Instr.reset, .count, .rdhdr, .compress, .decompress] → t.countPart = s.countPart) ∧
    (i ∉ [Instr.reset, .count, .rdhdr, .compress, .decompress, .build] → t.treePart = s.treePart) ∧
    (i ∉ [Instr.reset, .count, .rdhdr, .compress, .decompress, .build, .gencode] → t.codePart = s.codePart) ∧
    (i ∉ [Instr.reset, .count, .rdhdr, .compress, .decompress, .build, .pqInsert, .pqPopmin] → t.pq = s.pq) ∧
    (i ∉ [Instr.reset, .count, .rdhdr, .compress, .decompress, .decode] → t.emitted = s.emitted) ∧
    (i ∉ [Instr.count, .encode, .decode, .rdhdr, .compress, .decompress] → t.src = s.src) := by
  cases i with
  | nop =>
    cases he
    simp
  | reset =>
    cases he
    simp
  | pqInsert | pqPopmin | pqPeekmin | pqSize => simpa using exec_queue_frame (by simp) he
  | count | rdhdr | compress | decompress => simp
  | build => simpa using exec_build_frame hs he
  | gencode => simpa using exec_gencode_frame hs he
  | encode => simpa using exec_encode_frame hs he
  | decode => simpa using exec_decode_frame hs he
  | wrhdr => simpa using exec_wrhdr_frame hs he

/-- Settles O59: the parts, field by field. -/
theorem tableFrame : Obligations.TableFrame := by
  intro i s t hs he
  obtain ⟨hcount, htree, hcode, hpq, hemitted, hsrc⟩ := exec_frame i hs he
  refine ⟨fun hi => ?_, fun hi => ?_, fun hi => ?_, hpq, hemitted, hsrc⟩
  · simpa [State.countPart] using hcount hi
  · simpa [State.treePart] using htree hi
  · simpa [State.codePart] using hcode hi

end Sys2Proof.Machine
end

section
/-! Command words (30_encoding.md R46 to R48): the fields of a word and the rows of the decoder's table. -/

namespace Sys2Proof

/-- A word is its two fields of format C, one behind the other (R46). -/
theorem zeroField_append_opcField (w : Word) : w.extractLsb' 8 24 ++ w.extractLsb' 0 8 = w :=
  (BitVec.extractLsb'_append_extractLsb'_eq_extractLsb' rfl).trans BitVec.extractLsb'_eq_self

/-- Every row's mask covers the word, and its match word is its command's encoding (R47). -/
theorem opcodeTable_row : ∀ r ∈ opcodeTable, r.mask = BitVec.allOnes 32 ∧ r.matchWord = encode r.instr := by decide

theorem OpcodeRow.eq_encode_of_hits {r : OpcodeRow} (hr : r ∈ opcodeTable) {w : Word} (h : r.hits w) : w = encode r.instr := by
  obtain ⟨hmask, hmatch⟩ := opcodeTable_row r hr
  rw [OpcodeRow.hits, hmask, hmatch, BitVec.and_allOnes] at h
  exact eq_of_beq h

theorem eq_encode_of_decode {w : Word} {i : Instr} (h : decode w = .ok i) : w = encode i := by
  unfold decode at h
  split at h
  · next r hr =>
    cases h
    have hhit : r.hits w := List.find?_some (p := (OpcodeRow.hits · w)) hr
    exact OpcodeRow.eq_encode_of_hits (List.mem_of_find?_eq_some hr) hhit
  · cases h

/-- The fifteen rows have different match words, so the table finds each command's own row first. -/
theorem decode_encode (i : Instr) : decode (encode i) = .ok i := by
  cases i <;> rfl

theorem decode_eq_ok_iff (w : Word) (i : Instr) : decode w = .ok i ↔ w = encode i :=
  ⟨eq_encode_of_decode, fun h => h ▸ decode_encode i⟩

theorem eq_encode_iff_fields (w : Word) (i : Instr) :
    w = encode i ↔ w.extractLsb' 8 24 = 0 ∧ w.extractLsb' 0 8 = opc i := by
  constructor
  · rintro rfl
    cases i <;> decide
  · rintro ⟨hzero, hopc⟩
    rw [← zeroField_append_opcField w, hzero, hopc, encode]

/-- Settles O2: the table's rows are the encodings, and an encoding is its two fields. -/
theorem decodeAndEncodeAgree : Obligations.DecodeAndEncodeAgree :=
  fun w i => ⟨decode_eq_ok_iff w i, eq_encode_iff_fields w i⟩

/-- Settles O1: what decodes is an encoding, and the encodings are the fifteen words. -/
theorem commandWordsDecode : Obligations.CommandWordsDecode := by
  refine ⟨decode_encode .nop, decode_encode .reset, decode_encode .pqInsert, decode_encode .pqPopmin, decode_encode .pqPeekmin,
    decode_encode .pqSize, decode_encode .count, decode_encode .build, decode_encode .gencode, decode_encode .encode,
    decode_encode .decode, decode_encode .wrhdr, decode_encode .rdhdr, decode_encode .compress, decode_encode .decompress, ?_⟩
  intro w i h
  rw [eq_encode_of_decode h]
  cases i <;> decide

end Sys2Proof
end

section
/-! Four-byte fields and the header (00_scope.md R7, 30_encoding.md R50, R51): what a field's value is, and where each field stands. -/

namespace Sys2Proof.Machine

theorem le32_toNat (b0 b1 b2 b3 : Byte) :
    (le32 [b0, b1, b2, b3]).toNat = b0.toNat + 2 ^ 8 * b1.toNat + 2 ^ 16 * b2.toNat + 2 ^ 24 * b3.toNat := by
  simp only [le32, List.foldr, BitVec.toNat_ofNat]
  omega

/-- Writing a field's value gives its bytes back (R7). -/
theorem le32Bytes_le32 (b0 b1 b2 b3 : Byte) : le32Bytes (le32 [b0, b1, b2, b3]) = [b0, b1, b2, b3] := by
  simp only [le32Bytes, List.cons.injEq, and_true]
  refine ⟨?_, ?_, ?_, ?_⟩
  all_goals
    apply BitVec.eq_of_toNat_eq
    rw [BitVec.extractLsb'_toNat, le32_toNat, Nat.shiftRight_eq_div_pow]
    omega

/-- Settles O3: the four bytes are the value's digits to base 256. -/
theorem fieldAssembly : Obligations.FieldAssembly :=
  fun b0 b1 b2 b3 => ⟨le32_toNat b0 b1 b2 b3, le32Bytes_le32 b0 b1 b2 b3⟩

/-- In a sequence of four-byte fields, field number `k` stands at offset 4k. -/
theorem take_drop_flatMap_four {bs : List Byte} {f : Byte → List Byte} (h : ∀ b, (f b).length = 4) {k : Nat} (hk : k < bs.length) :
    ((bs.flatMap f).drop (4 * k)).take 4 = f bs[k] := by
  induction bs generalizing k with
  | nil => cases hk
  | cons b bs ih =>
    cases k with
    | zero => exact List.take_left' (h b)
    | succ k =>
      rw [List.flatMap_cons, Nat.mul_succ, Nat.add_comm, ← List.drop_drop, List.drop_left' (h b)]
      exact ih (Nat.lt_of_succ_lt_succ hk)

theorem toNat_lt_symbols_length (b : Byte) : b.toNat < symbols.length := symbols_length ▸ b.isLt

/-- The symbols stand in ascending order, so each is its own position. -/
theorem getElem_symbols (b : Byte) : symbols[b.toNat]'(toNat_lt_symbols_length b) = b := by
  simp [symbols]

/-- The counts start behind the eight bytes of magic and TOTAL (R50). -/
theorem headerBytes_drop_eight (s : State) : (headerBytes s).drop 8 = symbols.flatMap fun b => le32Bytes (s.freqAt b) := rfl

/-- Settles O6: the first fields by their lengths, the counts as a sequence of four-byte fields in the symbols' order. -/
theorem headerLayout : Obligations.HeaderLayout := by
  refine fun s => ⟨headerBytes_length s, rfl, rfl, fun b => ?_⟩
  rw [← List.drop_drop, headerBytes_drop_eight, take_drop_flatMap_four (fun b => le32Bytes_length (s.freqAt b)) (toNat_lt_symbols_length b),
    getElem_symbols]

end Sys2Proof.Machine
end

section
/-! The payload (30_encoding.md R52, R53, 44_encoder.md R90): which digits each byte packs. -/

namespace Sys2Proof.Machine

/-- The digits and the padding up to a whole number of bytes. -/
def padDigits (ds : List Digit) : List Digit := ds ++ List.replicate (8 * ((ds.length + 7) / 8) - ds.length) Config.pad

theorem padDigits_length (ds : List Digit) : (padDigits ds).length = 8 * ((ds.length + 7) / 8) := by
  rw [padDigits, List.length_append, List.length_replicate]
  omega

/-- A padding digit is 0, as is what `getD` gives behind the end (R90). -/
theorem getD_padDigits (ds : List Digit) (n : Nat) : (padDigits ds).getD n false = ds.getD n false := by
  by_cases hn : n < ds.length
  · exact List.getD_append _ _ _ _ hn
  · have hn := Nat.le_of_not_lt hn
    rw [padDigits, List.getD_append_right _ _ _ _ hn, List.getD_eq_getElem?_getD, List.getElem?_getD_replicate_default_eq,
      List.getD_eq_default _ _ hn]

theorem getD_payload {ds : List Digit} {k : Nat} (hk : k < (ds.length + 7) / 8) :
    (payload ds).getD k 0 = byteMsb (((padDigits ds).drop (8 * k)).take 8) := by
  simp [payload, padDigits, hk]

/-- Settles O5: byte `n / 8` packs the padded digits from `8 * (n / 8)` on, and digit `n` is number `n % 8` of them. -/
theorem payloadLayout : Obligations.PayloadLayout := by
  refine fun ds => ⟨payload_length ds, fun n hn => ?_⟩
  have hbyte : n / 8 < (ds.length + 7) / 8 := by omega
  have hgroup : (((padDigits ds).drop (8 * (n / 8))).take 8).length = 8 := by
    rw [List.length_take, List.length_drop, padDigits_length]
    omega
  have hmod : n % 8 < 8 := by omega
  calc ((payload ds).getD (n / 8) 0).getLsbD (7 - n % 8)
    _ = (((padDigits ds).drop (8 * (n / 8))).take 8).getD (n % 8) false := by rw [getD_payload hbyte, getLsbD_byteMsb hgroup hmod]
    _ = (padDigits ds).getD n false := by
      simp only [List.getD_eq_getElem?_getD, List.getElem?_take_of_lt hmod, List.getElem?_drop, Nat.div_add_mod]
    _ = ds.getD n false := getD_padDigits ds n

end Sys2Proof.Machine
end

section
/-! The script line PQ_INSERT w, t (30_encoding.md R56, R57) and the dispatch of a command word (47_codec.md R107). -/

namespace Sys2Proof.Machine

/-- In the normal state a command word executes its command's body (R107). -/
theorem commandWrite_encode (i : Instr) {s : State} (h : s.fault = false) : commandWrite (encode i) s = exec i s := by
  simp only [commandWrite, h, decode_encode, Bool.false_eq_true, if_false]

theorem step_write {s : State} {n : Nat} {v : Word} {rest : List Input} (h : s.inputs = .write n v :: rest) (hn : n ≠ 0) :
    step s = .next (hostWrite n v { s with inputs := rest }) :=
  (step_cons h).trans (takeInput_write hn v _)

theorem step_commandWrite {s : State} {w : Word} {rest : List Input} (h : s.inputs = .write 0 w :: rest) :
    step s = commandWrite w { s with inputs := rest } :=
  step_cons h

/-- Settles O15: two host writes that set the operands, then the dispatch. -/
theorem pqInsertScriptLine : Obligations.PqInsertScriptLine := by
  intro s w t rest hin hfault
  refine ⟨_, _, step_write hin (by decide), step_write rfl (by decide), ?_⟩
  exact (step_commandWrite rfl).trans (commandWrite_encode .pqInsert hfault)

end Sys2Proof.Machine
end

section
/-! COUNT (40_frequency_counter.md R64, R66): what counting a byte sequence from an empty table leaves in FREQ and TOTAL, and its whole
next state. -/

namespace Sys2Proof.Machine

/-- Every byte is exactly one of the symbols. -/
theorem sum_count_symbols (bs : List Byte) : (symbols.map fun b => bs.count b).sum = bs.length := by
  have hall : ∀ b ∈ (bs : Multiset Byte), b ∈ symbols.toFinset := fun b _ => List.mem_toFinset.mpr (mem_symbols b)
  rw [← List.sum_toFinset (fun b => bs.count b) symbols_nodup]
  simpa only [Multiset.coe_count, Multiset.coe_card] using Multiset.sum_count_eq_card hall

/-- From an empty table no count wraps around, for none exceeds the number of bytes. -/
theorem toNat_freqAt_countBytes {s : State} {bs : List Byte} (hs : s.freq = Vector.replicate 256 0)
    (hl : bs.length ≤ 4294967295) (b : Byte) : ((s.countBytes bs).freqAt b).toNat = bs.count b := by
  have hle : bs.count b ≤ bs.length := List.count_le_length
  rw [freqAt_countBytes, freqAt_clear s hs, BitVec.ofNat_eq_ofNat, BitVec.zero_add, BitVec.toNat_ofNat]
  exact Nat.mod_eq_of_lt (by omega)

theorem freqSum_countBytes {s : State} {bs : List Byte} (hs : s.freq = Vector.replicate 256 0) (hl : bs.length ≤ 4294967295) :
    (s.countBytes bs).freqSum = bs.length := by
  simp only [State.freqSum, toNat_freqAt_countBytes hs hl, sum_count_symbols]

theorem toNat_total_countBytes {s : State} {bs : List Byte} (hs : s.total = 0) (hl : bs.length ≤ 4294967295) :
    (s.countBytes bs).total.toNat = bs.length := by
  rw [countBytes_eq, hs, BitVec.ofNat_eq_ofNat, BitVec.zero_add, BitVec.toNat_ofNat]
  exact Nat.mod_eq_of_lt (by omega)

/-- The state COUNT leaves when every request is served (R64). -/
def State.counted (s : State) : State :=
  ((((s.clearEngine.appendPhase .counting).setPos 0).countBytes s.src.data).setPos s.src.data.length).setFreqValid

theorem exec_count_quiet {s : State} (h : Quiet s) (hl : s.src.data.length ≤ 4294967295) : exec .count s = .next s.counted :=
  congrArg Result.outcome (countBody_quiet s h hl)

theorem toNat_total_counted {s : State} (hl : s.src.data.length ≤ 4294967295) : s.counted.total.toNat = s.src.data.length :=
  toNat_total_countBytes rfl hl

theorem toNat_freqAt_counted {s : State} (hl : s.src.data.length ≤ 4294967295) (b : Byte) :
    (s.counted.freqAt b).toNat = s.src.data.count b :=
  toNat_freqAt_countBytes rfl hl b

theorem freqSum_counted {s : State} (hl : s.src.data.length ≤ 4294967295) : s.counted.freqSum = s.src.data.length :=
  freqSum_countBytes rfl hl

/-- COUNT's frame: ClearEngine, the notification, the source read to its end, and the flag (10_state.md R28). -/
theorem counted_eq (s : State) : s.counted = { s with
    freq := s.counted.freq, total := s.counted.total, freqValid := true, treeDone := false, codeValid := false
    ndist := 0, nnodes := 0, rootValid := false, rootIdx := 0, emitted := 0, pq := []
    node := Vector.replicate 511 (.leaf 0 0), code := Vector.replicate 256 []
    src := ⟨s.src.data, s.src.data.length⟩, obs := s.notified [1] } := by
  rw [State.counted, countBytes_eq]
  rfl

/-- Settles O28: the counted state, its table and its frame. -/
theorem countResult : Obligations.CountResult := by
  intro s hq hl
  have htotal := toNat_total_counted hl
  exact ⟨s.counted, exec_count_quiet hq hl, htotal, toNat_freqAt_counted hl, (freqSum_counted hl).trans htotal.symm, counted_eq s⟩

end Sys2Proof.Machine
end

section
/-! The queue commands from a given state (41_priority_queue.md R68 to R71): the next state in each case. -/

namespace Sys2Proof.Machine

variable {s : State}

/-- The tag is the low 9 bits of ARG1 (30_encoding.md R49). -/
theorem insertOperand_eq (s : State) : s.insertOperand = ⟨s.arg0, BitVec.ofNat 9 s.arg1.toNat⟩ := rfl

theorem exec_pqInsert_of_room (h : s.pq.length < Config.pqCap) :
    exec .pqInsert s = .next (s.setPq (insertItem s.insertOperand s.pq)) := by
  rw [exec, execPqInsert, pqInsert, if_pos h, Result.outcome]

/-- The operands the host writes for an item give that item back. -/
theorem insertOperand_of_item (it : Item) (s : State) :
    ({ s with arg0 := it.weight, arg1 := it.tag.setWidth 32 } : State).insertOperand = it := by
  rw [insertOperand_eq, BitVec.ofNat_toNat, BitVec.setWidth_setWidth_of_le it.tag (by decide), BitVec.setWidth_eq]

theorem exec_pqInsert_item (it : Item) (h : s.pq.length < Config.pqCap) :
    exec .pqInsert { s with arg0 := it.weight, arg1 := it.tag.setWidth 32 } =
      .next { s with arg0 := it.weight, arg1 := it.tag.setWidth 32, pq := insertItem it s.pq } := by
  rw [exec_pqInsert_of_room, insertOperand_of_item, State.setPq]
  exact h

theorem exec_pqInsert_of_full (h : Config.pqCap ≤ s.pq.length) : exec .pqInsert s = .next (s.enterFault .queueFull 0) := by
  rw [exec, execPqInsert, pqInsert, if_neg (Nat.not_lt_of_le h), raise, Result.outcome]

theorem exec_pqPopmin_cons {m : Item} {q : List Item} (h : s.pq = m :: q) :
    exec .pqPopmin s = .next ((s.setPq q).setResult m) := by
  rw [exec, execPqPopmin, pqPopMin, h]
  rfl

theorem exec_pqPopmin_nil (h : s.pq = []) : exec .pqPopmin s = .next (s.enterFault .emptyQueue 0) := by
  rw [exec, execPqPopmin, pqPopMin, h]
  rfl

theorem exec_pqPeekmin_cons {m : Item} {q : List Item} (h : s.pq = m :: q) : exec .pqPeekmin s = .next (s.setResult m) := by
  rw [exec, execPqPeekmin, pqPeekMin, h]
  rfl

theorem exec_pqPeekmin_nil (h : s.pq = []) : exec .pqPeekmin s = .next (s.enterFault .emptyQueue 0) := by
  rw [exec, execPqPeekmin, pqPeekMin, h]
  rfl

theorem exec_pqSize (s : State) : exec .pqSize s = .next (s.setSize s.pq.length) := rfl

/-- Settles O20: in a sorted queue the insert is the split at the new weight. -/
theorem pqInsertResult : Obligations.PqInsertResult := by
  refine ⟨decode_encode .pqInsert, fun s hsorted => ⟨fun hroom => ?_, exec_pqInsert_of_full⟩⟩
  rw [exec_pqInsert_of_room hroom, insertItem_sorted hsorted, insertOperand_eq, State.setPq]

/-- Settles O21: the front item is the result and leaves the queue. -/
theorem pqPopminResult : Obligations.PqPopminResult :=
  ⟨decode_encode .pqPopmin, fun _ => ⟨fun _ _ => exec_pqPopmin_cons, exec_pqPopmin_nil⟩⟩

/-- Settles O22: the front item is the result and stays. -/
theorem pqPeekminResult : Obligations.PqPeekminResult :=
  ⟨decode_encode .pqPeekmin, fun _ => ⟨fun _ _ => exec_pqPeekmin_cons, exec_pqPeekmin_nil⟩⟩

/-- Settles O23: a size within the bound of R21 is its own 32-bit value. -/
theorem pqSizeResult : Obligations.PqSizeResult := by
  refine ⟨decode_encode .pqSize, fun s hcap => ⟨BitVec.ofNat 32 s.pq.length, ?_, exec_pqSize s⟩⟩
  rw [BitVec.toNat_ofNat]
  exact Nat.mod_eq_of_lt (by omega)

end Sys2Proof.Machine
end

section
/-! Inserts, then pops (41_priority_queue.md R72): the queue after a run of inserts is the items in stable order, and a run of pops
reports the queue front first. -/

namespace Sys2Proof.Machine

/-- The queue after inserts of these items, in their order. -/
def insertItems (its : List Item) (q : List Item) : List Item := its.foldl (fun q it => insertItem it q) q

@[simp] theorem insertItems_nil (q : List Item) : insertItems [] q = q := rfl

@[simp] theorem insertItems_cons (it : Item) (its q : List Item) :
    insertItems (it :: its) q = insertItems its (insertItem it q) := rfl

theorem SortedQueue.insertItems (its : List Item) {q : List Item} (h : SortedQueue q) : SortedQueue (insertItems its q) := by
  induction its generalizing q with
  | nil => exact h
  | cons it its ih => exact ih (h.insertItem it)

theorem insertItems_perm (its q : List Item) : (insertItems its q).Perm (its ++ q) := by
  induction its generalizing q with
  | nil => exact List.Perm.refl q
  | cons it its ih =>
    have hinsert : (its ++ insertItem it q).Perm (its ++ it :: q) := (insertItem_perm it q).append_left its
    exact ((ih _).trans hinsert).trans List.perm_middle

/-- The items of one weight stand in the order of their insertion (R72). -/
theorem insertItems_filter_weight (its : List Item) {q : List Item} (h : SortedQueue q) (w : Word) :
    (insertItems its q).filter (fun x => decide (x.weight = w)) =
      q.filter (fun x => decide (x.weight = w)) ++ its.filter fun x => decide (x.weight = w) := by
  induction its generalizing q with
  | nil => exact (List.append_nil _).symm
  | cons it its ih =>
    rw [insertItems_cons, ih (h.insertItem it), insertItem_filter_weight h]
    by_cases hw : it.weight = w <;> simp [hw]

/-- While the items fit, every insert of a run succeeds. -/
theorem insertRun_of_room {its : List Item} {s : State} (h : s.pq.length + its.length ≤ Config.pqCap) :
    ∃ t, insertRun its s = .next t ∧ t.pq = insertItems its s.pq := by
  induction its generalizing s with
  | nil => exact ⟨s, rfl, rfl⟩
  | cons it its ih =>
    rw [List.length_cons] at h
    have hroom : s.pq.length < Config.pqCap := by omega
    rw [insertRun, exec_pqInsert_item it hroom]
    refine ih ?_
    rw [insertItem_length]
    omega

/-- Popping as often as there are items reports the whole queue in its order (R69). -/
theorem popRun_length {q : List Item} {s : State} (h : s.pq = q) :
    popRun q.length s = q.map fun it => (it.weight, it.tag.setWidth 32) := by
  induction q generalizing s with
  | nil => rfl
  | cons m q ih =>
    rw [List.length_cons, popRun, exec_pqPopmin_cons h, List.map_cons]
    exact congrArg _ (ih rfl)

/-- Settles O24: the inserts build the sorted queue, the pops report it. -/
theorem queueOrderLaw : Obligations.QueueOrderLaw := by
  intro s its hempty hcap
  have hnil : SortedQueue [] := List.Pairwise.nil
  have hperm : (insertItems its []).Perm its := by simpa using insertItems_perm its []
  obtain ⟨t, hrun, hpq⟩ := insertRun_of_room (its := its) (s := s) (by simpa [hempty] using hcap)
  rw [hempty] at hpq
  refine ⟨t, insertItems its [], hrun, ?_, hnil.insertItems its, hperm, insertItems_filter_weight its hnil⟩
  rw [← hperm.length_eq]
  exact popRun_length hpq

end Sys2Proof.Machine
end

section
/-! BUILD (42_tree_builder.md R76 to R80): its next state on a complete table, the tree it leaves there, and that it reads the counts alone. -/

namespace Sys2Proof.Machine

theorem exec_build_quiet {s : State} (hq : Quiet s) (hv : s.freqValid = true) (hsum : s.freqSum ≤ 4294967295) :
    ∃ t, exec .build s = .next t ∧ Built (s.appendPhase .buildingTree) t := by
  obtain ⟨t, hbody, hbuilt⟩ := buildBody_quiet s hq hv hsum
  exact ⟨t, congrArg Result.outcome hbody, hbuilt⟩

/-- The leaves stand in the order of the symbols present (R79). -/
theorem Built.nodeAt_of_present {s t : State} (h : Built s t) {j : Nat} {b : Byte} (hj : s.present[j]? = some b) :
    t.nodeAt (BitVec.ofNat 9 j) = .leaf b (s.freqAt b) := by
  obtain ⟨hlt, rfl⟩ := List.getElem?_eq_some_iff.mp hj
  exact h.leaves j hlt

/-- BUILD's frame: what seeding and merging write, and the notification. -/
theorem Built.eq_notified {s t : State} (h : Built (s.appendPhase .buildingTree) t) : t = { s with
    node := t.node, nnodes := t.nnodes, ndist := t.ndist, rootValid := t.rootValid, rootIdx := t.rootIdx
    code := Vector.replicate 256 [], pq := [], treeDone := true, codeValid := false
    obs := s.notified [2] } := by
  obtain ⟨_, _, _, _, _, rfl⟩ := h.frame
  rfl

/-- Settles O30: the parts of `Built`, for the state behind the notification. -/
theorem buildResult : Obligations.BuildResult := by
  intro s hq hv hsum
  obtain ⟨t, hexec, hbuilt⟩ := exec_build_quiet hq hv hsum
  exact ⟨t, hexec, hbuilt.tree, fun _ _ => hbuilt.nodeAt_of_present, hbuilt.free, hbuilt.eq_notified⟩

/-- Settles O31: the forest in queue and node store follows the merging of trees, and the notification leaves the table. -/
theorem buildMakesTheDescribedTree : Obligations.BuildMakesTheDescribedTree := by
  intro s hq hv hsum
  obtain ⟨t, hexec, hbuilt⟩ := exec_build_quiet hq hv hsum
  exact ⟨t, hexec, hbuilt.treeEq.trans (tableTree_congr rfl)⟩

/-- With the flag set and the notification served, BUILD comes to what its seeding and merging come to. -/
theorem exec_build_of_buildCore {s t : State} (hq : Quiet s) (hv : s.freqValid = true)
    (h : buildCore (s.appendPhase .buildingTree) = .done () t) : exec .build s = .next t := by
  have hbody : buildBody s = .done () t := by
    rw [buildBody_eq, requireFlags, hv, require_true, Result.andThen_done, notify_quiet hq, Result.andThen_done, h]
  exact congrArg Result.outcome hbody

theorem tree_buildPart (u s : State) : (u.buildPart s).tree = s.tree :=
  tree_congr (s := u.buildPart s) (t := s) rfl rfl rfl

theorem treeCode_buildPart (u s : State) (b : Byte) : (u.buildPart s).treeCode b = s.treeCode b :=
  treeCode_congr (s := u.buildPart s) (t := s) rfl rfl rfl b

/-- Settles O32: from equal counts the second run comes to its own state with the parts that the first run built. -/
theorem buildDeterministic : Obligations.BuildDeterministic := by
  intro s s' hq hq' hv hv' hfreq hsum
  obtain ⟨t, hcore, -⟩ := buildCore_spec (s.appendPhase .buildingTree) hsum
  have hcore' := buildCore_deterministic (s := s.appendPhase .buildingTree) (s' := s'.appendPhase .buildingTree) hfreq.symm hcore
  exact ⟨t, _, exec_build_of_buildCore hq hv hcore, exec_build_of_buildCore hq' hv' hcore', rfl, rfl, rfl, rfl, rfl,
    (tree_buildPart _ t).symm, fun b => (treeCode_buildPart _ t b).symm⟩

end Sys2Proof.Machine
end

section
/-! GENCODE (43_code_table.md R84 to R87): its next state on the tree of a table, and what the paths of that tree make of the codes. -/

namespace Sys2Proof.Machine

theorem exec_gencode_quiet {s : State} (hq : Quiet s) (hd : s.treeDone = true) (ht : TreeOfTable s) :
    ∃ t, exec .gencode s = .next t ∧ Generated (s.appendPhase .derivingCodes) t := by
  obtain ⟨t, hbody, hgen⟩ := gencodeBody_quiet s hq hd ht
  exact ⟨t, congrArg Result.outcome hbody, hgen⟩

/-- GENCODE's frame: the code table, and the notification. -/
theorem Generated.eq_notified {s t : State} (h : Generated (s.appendPhase .derivingCodes) t) :
    t = { s with code := t.code, codeValid := true, obs := s.notified [5] } := by
  obtain ⟨_, rfl⟩ := h.frame
  rfl

/-- Settles O33: the parts of `Generated`, for the state behind the notification, whose tree and counts are those before it. -/
theorem gencodeResult : Obligations.GencodeResult := by
  intro s hq hd ht
  obtain ⟨t, hexec, hgen⟩ := exec_gencode_quiet hq hd ht
  have htable : TreeOfTable (s.appendPhase .derivingCodes) := ht.congr rfl rfl rfl rfl rfl rfl
  have hcode : ∀ b, t.codeAt b = s.treeCode b := fun b =>
    (hgen.codeAt htable b).trans (treeCode_congr (s := s.appendPhase .derivingCodes) (t := s) rfl rfl rfl b)
  exact ⟨t, hexec, hcode, hgen.code_iff htable, hgen.eq_notified⟩

/-- In a single leaf there is no second symbol; in any other tree the codes are the paths (R86). -/
theorem Tree.codes_prefixFree {T : Tree} (hn : T.symbols.Nodup) {x y : Byte × List Digit} (hx : x ∈ T.codes) (hy : y ∈ T.codes)
    (hxy : x.1 ≠ y.1) : ¬ x.2 <+: y.2 := by
  cases T with
  | leaf b w =>
    obtain rfl := List.mem_singleton.mp hx
    obtain rfl := List.mem_singleton.mp hy
    exact absurd rfl hxy
  | internal w l r => exact Tree.leafPaths_prefixFree hn hx hy hxy

/-- The bound of R87 by the number of leaves. -/
theorem Tree.codes_length_le_leaves {T : Tree} {x : Byte × List Digit} (hx : x ∈ T.codes) :
    x.2.length ≤ max 1 (T.symbols.length - 1) := by
  cases T with
  | leaf b w =>
    obtain rfl := List.mem_singleton.mp hx
    exact Nat.le_max_left _ _
  | internal w l r =>
    have hpath := Tree.leafPaths_length (T := .internal w l r) hx
    exact (Nat.le_sub_of_add_le hpath).trans (Nat.le_max_right _ _)

/-- A tree with one symbol is a leaf, so its code is [0] (R84). -/
theorem Tree.codes_of_symbols_singleton {T : Tree} {b : Byte} (h : T.symbols = [b]) : T.codes = [(b, [false])] := by
  cases T with
  | leaf c w =>
    obtain rfl := List.singleton_inj.mp h
    rfl
  | internal w l r =>
    have hlen : l.symbols.length + r.symbols.length = 1 := by simpa [Tree.symbols] using congrArg List.length h
    have hl := l.symbols_ne_nil
    have hr := r.symbols_ne_nil
    omega

/-- The codes of a table with a symbol present are those of a tree over the symbols present. -/
theorem TreeOfTable.exists_tree {s : State} (h : TreeOfTable s) (hp : s.present ≠ []) :
    ∃ T : Tree, s.treeCodes = T.codes ∧ T.symbols.Perm s.present := by
  obtain ⟨-, -, hcons⟩ := h
  obtain ⟨-, -, -, T, hT, hperm, -⟩ := hcons hp
  exact ⟨T, by rw [State.treeCodes, hT], hperm⟩

section
variable {s : State} (h : Inv s) (hc : s.codeValid = true)
include h hc

/-- A built code table comes from the tree of the table (10_state.md R25). -/
theorem Inv.treeOfTable_of_codeValid : TreeOfTable s :=
  h.treeOfTable (h.flagOrder.1 hc)

theorem Inv.mem_present_of_code {b : Byte} (hb : s.codeAt b ≠ []) : b ∈ s.present :=
  (mem_present s b).mpr ((h.codeTable hc b).mp hb)

/-- The codes of a built code table are entries of its tree's code list, over the symbols present. -/
theorem Inv.exists_tree_codes (hp : s.present ≠ []) :
    ∃ T : Tree, T.symbols.Perm s.present ∧ ∀ b ∈ s.present, (b, s.codeAt b) ∈ T.codes := by
  have ht := h.treeOfTable_of_codeValid hc
  obtain ⟨T, hT, hperm⟩ := ht.exists_tree hp
  refine ⟨T, hperm, fun b hb => ?_⟩
  rw [h.codeOfTree hc, ← hT]
  exact ht.mem_treeCodes hb

theorem Inv.codes_prefixFree {b c : Byte} (hbc : b ≠ c) (hb : s.codeAt b ≠ []) (hc' : s.codeAt c ≠ []) :
    ¬ s.codeAt b <+: s.codeAt c := by
  have hbp := h.mem_present_of_code hc hb
  obtain ⟨T, hperm, hmem⟩ := h.exists_tree_codes hc (List.ne_nil_of_mem hbp)
  exact Tree.codes_prefixFree (hperm.nodup_iff.mpr (present_nodup s)) (hmem b hbp)
    (hmem c (h.mem_present_of_code hc hc')) hbc

theorem Inv.codeAt_of_single {b : Byte} (hp : s.present = [b]) : s.codeAt b = [false] := by
  obtain ⟨T, hperm, hmem⟩ := h.exists_tree_codes hc (by simp [hp])
  have hcode := hmem b (by simp [hp])
  rw [Tree.codes_of_symbols_singleton (List.perm_singleton.mp (hp ▸ hperm))] at hcode
  simpa using hcode

theorem Inv.codeAt_of_empty (hp : s.present = []) (b : Byte) : s.codeAt b = [] := by
  by_contra hb
  simpa [hp] using h.mem_present_of_code hc hb

/-- The number of leaves of the tree is NDIST (10_state.md R23). -/
theorem Inv.codeAt_length_le_ndist {b : Byte} (hb : b ∈ s.present) : (s.codeAt b).length ≤ max 1 (s.ndist.toNat - 1) := by
  obtain ⟨T, hperm, hmem⟩ := h.exists_tree_codes hc (List.ne_nil_of_mem hb)
  obtain ⟨hndist, -, -⟩ := h.treeOfTable_of_codeValid hc
  rw [hndist, ← hperm.length_eq]
  exact Tree.codes_length_le_leaves (hmem b hb)

end

/-- Settles O34: the codes are paths of one tree over the symbols present. -/
theorem codesArePrefixFree : Obligations.CodesArePrefixFree := fun _ h hc =>
  ⟨fun _ _ => h.codes_prefixFree hc, fun _ => h.codeAt_of_single hc, h.codeAt_of_empty hc⟩

/-- Settles O35: a present symbol has a code, kept within the code store, and a path is shorter than the number of leaves. -/
theorem codeLengths : Obligations.CodeLengths := fun s h hc b hb =>
  ⟨List.length_pos_iff.mpr ((h.codeTable hc b).mpr hb), h.codeLength b, h.codeAt_length_le_ndist hc ((mem_present s b).mpr hb)⟩

end Sys2Proof.Machine
end

section
/-! ENCODE (44_encoder.md R89, R91): its next state on the source that was counted. -/

namespace Sys2Proof.Machine

/-- The state ENCODE leaves when every request is served and every byte has a code (R89): the payload behind the old sink, the source
read to its end. -/
def State.encoded (s : State) : State :=
  ((s.appendPhase .writingPayload).appendBytes (payload (s.codesOf s.src.data))).setPos s.src.data.length

theorem exec_encode_quiet {s : State} (hq : Quiet s) (hv : s.freqValid = true) (hcv : s.codeValid = true)
    (hlen : s.src.data.length = s.total.toNat) (hcodes : ∀ b ∈ s.src.data, s.codeAt b ≠ []) :
    exec .encode s = .next s.encoded :=
  congrArg Result.outcome (encodeBody_quiet s hq hv hcv hcodes hlen)

/-- ENCODE's frame: the sink, the position, and the notification. -/
theorem encoded_eq (s : State) : s.encoded = { s with
    snk := s.snk ++ payload (s.codesOf s.src.data)
    src := ⟨s.src.data, s.src.data.length⟩
    obs := s.notified [4] } := rfl

/-- Settles O36: the encoded state and its frame. -/
theorem encodeResult : Obligations.EncodeResult := by
  intro s hq hv hcv hlen hcodes
  rw [exec_encode_quiet hq hv hcv hlen hcodes, encoded_eq]

end Sys2Proof.Machine
end

section
/-! DECODE (45_decoder.md R95 to R97): its next state on a payload that is whole, on one that ends early, and in a single-leaf tree with
a 1 bit. -/

namespace Sys2Proof.Machine

/-! ### Bytes decoded so far -/

/-- These bytes decoded, and `n` bytes of the source read (R95). -/
def State.decoded (bs : List Byte) (n : Nat) (s : State) : State := (s.emitAll bs).setPos (s.src.pos + n)

theorem decoded_nil_zero (s : State) : s.decoded [] 0 = s := by
  rw [State.decoded, emitAll_nil]
  rfl

theorem emitAll_decoded (as bs : List Byte) (n : Nat) (s : State) : (s.decoded as n).emitAll bs = s.decoded (as ++ bs) n :=
  congrArg (State.setPos (s.src.pos + n)) (emitAll_append as bs s)

theorem decoded_decoded (as bs : List Byte) (m n : Nat) (s : State) :
    (s.decoded as m).decoded bs n = s.decoded (as ++ bs) (m + n) := by
  rw [State.decoded, emitAll_decoded, State.decoded, State.decoded, State.setPos_src, Nat.add_assoc]
  rfl

theorem rest_decoded {s : State} {pl tail : List Byte} (bs : List Byte) (hr : s.rest = pl ++ tail) :
    (s.decoded bs pl.length).rest = tail := by
  calc s.src.data.drop (s.src.pos + pl.length)
    _ = s.rest.drop pl.length := (List.drop_drop ..).symm
    _ = tail := by rw [hr, List.drop_left]

theorem Awaits.decoded {s : State} {as bs : List Byte} (h : Awaits s (as ++ bs)) (n : Nat) : Awaits (s.decoded as n) bs := h.emitAll

/-- The state in which DECODE begins to read: behind its notification, with no byte decoded (R95). -/
def State.readingPayload (s : State) : State := (s.appendPhase .readingPayload).clearEmitted

/-- DECODE's frame: the sink, EMITTED, the position, and the notification. -/
theorem decoded_readingPayload (bs : List Byte) (n : Nat) (s : State) : s.readingPayload.decoded bs n = { s with
    snk := s.snk ++ bs
    emitted := BitVec.ofNat 32 bs.length
    src := ⟨s.src.data, s.src.pos + n⟩
    obs := s.notified [7] } := by
  have hcount : (0 : Word) + BitVec.ofNat 32 bs.length = BitVec.ofNat 32 bs.length := BitVec.zero_add _
  rw [← hcount]
  rfl

/-- DECODE's frame where it ends in a fault (60_exceptions.md R133). -/
theorem enterFault_decoded (e : Error) (info : Word) (bs : List Byte) (n : Nat) (s : State) :
    (s.readingPayload.decoded bs n).enterFault e info = { s with
      fault := true
      err := e.code
      errInfo := info
      snk := s.snk ++ bs
      emitted := BitVec.ofNat 32 bs.length
      src := ⟨s.src.data, s.src.pos + n⟩
      obs := s.notified [7] } :=
  congrArg (State.enterFault e info) (decoded_readingPayload bs n s)

/-! ### The payload of a tree's codes -/

/-- Settles O39: on a whole payload DECODE ends with all the bytes decoded. -/
theorem decodeResult : Obligations.DecodeResult := by
  intro s xs pl tail junk hq hv hd ht hx hl hb hj hr
  have hbody : decodeBody s = .done () (s.readingPayload.decoded xs pl.length) :=
    decodeBody_quiet s hq hv hd ht xs pl tail junk (fun b h => (mem_present s b).mpr (hx b h)) hl hb hj hr
  have hcount : BitVec.ofNat 32 xs.length = s.total := by rw [hl, BitVec.ofNat_toNat, BitVec.setWidth_eq]
  calc exec .decode s
    _ = .next (s.readingPayload.decoded xs pl.length) := congrArg Result.outcome hbody
    _ = _ := by rw [decoded_readingPayload, hcount]

/-- Settles O40: where the payload ends early DECODE faults with the bytes decoded whose codes fit. -/
theorem decodeTruncated : Obligations.DecodeTruncated := by
  intro s xs more hq hv hd ht hx hl hr hm
  obtain ⟨as, b, bs, hxs, hfit, hnext, hbody⟩ :=
    decodeBody_truncated s hq hv hd ht xs more (fun b h => (mem_present s b).mpr (hx b h)) hl hr hm
  refine ⟨as, b, bs, hxs, hfit, hnext, ?_⟩
  calc exec .decode s
    _ = .next ((s.readingPayload.decoded as s.rest.length).enterFault .malformedContainer 4) := congrArg Result.outcome hbody
    _ = _ := congrArg _ (enterFault_decoded ..)

/-! ### A 1 bit in a single-leaf tree -/

/-- A round of DECODE's outer loop with bytes still to come and one in the source (R95). -/
theorem decodeLoop_byte {root cur : NodeIdx} {s : State} {b : Byte} {tail ys : List Byte} (fuel : Nat) (hq : Quiet s)
    (hw : Awaits s ys) (hy : ys ≠ []) (hr : s.rest = b :: tail) :
    decodeLoop root (fuel + 1) cur s = (decodeBits root (bitsMsb b) cur (s.decoded [] 1)).andThen
      fun cur s => decodeLoop root fuel cur s := by
  rw [decodeLoop, if_pos (hw.lt hy), srcRead_quiet hq, rest_cons hr, State.decoded, emitAll_nil]
  rfl

/-- The digits of a byte whose first 1 bit is digit `k` (00_scope.md R7). -/
theorem bitsMsb_first_one {b : Byte} {k : Nat} (hk : k < 8) (hzero : ∀ j, j < k → b.getLsbD (7 - j) = false)
    (hone : b.getLsbD (7 - k) = true) : ∃ ds, bitsMsb b = List.replicate k false ++ true :: ds := by
  have hlen : k < (bitsMsb b).length := hk
  have hzeros : (bitsMsb b).take k = List.replicate k false := by
    refine List.ext_getElem? fun j => ?_
    by_cases hj : j < k
    · rw [List.getElem?_take_of_lt hj, getElem?_bitsMsb b (by omega), hzero j hj, List.getElem?_replicate_of_lt hj]
    · rw [List.getElem?_take_eq_none (by omega), List.getElem?_eq_none (by rw [List.length_replicate]; omega)]
  have hdigit : (bitsMsb b)[k] = true :=
    Option.some.inj ((List.getElem?_eq_getElem hlen).symm.trans ((getElem?_bitsMsb b hk).trans (congrArg some hone)))
  exact ⟨(bitsMsb b).drop (k + 1), by rw [← hzeros, ← hdigit, List.getElem_cons_drop, List.take_append_drop]⟩

section SingleLeaf
variable {root : NodeIdx} {sym : Byte} {w : Word} {s : State} {ys : List Byte}

/-- A 1 bit in a single-leaf tree (R96). -/
theorem decodeBits_leaf_one (hT : s.nodeAt root = .leaf sym w) (ds : List Digit) (cur : NodeIdx) :
    decodeBits root (true :: ds) cur s = .ended (s.enterFault .treeShape 0) := by
  rw [decodeBits, decodeBit, hT]
  rfl

variable (hq : Quiet s) (hT : s.nodeAt root = .leaf sym w) (hy : ys ≠ [])
include hq hT hy

/-- One byte for each 0 bit in a single-leaf tree (R96), short of the last of them. -/
theorem decodeBits_leaf_zeros {n : Nat} (ds : List Digit) (cur : NodeIdx) (hw : Awaits s (List.replicate n sym ++ ys)) :
    decodeBits root (List.replicate n false ++ ds) cur s = decodeBits root ds cur (s.emitAll (List.replicate n sym)) := by
  induction n generalizing s with
  | zero => exact congrArg (decodeBits root ds cur) (emitAll_nil s).symm
  | succ n ih =>
    have hw' : Awaits (s.emitAll [sym]) (List.replicate n sym ++ ys) := hw.emitAll (as := [sym])
    have hmore : ¬ (s.emitAll [sym]).emitted = (s.emitAll [sym]).total := fun h =>
      hy (List.append_eq_nil_iff.mp (hw'.finished.mp h)).2
    have hbit : decodeBit root false cur s = .done cur (s.emitAll [sym]) := by
      rw [decodeBit, hT]
      exact congrArg (·.andThen fun _ s => .done cur s) (emit_quiet sym s hq)
    calc decodeBits root (List.replicate (n + 1) false ++ ds) cur s
      _ = decodeBits root (List.replicate n false ++ ds) cur (s.emitAll [sym]) := by
        rw [List.replicate_succ, List.cons_append, decodeBits, hbit, Result.andThen_done, if_neg hmore]
      _ = decodeBits root ds cur ((s.emitAll [sym]).emitAll (List.replicate n sym)) := ih (s := s.emitAll [sym]) hq hT hw'
      _ = decodeBits root ds cur (s.emitAll (List.replicate (n + 1) sym)) := by rw [emitAll_cons, List.replicate_succ]

/-- A round of the outer loop on a byte that begins with `k` bits 0, in a single-leaf tree (R96). -/
theorem decodeLoop_leaf_byte {k : Nat} {b : Byte} {ds : List Digit} {tail : List Byte} (fuel : Nat) (cur : NodeIdx)
    (hw : Awaits s (List.replicate k sym ++ ys)) (hr : s.rest = b :: tail) (hb : bitsMsb b = List.replicate k false ++ ds) :
    decodeLoop root (fuel + 1) cur s = (decodeBits root ds cur (s.decoded (List.replicate k sym) 1)).andThen
      fun cur s => decodeLoop root fuel cur s := by
  have hw' : Awaits (s.decoded [] 1) (List.replicate k sym ++ ys) := hw.decoded (as := []) 1
  rw [decodeLoop_byte fuel hq hw (List.append_ne_nil_of_right_ne_nil _ hy) hr, hb,
    decodeBits_leaf_zeros (s := s.decoded [] 1) hq hT hy ds cur hw', emitAll_decoded, List.nil_append]

/-- Bytes 0 in a single-leaf tree: eight decoded bytes for each (R96). -/
theorem decodeLoop_leaf_zeros {m : Nat} {tail : List Byte} (fuel : Nat) (cur : NodeIdx)
    (hw : Awaits s (List.replicate (8 * m) sym ++ ys)) (hr : s.rest = List.replicate m 0 ++ tail) :
    decodeLoop root (m + fuel) cur s = decodeLoop root fuel cur (s.decoded (List.replicate (8 * m) sym) m) := by
  induction m generalizing s with
  | zero => rw [Nat.zero_add, Nat.mul_zero, List.replicate_zero, decoded_nil_zero]
  | succ m ih =>
    have hsplit : List.replicate (8 * (m + 1)) sym = List.replicate 8 sym ++ List.replicate (8 * m) sym := by
      rw [Nat.mul_succ, Nat.add_comm, List.replicate_add]
    rw [hsplit, List.append_assoc] at hw
    calc decodeLoop root (m + 1 + fuel) cur s
      _ = decodeLoop root (m + fuel + 1) cur s := by rw [Nat.add_right_comm]
      _ = decodeLoop root (m + fuel) cur (s.decoded (List.replicate 8 sym) 1) :=
        decodeLoop_leaf_byte (ds := []) hq hT (List.append_ne_nil_of_right_ne_nil _ hy) (m + fuel) cur hw hr rfl
      _ = decodeLoop root fuel cur ((s.decoded (List.replicate 8 sym) 1).decoded (List.replicate (8 * m) sym) m) :=
        ih (s := s.decoded (List.replicate 8 sym) 1) hq hT (hw.decoded 1) (rest_decoded (pl := [0]) _ hr)
      _ = decodeLoop root fuel cur (s.decoded (List.replicate (8 * (m + 1)) sym) (m + 1)) := by
        rw [decoded_decoded, hsplit, Nat.add_comm 1]

/-- In a single-leaf tree the first 1 bit, behind `m` bytes 0 and `k` bits 0, ends DECODE with TreeShapeError (R96). -/
theorem decodeLoop_leaf_one {m k : Nat} {b : Byte} {ds : List Digit} {tail : List Byte} (fuel : Nat) (cur : NodeIdx)
    (hw : Awaits s (List.replicate (8 * m + k) sym ++ ys)) (hr : s.rest = List.replicate m 0 ++ b :: tail)
    (hb : bitsMsb b = List.replicate k false ++ true :: ds) :
    decodeLoop root (m + (fuel + 1)) cur s =
      .ended ((s.decoded (List.replicate (8 * m + k) sym) (m + 1)).enterFault .treeShape 0) := by
  rw [List.replicate_add, List.append_assoc] at hw
  have hr' : (s.decoded (List.replicate (8 * m) sym) m).rest = b :: tail := by
    simpa only [List.length_replicate] using rest_decoded (List.replicate (8 * m) sym) hr
  rw [decodeLoop_leaf_zeros hq hT (List.append_ne_nil_of_right_ne_nil _ hy) _ cur hw hr,
    decodeLoop_leaf_byte (s := s.decoded (List.replicate (8 * m) sym) m) hq hT hy fuel cur (hw.decoded m) hr' hb,
    decoded_decoded, ← List.replicate_add,
    decodeBits_leaf_one (s := s.decoded (List.replicate (8 * m + k) sym) (m + 1)) hT, Result.andThen_ended]

end SingleLeaf

/-- Settles O41: up to the 1 bit every bit decodes a byte, and bytes are still to come. -/
theorem decodeSingleLeafOneBit : Obligations.DecodeSingleLeafOneBit := by
  intro s sym b w m k tail hq hv hd hT hr hk hzero hone hlt
  obtain ⟨ds, hb⟩ := bitsMsb_first_one hk hzero hone
  have hw : Awaits s.readingPayload
      (List.replicate (8 * m + k) sym ++ List.replicate (s.total.toNat - (8 * m + k)) sym) := by
    show 0 + _ = s.total.toNat
    rw [List.length_append, List.length_replicate, List.length_replicate]
    omega
  have hmore : List.replicate (s.total.toNat - (8 * m + k)) sym ≠ [] :=
    List.ne_nil_of_length_pos (by rw [List.length_replicate]; omega)
  have hfuel : s.remaining + 1 = m + (tail.length + 1 + 1) := by
    rw [← rest_length, hr, List.length_append, List.length_replicate, List.length_cons]
    omega
  have hbody : decodeBody s =
      .ended ((s.readingPayload.decoded (List.replicate (8 * m + k) sym) (m + 1)).enterFault .treeShape 0) := by
    rw [decodeBody_start s hq hv hd, if_pos (by omega), hfuel]
    exact decodeLoop_leaf_one (s := s.readingPayload) hq hT hmore _ s.rootIdx hw hr hb
  calc exec .decode s
    _ = .next ((s.readingPayload.decoded (List.replicate (8 * m + k) sym) (m + 1)).enterFault .treeShape 0) :=
      congrArg Result.outcome hbody
    _ = _ := by
      rw [enterFault_decoded, List.length_replicate]
      rfl

end Sys2Proof.Machine
end

section
/-! WRHDR and RDHDR (46_container.md R102 to R106): their next states, RDHDR's on a header, on four wrong bytes and on a source that ends
inside the header. -/

namespace Sys2Proof.Machine

/-- Settles O42: the header's bytes behind the old sink, and their number. -/
theorem wrhdrResult : Obligations.WrhdrResult := fun s hq hv =>
  ⟨headerBytes_length s, congrArg Result.outcome (wrhdrBody_quiet s hq hv)⟩

/-! ### What RDHDR has done up to a point -/

/-- The state in which RDHDR begins to read: the engine cleared, behind its notification (R103). -/
def State.readingHeader (s : State) : State := s.clearEngine.appendPhase .readingHeader

/-- RDHDR with the source read up to position `n`, TOTAL and FREQ holding what it has read of them (R103). -/
def State.tableRead (f : Vector Word 256) (w : Word) (n : Nat) (s : State) : State :=
  ((s.readingHeader.setTotal w).withFreq f).setPos n

/-- The position after the magic is overwritten by the reads behind it. -/
theorem tableRead_of_magic (f : Vector Word 256) (w : Word) (m n : Nat) (s : State) :
    (((s.readingHeader.setPos m).setTotal w).withFreq f).setPos n = s.tableRead f w n := rfl

/-- RDHDR's frame where it ends in MalformedContainerError (60_exceptions.md R125, R133). -/
theorem enterFault_tableRead (info : Word) (f : Vector Word 256) (w : Word) (n : Nat) (s : State) :
    (s.tableRead f w n).enterFault .malformedContainer info = { s with
      fault := true, err := 4, errInfo := info
      freq := f, total := w, freqValid := false, treeDone := false, codeValid := false
      ndist := 0, nnodes := 0, rootValid := false, rootIdx := 0, emitted := 0, pq := []
      node := Vector.replicate 511 (.leaf 0 0), code := Vector.replicate 256 []
      src := ⟨s.src.data, n⟩, obs := s.notified [6] } := rfl

/-- RDHDR's frame where it succeeds. -/
theorem headerRead_eq (s h : State) : s.headerRead h = { s with
    freq := h.freq, total := h.total, freqValid := true, treeDone := false, codeValid := false
    ndist := 0, nnodes := 0, rootValid := false, rootIdx := 0, emitted := 0, pq := []
    node := Vector.replicate 511 (.leaf 0 0), code := Vector.replicate 256 []
    src := ⟨s.src.data, s.src.pos + 1032⟩, obs := s.notified [6] } := rfl

/-- Settles O43: the header read back and its frame. -/
theorem rdhdrResult : Obligations.RdhdrResult := by
  intro s h tail hq hr hsum
  calc exec .rdhdr s
    _ = .next (s.headerRead h) := congrArg Result.outcome (rdhdrBody_quiet s h tail hq hr hsum)
    _ = _ := congrArg _ (headerRead_eq s h)

/-! ### The length and the counts -/

/-- RDHDR's reads behind the magic: the length into TOTAL, then the counts (R103). -/
def readTable (s : State) : Result Unit := (readField s).andThen fun l s => readCounts symbols (s.setTotal (le32 l))

theorem readTable_header {s h : State} {tail : List Byte} (hq : Quiet s)
    (hr : s.rest = le32Bytes h.total ++ (symbols.flatMap (fun b => le32Bytes (h.freqAt b)) ++ tail)) :
    readTable s = .done () (((s.setTotal h.total).withFreq h.freq).setPos (s.src.pos + 1028)) := by
  obtain ⟨hfield, hrest⟩ := readField_eq s hq _ _ (le32Bytes_length _) hr
  rw [readTable, hfield, Result.andThen_done, le32_le32Bytes,
    readCounts_table h ((s.setPos (s.src.pos + 4)).setTotal h.total) tail hq hrest]
  rfl

/-! ### A source that ends early -/

/-- A multi-byte read that the source is too short for consumes the bytes that are there (00_scope.md R8). -/
theorem srcReadN_eos {n : Nat} {s : State} (hq : Quiet s) (hpos : s.src.pos ≤ s.src.data.length)
    (hn : s.src.data.length < s.src.pos + n) : srcReadN n s = .done none (s.setPos s.src.data.length) := by
  induction n generalizing s with
  | zero => omega
  | succ n ih =>
    rw [srcReadN, srcRead_quiet hq]
    by_cases hlt : s.src.pos < s.src.data.length
    · have hnext : srcReadN n (s.setPos (s.src.pos + 1)) = .done none (s.setPos s.src.data.length) :=
        ih (s := s.setPos (s.src.pos + 1)) hq hlt (show s.src.data.length < s.src.pos + 1 + n by omega)
      rw [List.getElem?_eq_getElem hlt]
      simp only [Result.andThen_done, hnext, Option.map_none]
    · have hend : s.setPos s.src.data.length = s := by
        rw [show s.src.data.length = s.src.pos by omega]
        rfl
      rw [List.getElem?_eq_none (by omega), hend]
      rfl

/-- Truncated header (R103). -/
theorem readField_short {s : State} (hq : Quiet s) (hpos : s.src.pos ≤ s.src.data.length)
    (hn : s.src.data.length < s.src.pos + 4) :
    readField s = .ended ((s.setPos s.src.data.length).enterFault .malformedContainer 2) := by
  rw [readField, srcReadN_eos hq hpos hn]
  rfl

/-- The counts read before the source ends are in FREQ. -/
theorem readCounts_short {bs : List Byte} {s : State} (hq : Quiet s) (hpos : s.src.pos ≤ s.src.data.length)
    (hn : s.src.data.length < s.src.pos + 4 * bs.length) :
    ∃ f, readCounts bs s = .ended (((s.withFreq f).setPos s.src.data.length).enterFault .malformedContainer 2) := by
  induction bs generalizing s with
  | nil => rw [List.length_nil] at hn; omega
  | cons b bs ih =>
    rw [List.length_cons] at hn
    rw [readCounts]
    by_cases h4 : s.src.pos + 4 ≤ s.src.data.length
    · rw [readField_quiet s hq h4, Result.andThen_done]
      exact ih (s := (s.setPos (s.src.pos + 4)).setFreq b _) hq h4
        (show s.src.data.length < s.src.pos + 4 + 4 * bs.length by omega)
    · rw [readField_short hq hpos (by omega)]
      exact ⟨s.freq, rfl⟩

theorem readTable_short {s : State} (hq : Quiet s) (hpos : s.src.pos ≤ s.src.data.length)
    (hn : s.src.data.length < s.src.pos + 1028) :
    ∃ f w, readTable s =
      .ended ((((s.setTotal w).withFreq f).setPos s.src.data.length).enterFault .malformedContainer 2) := by
  rw [readTable]
  by_cases h4 : s.src.pos + 4 ≤ s.src.data.length
  · rw [readField_quiet s hq h4, Result.andThen_done]
    generalize le32 _ = w
    have hcounts : s.src.data.length < s.src.pos + 4 + 4 * symbols.length := by rw [symbols_length]; omega
    obtain ⟨f, hf⟩ := readCounts_short (s := (s.setPos (s.src.pos + 4)).setTotal w) hq h4 hcounts
    exact ⟨f, w, hf⟩
  · rw [readField_short hq hpos (by omega)]
    exact ⟨s.freq, s.total, rfl⟩

/-! ### The magic -/

theorem rdhdrBody_start {s : State} (hq : Quiet s) :
    rdhdrBody s = (readField s.readingHeader).andThen fun m s =>
      (require (decide (m = Config.magic)) .malformedContainer 1 s).andThen fun _ s =>
      (readTable s).andThen fun _ s =>
      (require (decide (s.freqSum = s.total.toNat)) .malformedContainer 3 s).andThen fun _ s => .done () s.setFreqValid := by
  simp only [readTable, Result.andThen_assoc]
  rw [rdhdrBody, notify_quiet (show Quiet s.clearEngine from hq)]
  rfl

theorem readField_readingHeader {s : State} (hq : Quiet s) (h4 : 4 ≤ s.rest.length) :
    readField s.readingHeader = .done (s.rest.take 4) (s.readingHeader.setPos (s.src.pos + 4)) := by
  rw [rest_length, State.remaining] at h4
  exact readField_quiet s.readingHeader hq (show s.src.pos + 4 ≤ s.src.data.length by omega)

theorem rdhdrBody_magic {s : State} (hq : Quiet s) (h4 : 4 ≤ s.rest.length) (hm : s.rest.take 4 = Config.magic) :
    rdhdrBody s = (readTable (s.readingHeader.setPos (s.src.pos + 4))).andThen fun _ s =>
      (require (decide (s.freqSum = s.total.toNat)) .malformedContainer 3 s).andThen fun _ s => .done () s.setFreqValid := by
  rw [rdhdrBody_start hq, readField_readingHeader hq h4, Result.andThen_done, decide_eq_true hm, require_true,
    Result.andThen_done]

/-- A header is read to its end before the sum is checked (R103, R104). -/
theorem rdhdrBody_header {s h : State} {tail : List Byte} (hq : Quiet s) (hr : s.rest = headerBytes h ++ tail) :
    rdhdrBody s =
      (require (decide (h.freqSum = h.total.toNat)) .malformedContainer 3
        (s.tableRead h.freq h.total (s.src.pos + 1032))).andThen fun _ s => .done () s.setFreqValid := by
  have hfields : s.rest = Config.magic ++
      (le32Bytes h.total ++ (symbols.flatMap (fun b => le32Bytes (h.freqAt b)) ++ tail)) := by
    rw [hr, headerBytes, List.append_assoc, List.append_assoc]
  have h4 : 4 ≤ s.rest.length := by
    rw [hfields]
    exact List.length_append ▸ Nat.le_add_right 4 _
  have hrest : (s.readingHeader.setPos (s.src.pos + 4)).rest = s.rest.drop 4 := List.drop_drop.symm
  have hend : (s.readingHeader.setPos (s.src.pos + 4)).src.pos + 1028 = s.src.pos + 1032 := Nat.add_assoc s.src.pos 4 1028
  have htable := readTable_header (s := s.readingHeader.setPos (s.src.pos + 4)) (h := h) (tail := tail) hq (by
    rw [hrest, hfields]; exact List.drop_left' rfl)
  rw [rdhdrBody_magic hq h4 (by rw [hfields]; exact List.take_left' rfl), htable, Result.andThen_done, hend,
    tableRead_of_magic]
  rfl

/-- Settles O44: the sum is checked behind the last count, and fails. -/
theorem rdhdrSumMismatch : Obligations.RdhdrSumMismatch := by
  intro s h tail hq hr hsum
  have hbody : rdhdrBody s =
      .ended ((s.tableRead h.freq h.total (s.src.pos + 1032)).enterFault .malformedContainer 3) := by
    rw [rdhdrBody_header hq hr, decide_eq_false hsum, require_false, Result.andThen_ended]
  calc exec .rdhdr s
    _ = .next ((s.tableRead h.freq h.total (s.src.pos + 1032)).enterFault .malformedContainer 3) := congrArg Result.outcome hbody
    _ = _ := congrArg _ (enterFault_tableRead ..)

/-- Settles O45: the magic is checked behind the fourth byte, and fails. -/
theorem rdhdrBadMagic : Obligations.RdhdrBadMagic := by
  intro s hq h4 hm
  have hbody : rdhdrBody s =
      .ended ((s.tableRead (Vector.replicate 256 0) 0 (s.src.pos + 4)).enterFault .malformedContainer 1) := by
    rw [rdhdrBody_start hq, readField_readingHeader hq h4, Result.andThen_done,
      decide_eq_false (show ¬ s.rest.take 4 = Config.magic from hm)]
    rfl
  calc exec .rdhdr s
    _ = .next ((s.tableRead (Vector.replicate 256 0) 0 (s.src.pos + 4)).enterFault .malformedContainer 1) :=
      congrArg Result.outcome hbody
    _ = _ := congrArg _ (enterFault_tableRead ..)

/-- A source that ends inside the header ends RDHDR in the magic, or behind it in the length or the counts (R103). -/
theorem rdhdrBody_short {s : State} (hq : Quiet s) (hpos : s.src.pos ≤ s.src.data.length) (hlen : s.rest.length < 1032)
    (hm : 4 ≤ s.rest.length → s.rest.take 4 = Config.magic) :
    ∃ f w, rdhdrBody s = .ended ((s.tableRead f w s.src.data.length).enterFault .malformedContainer 2) := by
  have hrem : s.rest.length = s.src.data.length - s.src.pos := rest_length s
  by_cases h4 : 4 ≤ s.rest.length
  · obtain ⟨f, w, htable⟩ := readTable_short (s := s.readingHeader.setPos (s.src.pos + 4)) hq
      (show s.src.pos + 4 ≤ s.src.data.length by omega) (show s.src.data.length < s.src.pos + 4 + 1028 by omega)
    refine ⟨f, w, ?_⟩
    rw [rdhdrBody_magic hq h4 (hm h4), htable, tableRead_of_magic]
    rfl
  · have hfield := readField_short (s := s.readingHeader) hq hpos (show s.src.data.length < s.src.pos + 4 by omega)
    refine ⟨Vector.replicate 256 0, 0, ?_⟩
    rw [rdhdrBody_start hq, hfield]
    rfl

/-- Settles O46: whichever field the source ends in, RDHDR leaves it at its end with the counts read so far. -/
theorem rdhdrTruncated : Obligations.RdhdrTruncated := by
  intro s hq hpos hlen hm
  obtain ⟨f, w, hbody⟩ := rdhdrBody_short hq hpos hlen hm
  exact ⟨_, congrArg Result.outcome hbody, enterFault_tableRead ..⟩

end Sys2Proof.Machine
end

section
/-! Where WRHDR, ENCODE and DECODE store in the sink (44_encoder.md R89, 45_decoder.md R95, 46_container.md R102, 60_exceptions.md R135), in
every environment. -/

namespace Sys2Proof.Machine

variable {s t : State} {N : Nat}

/-- A first piece whose end is known, and then one that may have no end. -/
theorem Result.Ends.andThen_all {α β : Type} {D : α → State → Prop} {P : State → Prop} {r : Result α}
    {k : α → State → Result β} (hr : r.Ends D P) (hk : ∀ a s, D a s → (k a s).All P) : (r.andThen k).All P := by
  cases r with
  | done a s => exact hk a s hr.out
  | ended s => exact ⟨hr.out⟩
  | stuck f => exact hr.out.elim

/-- What a body has at either end, the next state has. -/
theorem Result.Ends.of_next {P : State → Prop} {r : Result Unit} (hr : r.Ends (fun _ t => P t) P) (h : r.outcome = .next t) : P t := by
  obtain ⟨u, hu, hP⟩ := hr.next
  cases hu.symm.trans h
  exact hP.elim id id

/-! ### The number of bytes DECODE writes -/

/-- The length the sink has when TOTAL more bytes are written. -/
def State.fullSink (s : State) : Nat := s.snk.length + s.total.toNat

/-- DECODE has bytes to write or is done, and the sink will not be longer than `N` when it is (R95). -/
def SinkFits (N : Nat) (s : State) : Prop := s.emitted.toNat ≤ s.total.toNat ∧ s.fullSink ≤ N + s.emitted.toNat

theorem SinkFits.length_le (h : SinkFits N s) : s.snk.length ≤ N := by
  obtain ⟨hle, hfit⟩ := h
  rw [State.fullSink] at hfit
  omega

/-- A hardware reset clears TOTAL and EMITTED and leaves the sink (70_reset_and_hazards.md R150). -/
theorem SinkFits.resetBlock (h : SinkFits N s) : SinkFits N s.dropAnswer.resetBlock := ⟨Nat.le_refl 0, h.length_le⟩

theorem SinkFits.cutShort {e : Error} (h : SinkFits N s) (ht : CutShort e s t) : SinkFits N t := by
  obtain ⟨c, rfl⟩ | rfl := ht
  · exact h
  · exact h.resetBlock

/-- With a byte still to come, one more written and counted fits. -/
theorem SinkFits.emitted (h : SinkFits N s) (hlt : s.emitted.toNat < s.total.toNat) (b : Byte) :
    SinkFits N (s.dropAnswer.appendByte b).bumpEmitted := by
  obtain ⟨-, hfit⟩ := h
  have hcount : (s.emitted + 1).toNat = s.emitted.toNat + 1 := by
    have := s.total.isLt
    rw [BitVec.toNat_add, show (1 : Word).toNat = 1 from rfl, Nat.mod_eq_of_lt (by omega)]
  rw [State.fullSink] at hfit
  constructor
  · show (s.emitted + 1).toNat ≤ s.total.toNat
    omega
  · show (s.snk ++ [b]).length + s.total.toNat ≤ N + (s.emitted + 1).toNat
    rw [List.length_append, List.length_singleton]
    omega

theorem SinkFits.emit (h : SinkFits N s) (hlt : s.emitted.toNat < s.total.toNat) (b : Byte) : (emit b s).All (SinkFits N) := by
  refine ((snkWrite_ends b s).mono (fun _ _ ht => ht) fun _ ht => h.cutShort ht).andThen_all ?_
  rintro _ t rfl
  exact ⟨h.emitted hlt b⟩

theorem SinkFits.decodeBit (h : SinkFits N s) (hlt : s.emitted.toNat < s.total.toNat) (root : NodeIdx) (d : Digit) (cur : NodeIdx) :
    (decodeBit root d cur s).All (SinkFits N) := by
  unfold Machine.decodeBit
  split
  · cases d with
    | false => exact (h.emit hlt _).then fun _ _ ht => ⟨ht⟩
    | true => exact ⟨h⟩
  · split
    · exact (h.emit hlt _).then fun _ _ ht => ⟨ht⟩
    · exact ⟨h⟩

theorem SinkFits.decodeBits (h : SinkFits N s) (hlt : s.emitted.toNat < s.total.toNat) (root : NodeIdx) (ds : List Digit)
    (cur : NodeIdx) : (decodeBits root ds cur s).All (SinkFits N) := by
  induction ds generalizing s cur with
  | nil => exact ⟨h⟩
  | cons d ds ih =>
    refine (h.decodeBit hlt root d cur).then fun cur t ht => ?_
    split
    · exact ⟨ht⟩
    · next hne => exact ih ht (Nat.lt_of_le_of_ne ht.1 fun he => hne (BitVec.eq_of_toNat_eq he)) cur

theorem SinkFits.decodeLoop (h : SinkFits N s) (root : NodeIdx) (n : Nat) (cur : NodeIdx) :
    (decodeLoop root n cur s).All (SinkFits N) := by
  induction n generalizing s cur with
  | zero => exact ⟨trivial⟩
  | succ n ih =>
    unfold Machine.decodeLoop
    split
    · next hlt =>
      refine ((srcRead_ends s).mono (fun _ _ ht => ht) fun _ ht => h.cutShort ht).andThen_all fun r t ht => ?_
      obtain ⟨rfl, -, rfl⟩ | ⟨b, rfl, -, -, rfl⟩ := ht
      · exact ⟨h⟩
      · have hbits : SinkFits N (s.dropAnswer.setPos (s.src.pos + 1)) := h
        exact (hbits.decodeBits hlt root _ cur).then fun cur t ht => ih ht cur
    · exact ⟨h⟩

theorem SinkFits.clearEmitted (s : State) : SinkFits s.fullSink s.clearEmitted := ⟨Nat.zero_le _, Nat.le_refl _⟩

/-- DECODE writes at most TOTAL bytes (R95). -/
theorem decodeBody_snk_length (s : State) : (decodeBody s).All fun t => t.snk.length ≤ s.fullSink := by
  rw [decodeBody, requireFlags]
  cases s.freqValid && s.treeDone
  · exact ⟨Nat.le_add_right _ _⟩
  · rw [require_true, Result.andThen_done]
    refine ((notify_ends _ s).mono (fun _ _ ht => ht) fun t ht => ?_).andThen_all ?_
    · rw [ht]
      exact Nat.le_add_right _ _
    · rintro _ t rfl
      have hclear : SinkFits s.fullSink (s.dropAnswer.appendPhase .readingPayload).clearEmitted := .clearEmitted _
      dsimp only
      split
      · exact (hclear.decodeLoop _ _ _).mono fun _ ht => ht.length_le
      · exact ⟨hclear.length_le⟩

/-- Settles O58: what WRHDR and ENCODE append, and the growth and the greatest length of DECODE's sink. -/
theorem sinkStores : Obligations.SinkStores := by
  refine fun s t => ⟨(wrhdrBody_appended s).of_next, (encodeBody_appended s).of_next, fun he => ?_⟩
  obtain ⟨p, hp⟩ := (exec_streamsGrow he).snk
  have hlen : t.snk.length ≤ s.snk.length + s.total.toNat := (decodeBody_snk_length s).next he
  rw [← hp, List.length_append] at hlen
  exact ⟨p, hp.symm, Nat.le_of_add_le_add_left hlen⟩

end Sys2Proof.Machine
end

section
/-! The dispatch of a command word, NOP, and termination (47_codec.md R107, R108; 10_state.md R14). -/

namespace Sys2Proof.Machine

/-- Settles O7: a word that decodes to a command is that command's encoding. -/
theorem stepRunsDecodedCommand : Obligations.StepRunsDecodedCommand := by
  intro s w rest i hin hfault hdec
  obtain rfl := eq_encode_of_decode hdec
  exact (step_commandWrite hin).trans (commandWrite_encode i hfault)

/-- Settles O18: the word 0 is NOP's encoding, and NOP answers the state it is given. -/
theorem nopChangesNothing : Obligations.NopChangesNothing := ⟨decode_encode .nop, fun _ => rfl⟩

/-- Settles O54: every step and every command completes in a state with the invariant. -/
theorem everyStepCompletes : Obligations.EveryStepCompletes := fun _ h =>
  ⟨(step_completes h).imp fun _ ⟨hst, _⟩ => hst, fun i => (exec_completes i h).imp fun _ ⟨hex, _⟩ => hex⟩

end Sys2Proof.Machine
end

section
/-! COMPRESS (47_codec.md R110, R114): COUNT and WRHDR, then BUILD, GENCODE and ENCODE where there is a byte. -/

namespace Sys2Proof.Machine

/-- A notification joins the phase codes that are to come (30_encoding.md R55). -/
theorem notified_appendPhase (p : Phase) (codes : List Nat) (s : State) :
    (s.appendPhase p).notified codes = s.notified (p.code :: codes) := by
  simp only [State.notified, State.appendPhase]
  split
  · exact List.append_assoc s.obs [p.code] codes
  · rfl

/-! ### The header -/

/-- The header of an empty table: the magic, a zero length and 256 zero counts (30_encoding.md R50). -/
theorem headerBytes_clear {s : State} (ht : s.total = 0) (hf : s.freq = Vector.replicate 256 0) :
    headerBytes s = Config.magic ++ List.replicate 1028 0 := by
  have hzero : le32Bytes 0 = List.replicate 4 0 := rfl
  have hcounts : (symbols.flatMap fun _ => List.replicate 4 (0 : Byte)) = List.replicate 1024 0 :=
    List.eq_replicate_iff.mpr ⟨by rw [flatMap_length_four _ _ fun _ => rfl, symbols_length], by simp⟩
  simp only [headerBytes, ht, freqAt_clear s hf, hzero, hcounts, List.append_assoc, List.replicate_append_replicate]

/-- The state COMPRESS has come to when the header is written: COUNT's, and then WRHDR's (R110). -/
def State.headerWritten (s : State) : State := (s.counted.appendPhase .writingHeader).appendBytes (headerBytes s.counted)

theorem compressBody_headerWritten {s : State} (hq : Quiet s) (hl : s.src.data.length ≤ 4294967295) :
    compressBody s = if 0 < s.src.data.length then payloadBody s.headerWritten else .done () s.headerWritten := by
  have hcount : countBody s = .done () s.counted := countBody_quiet s hq hl
  have hqc : Quiet s.counted := by
    rw [counted_eq]
    exact hq
  have hheader : wrhdrBody s.counted = .done () s.headerWritten := wrhdrBody_quiet s.counted hqc rfl
  have htotal : s.headerWritten.total.toNat = s.src.data.length := toNat_total_counted hl
  rw [compressBody, hcount, Result.andThen_done, hheader, Result.andThen_done, htotal]

theorem freqAt_counted_pos {s : State} (hl : s.src.data.length ≤ 4294967295) {b : Byte} (hb : b ∈ s.src.data) :
    0 < (s.counted.freqAt b).toNat := by
  rw [toNat_freqAt_counted hl]
  exact List.count_pos_iff.mpr hb

theorem notified_counted (codes : List Nat) (s : State) : s.counted.notified codes = s.notified (1 :: codes) := by
  rw [counted_eq]
  exact notified_appendPhase .counting codes s

theorem notified_headerWritten (codes : List Nat) (s : State) : s.headerWritten.notified codes = s.notified (1 :: 3 :: codes) :=
  (notified_appendPhase .writingHeader codes s.counted).trans (notified_counted (3 :: codes) s)

theorem headerWritten_eq (s : State) : s.headerWritten = { s with
    freq := s.counted.freq, total := s.counted.total, freqValid := true, treeDone := false, codeValid := false
    ndist := 0, nnodes := 0, rootValid := false, rootIdx := 0, emitted := 0, pq := []
    node := Vector.replicate 511 (.leaf 0 0), code := Vector.replicate 256 []
    snk := s.snk ++ headerBytes s.counted
    src := ⟨s.src.data, s.src.data.length⟩, obs := s.notified [1, 3] } := by
  have hobs : s.counted.notified [3] = s.notified [1, 3] := notified_counted [3] s
  have hsnk : s.counted.snk = s.snk := by rw [counted_eq]
  calc s.headerWritten
    _ = { s.counted with snk := s.snk ++ headerBytes s.counted, obs := s.notified [1, 3] } := by
      rw [← hsnk, ← hobs]
      rfl
    _ = _ := by
      generalize headerBytes s.counted = bytes
      rw [counted_eq]

/-- Settles O48: the empty source's table is the empty table. -/
theorem compressEmpty : Obligations.CompressEmpty := by
  intro s hq hs
  have hlen : s.src.data.length = 0 := by rw [hs]; rfl
  have hbody := compressBody_headerWritten hq (by omega)
  rw [hlen, if_neg (by omega)] at hbody
  have hfreq : s.counted.freq = Vector.replicate 256 0 := by rw [State.counted, hs]; rfl
  have htotal : s.counted.total = 0 := by rw [State.counted, hs]; rfl
  calc exec .compress s
    _ = .next s.headerWritten := congrArg Result.outcome hbody
    _ = _ := by rw [headerWritten_eq, headerBytes_clear htotal hfreq, hfreq, htotal, hs, List.append_assoc]; rfl

/-! ### The payload -/

/-- Counts that add up to TOTAL are within the largest length (10_state.md R20). -/
theorem freqSum_le_maxLen {s : State} (h : s.freqSum = s.total.toNat) : s.freqSum ≤ Config.maxLen :=
  h ▸ Nat.le_pred_of_lt s.total.isLt

/-- What BUILD, GENCODE and ENCODE leave together, the payload of the table's codes in the sink (R110). -/
structure PayloadWritten (s t : State) : Prop where
  frame : ∃ nd nn dist rv ri cd, t = { s with
    node := nd, nnodes := nn, ndist := dist, rootValid := rv, rootIdx := ri, code := cd
    pq := [], treeDone := true, codeValid := true
    snk := s.snk ++ payload (s.src.data.flatMap s.tableCode)
    src := ⟨s.src.data, s.src.data.length⟩, obs := s.notified [2, 5, 4] }
  tree : TreeOfTable t
  treeEq : t.tree = s.tableTree
  codes : ∀ b, t.codeAt b = s.tableCode b

theorem payloadBody_quiet {s : State} (hq : Quiet s) (hv : s.freqValid = true) (hlen : s.src.data.length = s.total.toNat)
    (hsum : s.freqSum = s.total.toNat) (hx : ∀ b ∈ s.src.data, 0 < (s.freqAt b).toNat) :
    ∃ t, payloadBody s = .done () t ∧ PayloadWritten s t := by
  obtain ⟨t, hbuild, hbuilt⟩ := buildBody_quiet s hq hv (freqSum_le_maxLen hsum)
  have htree : t.tree = s.tableTree := hbuilt.treeEq.trans (tableTree_congr rfl)
  obtain ⟨nd, nn, dist, rv, ri, ht⟩ := hbuilt.frame
  obtain ⟨hqt, hvt, hdone, hlent, hxt⟩ : Quiet t ∧ t.freqValid = true ∧ t.treeDone = true ∧
      t.src.data.length = t.total.toNat ∧ ∀ b ∈ t.src.data, 0 < (t.freqAt b).toNat := by
    subst ht
    exact ⟨hq, hv, rfl, hlen, hx⟩
  obtain ⟨u, hgen, hgenerated⟩ := gencodeBody_quiet t hqt hdone hbuilt.tree
  have hbody : payloadBody s = encodeBody u := by rw [payloadBody, hbuild, Result.andThen_done, hgen, Result.andThen_done]
  have htable : TreeOfTable (t.appendPhase .derivingCodes) := hbuilt.tree.congr rfl rfl rfl rfl rfl rfl
  have hcodes : ∀ b, u.codeAt b = s.tableCode b := fun b =>
    calc u.codeAt b
      _ = (t.appendPhase .derivingCodes).treeCode b := hgenerated.codeAt htable b
      _ = t.treeCode b := treeCode_congr (s := t.appendPhase .derivingCodes) (t := t) rfl rfl rfl b
      _ = s.tableCode b := treeCode_of_tableTree htree b
  have hcoded := hgenerated.code_iff htable
  obtain ⟨cd, rfl⟩ := hgenerated.frame
  have hencode := encodeBody_quiet { t.appendPhase .derivingCodes with code := cd, codeValid := true } hqt hvt rfl
    (fun b hb => (hcoded b).mpr (hxt b hb)) hlent
  refine ⟨_, hbody.trans hencode, ⟨nd, nn, dist, rv, ri, cd, ?_⟩, htable.congr rfl rfl rfl rfl rfl rfl, ?_, hcodes⟩
  · have hobs : ((s.appendPhase .buildingTree).appendPhase .derivingCodes).notified [4] = s.notified [2, 5, 4] := by
      rw [notified_appendPhase, notified_appendPhase]
      rfl
    rw [← hobs, ← show State.codeAt _ = s.tableCode from funext hcodes]
    subst ht
    rfl
  · rw [← htree]
    exact tree_congr rfl rfl rfl

/-! ### The container -/

/-- COMPRESS on a source that is not empty: the payload written behind the header (R110). -/
theorem exec_compress_quiet {s : State} (hq : Quiet s) (hs : s.src.data ≠ []) (hl : s.src.data.length ≤ 4294967295) :
    ∃ t, exec .compress s = .next t ∧ PayloadWritten s.headerWritten t := by
  have hqh : Quiet s.headerWritten := by rw [headerWritten_eq]; exact hq
  have hdata : s.headerWritten.src.data = s.src.data := by rw [headerWritten_eq]
  have htotal : s.headerWritten.total.toNat = s.src.data.length := toNat_total_counted hl
  have hpresent : ∀ b ∈ s.headerWritten.src.data, 0 < (s.headerWritten.freqAt b).toNat := fun b hb => by
    rw [hdata] at hb
    exact freqAt_counted_pos hl hb
  obtain ⟨t, hbody, ht⟩ := payloadBody_quiet hqh rfl ((congrArg List.length hdata).trans htotal.symm)
    ((freqSum_counted hl).trans htotal.symm) hpresent
  have hcompress : compressBody s = .done () t := by
    rw [compressBody_headerWritten hq hl, if_pos (List.length_pos_iff.mpr hs), hbody]
  exact ⟨t, congrArg Result.outcome hcompress, ht⟩

theorem TreeOfTable.rootValid_of_present {s : State} (h : TreeOfTable s) {b : Byte} (hb : b ∈ s.present) : s.rootValid = true := by
  obtain ⟨-, -, hcons⟩ := h
  obtain ⟨hroot, -⟩ := hcons (List.ne_nil_of_mem hb)
  exact hroot

/-- Settles O47: COUNT's table, the tree and the codes made of it, and the frame. -/
theorem compressResult : Obligations.CompressResult := by
  intro s hq hs hl
  obtain ⟨t, hexec, ht⟩ := exec_compress_quiet hq hs hl
  obtain ⟨nd, nn, dist, rv, ri, cd, hframe⟩ := ht.frame
  have hfreq : t.freq = s.counted.freq := by rw [hframe]; rfl
  have htotal : t.total = s.counted.total := by rw [hframe]; rfl
  have hheader : headerBytes s.counted = headerBytes t := headerBytes_congr htotal.symm hfreq.symm
  have hcode : s.headerWritten.tableCode = t.tableCode := funext (tableCode_congr hfreq.symm)
  have hroot : t.rootValid = true := by
    obtain ⟨b, hb⟩ := List.exists_mem_of_ne_nil _ hs
    have hcount : 0 < (t.freqAt b).toNat := freqAt_congr hfreq b ▸ freqAt_counted_pos hl hb
    exact ht.tree.rootValid_of_present ((mem_present t b).mpr hcount)
  refine ⟨t, hexec, htotal ▸ toNat_total_counted hl, fun b => freqAt_congr hfreq b ▸ toNat_freqAt_counted hl b, ht.tree,
    ht.treeEq.trans (tableTree_congr hfreq.symm), fun b => (ht.codes b).trans (congrFun hcode b), ?_⟩
  rw [← hheader, ← hcode]
  generalize s.headerWritten.tableCode = code at hframe ⊢
  subst hframe
  obtain rfl : rv = true := hroot
  rw [notified_headerWritten, headerWritten_eq]

/-- The container of a byte sequence under a table: the header and the payload of the table's codes (30_encoding.md R50, R52). -/
def State.container (h : State) (xs : List Byte) : List Byte := headerBytes h ++ payload (xs.flatMap h.tableCode)

theorem container_congr {s t : State} (ht : s.total = t.total) (hf : s.freq = t.freq) (xs : List Byte) :
    s.container xs = t.container xs := by
  rw [State.container, State.container, headerBytes_congr ht hf, funext (tableCode_congr hf)]

/-- The counted table is a function of the source's bytes (R114). -/
theorem counted_congr {s s' : State} (h : s.src.data = s'.src.data) (hl : s.src.data.length ≤ 4294967295) :
    s.counted.total = s'.counted.total ∧ s.counted.freq = s'.counted.freq := by
  have hl' := h ▸ hl
  constructor
  · apply BitVec.eq_of_toNat_eq
    rw [toNat_total_counted hl, toNat_total_counted hl', h]
  · refine freqAt_ext fun b => BitVec.eq_of_toNat_eq ?_
    rw [toNat_freqAt_counted hl, toNat_freqAt_counted hl', h]

/-- What COMPRESS appends is the container of the source under its own table, the empty source's payload being empty (R53, R110). -/
theorem exec_compress_container {s : State} (hq : Quiet s) (hl : s.src.data.length ≤ 4294967295) :
    ∃ t, exec .compress s = .next t ∧ t.snk = s.snk ++ s.counted.container s.src.data := by
  have hsnk : s.headerWritten.snk = s.snk ++ headerBytes s.counted := by rw [headerWritten_eq]
  by_cases hs : s.src.data = []
  · have hbody := compressBody_headerWritten hq hl
    rw [hs, List.length_nil, if_neg (Nat.lt_irrefl 0)] at hbody
    refine ⟨s.headerWritten, congrArg Result.outcome hbody, ?_⟩
    rw [hsnk, hs, State.container, List.flatMap_nil, show payload [] = [] from rfl, List.append_nil]
  · obtain ⟨t, hexec, ht⟩ := exec_compress_quiet hq hs hl
    obtain ⟨_, _, _, _, _, _, hframe⟩ := ht.frame
    have hdata : s.headerWritten.src.data = s.src.data := by rw [headerWritten_eq]
    have hcode : s.headerWritten.tableCode = s.counted.tableCode :=
      funext (tableCode_congr (s := s.headerWritten) (t := s.counted) rfl)
    refine ⟨t, hexec, ?_⟩
    rw [hframe, hsnk, hdata, hcode, List.append_assoc]
    rfl

/-- Settles O51: the container is the same for the same bytes. -/
theorem compressDeterministic : Obligations.CompressDeterministic := by
  intro s s' hq hq' hdata hl
  obtain ⟨t, hexec, hsnk⟩ := exec_compress_container hq hl
  obtain ⟨t', hexec', hsnk'⟩ := exec_compress_container hq' (hdata ▸ hl)
  obtain ⟨htotal, hfreq⟩ := counted_congr hdata hl
  refine ⟨t, t', _, hexec, hexec', hsnk, ?_⟩
  rw [hsnk', container_congr htotal hfreq, hdata]

end Sys2Proof.Machine
end

section
/-! DECOMPRESS (47_codec.md R111, R114): RDHDR, BUILD and DECODE on a container, and the way back from COMPRESS. -/

namespace Sys2Proof.Machine

/-- RDHDR stands behind the header (46_container.md R103). -/
theorem rest_headerRead {s h : State} {bs : List Byte} (hr : s.rest = headerBytes h ++ bs) : (s.headerRead h).rest = bs := by
  calc (s.headerRead h).rest
    _ = s.rest.drop 1032 := List.drop_drop.symm
    _ = bs := by rw [hr]; exact List.drop_left' (headerBytes_length h)

/-- BUILD reads no source byte (42_tree_builder.md R76). -/
theorem Built.rest {s t : State} (h : Built s t) : t.rest = s.rest := by
  obtain ⟨_, _, _, _, _, rfl⟩ := h.frame
  rfl

/-- Settles O49: the table read back gives the tree under which the bytes hold the symbols. -/
theorem decompressResult : Obligations.DecompressResult := by
  intro s h xs pl tail junk hq hsum hx hl hbits hj hr
  rw [List.append_assoc] at hr
  have hread : rdhdrBody s = .done () (s.headerRead h) := rdhdrBody_quiet s h (pl ++ tail) hq hr hsum
  have hqr : Quiet (s.headerRead h) := hq
  obtain ⟨t, hbuild, hbuilt⟩ := buildBody_quiet (s.headerRead h) hqr rfl (freqSum_le_maxLen hsum)
  have htree : t.tree = h.tableTree := hbuilt.treeEq.trans (tableTree_congr rfl)
  have hcode : t.treeCode = h.tableCode := funext (treeCode_of_tableTree htree)
  obtain ⟨nd, nn, dist, rv, ri, ht⟩ := hbuilt.frame
  obtain ⟨hqt, hvt, hdone, hlt, hxt⟩ : Quiet t ∧ t.freqValid = true ∧ t.treeDone = true ∧ xs.length = t.total.toNat ∧
      ∀ b ∈ xs, b ∈ t.present := by
    subst ht
    exact ⟨hq, rfl, rfl, hl, fun b hb => (mem_present _ b).mpr (hx b hb)⟩
  have hrest : t.rest = pl ++ tail := hbuilt.rest.trans (rest_headerRead hr)
  have hdecode : decodeBody t = .done () (t.readingPayload.decoded xs pl.length) :=
    decodeBody_quiet t hqt hvt hdone hbuilt.tree xs pl tail junk hxt hlt (hcode ▸ hbits) hj hrest
  have hbody : decompressBody s = .done () (t.readingPayload.decoded xs pl.length) := by
    rw [decompressBody, hread, Result.andThen_done, hbuild, Result.andThen_done, hdecode]
  have hcount : BitVec.ofNat 32 xs.length = h.total := by rw [hl, BitVec.ofNat_toNat, BitVec.setWidth_eq]
  have hobs : ((s.appendPhase .readingHeader).appendPhase .buildingTree).notified [7] = s.notified [6, 2, 7] := by
    rw [notified_appendPhase, notified_appendPhase]
    rfl
  rw [decoded_readingPayload, hcount] at hbody
  refine ⟨_, congrArg Result.outcome hbody, hbuilt.tree.congr rfl rfl rfl rfl rfl rfl, ?_, ?_⟩
  · rw [← htree]
    exact tree_congr rfl rfl rfl
  · rw [← hobs]
    subst ht
    rfl

/-- Settles O50: what COMPRESS appends is a container of the source, its padding fewer than eight bits. -/
theorem roundTrip : Obligations.RoundTrip := by
  intro s u hq hqu hl
  obtain ⟨t, hexec, hsnk⟩ := exec_compress_container hq hl
  refine ⟨t, _, hexec, hsnk, fun tail hr => ?_⟩
  obtain ⟨junk, hbits, hj⟩ := payload_bits_lt (s.src.data.flatMap s.counted.tableCode)
  have htotal := toNat_total_counted hl
  obtain ⟨v, hdec, -, -, hv⟩ := decompressResult u s.counted s.src.data _ tail junk hqu ((freqSum_counted hl).trans htotal.symm)
    (fun _ => freqAt_counted_pos hl) htotal.symm hbits hj hr
  refine ⟨v, hdec, by rw [hv], by rw [hv], ?_⟩
  rw [hv, State.container, List.length_append, headerBytes_length]
  exact Nat.add_assoc _ _ _

end Sys2Proof.Machine
end

section
/-! CMD writes that run no command body: illegal words (60_exceptions.md R130) and the fault state (R136, 47_codec.md R107). -/

namespace Sys2Proof.Machine

variable {s : State} {w : Word}

/-- A word that decodes is a command's encoding, whose ZERO field is 0 and whose OPC is the command's code (30_encoding.md R46). -/
theorem decode_ne_ok_of_illegal (hw : w.extractLsb' 8 24 ≠ 0 ∨ ∀ i, w.extractLsb' 0 8 ≠ opc i) (i : Instr) :
    decode w ≠ .ok i := by
  intro hdec
  obtain ⟨hzero, hopc⟩ := (eq_encode_iff_fields w i).mp (eq_encode_of_decode hdec)
  exact hw.elim (fun h => h hzero) fun h => h i hopc

theorem commandWrite_illegal (hf : s.fault = false) (hw : ∀ i, decode w ≠ .ok i) :
    commandWrite w s = .next (s.enterFault .illegalCommand w) := by
  rw [commandWrite, hf, if_neg Bool.false_ne_true]
  cases hdec : decode w with
  | ok i => exact absurd hdec (hw i)
  | error _ => rfl

/-- Settles O8: such a word does not decode, and then CMD raises. -/
theorem illegalWordRaises : Obligations.IllegalWordRaises := by
  intro s w rest hin hf hw
  exact (step_commandWrite hin).trans (commandWrite_illegal hf (decode_ne_ok_of_illegal hw))

theorem commandWrite_fault (hf : s.fault = true) (w : Word) :
    commandWrite w s = if w = encode .reset then exec .reset s else .next s := if_pos hf

/-- Settles O9: 1 is RESET's word, and in the fault state every other word is ignored. -/
theorem faultStateIgnoresCommands : Obligations.FaultStateIgnoresCommands := by
  intro s w rest hin hf
  have hstep := (step_commandWrite hin).trans (commandWrite_fault (s := { s with inputs := rest }) hf w)
  exact ⟨fun hw => hstep.trans (if_neg hw), fun hw => hstep.trans (if_pos hw)⟩

/-- FAULT, ERR and ERRINFO (10_state.md R15, R16). -/
def State.errRegs (s : State) : Bool × BitVec 8 × Word := (s.fault, s.err, s.errInfo)

theorem errRegs_hostWrite (n : Nat) (v : Word) (s : State) : (hostWrite n v s).errRegs = s.errRegs := by
  unfold hostWrite
  split <;> rfl

theorem commandWrite_fault_cases {t : State} (hf : s.fault = true) (h : commandWrite w s = .next t) :
    t = s ∨ w = encode .reset ∧ exec .reset s = .next t := by
  rw [commandWrite_fault hf] at h
  split at h
  · next hw => exact .inr ⟨hw, h⟩
  · cases h
    exact .inl rfl

/-- One input in the fault state: the error registers stay, or the input is RESET's word or a hardware reset (R136). -/
theorem takeInput_fault_cases {i : Input} {t : State} (hf : s.fault = true) (h : takeInput i s = .next t) :
    t.errRegs = s.errRegs ∨ (i = .write 0 (encode .reset) ∨ i = .hardReset) ∧ exec .reset s = .next t := by
  cases i with
  | write n v =>
    by_cases hn : n = 0
    · subst hn
      obtain rfl | ⟨rfl, hreset⟩ := commandWrite_fault_cases hf h
      · exact .inl rfl
      · exact .inr ⟨.inl rfl, hreset⟩
    · rw [takeInput_write hn] at h
      cases h
      exact .inl (errRegs_hostWrite n v s)
  | hardReset => exact .inr ⟨.inr rfl, h⟩
  | read n | setSource before after | setSink bytes =>
    cases h
    exact .inl rfl

/-- Settles O10, by the input the step takes. -/
theorem faultStateOnlyLeftByReset : Obligations.FaultStateOnlyLeftByReset := by
  intro s t hf h
  cases hin : s.inputs with
  | nil =>
    rw [step, stepInput, hin] at h
    cases h
    exact .inl ⟨hf, rfl, rfl⟩
  | cons i rest =>
    rw [step_cons hin] at h
    obtain hregs | ⟨hi, hreset⟩ := takeInput_fault_cases (s := { s with inputs := rest }) hf h
    · simp only [State.errRegs, Prod.mk.injEq] at hregs
      obtain ⟨hfault, herr, hinfo⟩ := hregs
      exact .inl ⟨hfault.trans hf, herr, hinfo⟩
    · exact .inr ⟨rest, hi.imp (congrArg (· :: rest)) (congrArg (· :: rest)), hreset⟩

end Sys2Proof.Machine
end

section
/-! The error registers behind a command's body (60_exceptions.md R121, R126, R133). -/

namespace Sys2Proof.Machine

/-- The error registers stay, or they hold an error that a body can raise. -/
def ErrRegsStep (s t : State) : Prop :=
  t.errRegs = s.errRegs ∨ t.fault = true ∧ t.err.toNat ∈ [1, 3, 4, 5, 6, 7, 8, 9, 11, 12]

theorem ErrRegsStep.trans {s t u : State} (h : ErrRegsStep s t) (k : ErrRegsStep t u) : ErrRegsStep s u := by
  obtain htu | hu := k
  · obtain hst | ⟨hf, hcode⟩ := h
    · exact .inl (htu.trans hst)
    · simp only [State.errRegs, Prod.mk.injEq] at htu
      obtain ⟨hfault, herr, -⟩ := htu
      exact .inr ⟨hfault.trans hf, herr ▸ hcode⟩
  · exact .inr hu

theorem Raisable.code_mem {e : Error} (h : Raisable e) : e.code.toNat ∈ [1, 3, 4, 5, 6, 7, 8, 9, 11, 12] := by
  obtain ⟨hcomparable, hillegal⟩ := h
  cases e with
  | notComparable => exact absurd rfl hcomparable
  | illegalCommand => exact absurd rfl hillegal
  | _ => decide

theorem ErrRegsStep.enterFault {e : Error} (he : Raisable e) (info : Word) (s : State) : ErrRegsStep s (s.enterFault e info) :=
  .inr ⟨rfl, he.code_mem⟩

/-- Where no hardware reset is coming, the error registers are written by fault entry only, and none is coming afterwards. -/
def ErrFrame (s t : State) : Prop := NoCut s → NoCut t ∧ ErrRegsStep s t

theorem ErrFrame.of {s t : State} (ha : t.answers = s.answers) (h : ErrRegsStep s t) : ErrFrame s t :=
  fun hs => ⟨by rwa [NoCut, ha], h⟩

theorem baseRel_errFrame : BaseRel ErrFrame where
  refl _ := .of rfl (.inl rfl)
  trans h k hs :=
    have ⟨ht, hst⟩ := h hs
    have ⟨hu, htu⟩ := k ht
    ⟨hu, hst.trans htu⟩
  dropAnswer _ hs := ⟨hs.dropAnswer, .inl rfl⟩
  cut _ hr hs := absurd hr hs.answer
  enterFault _ info s he := .of rfl (.enterFault he info s)

theorem engineRel_errFrame : EngineRel ErrFrame :=
  engineRel_of_tables baseRel_errFrame (fun _ _ => .of rfl (.inl rfl))
    (fun s t h => by
      simp only [State.outsideTables, Prod.mk.injEq] at h
      obtain ⟨hfault, herr, hinfo, -, -, -, -, -, hanswers, -, -⟩ := h
      exact .of hanswers (.inl (by rw [State.errRegs, hfault, herr, hinfo, State.errRegs])))
    (fun _ _ => .of rfl (.inl rfl)) fun _ _ => .of rfl (.inl rfl)

variable {i : Instr} {s t : State}

theorem exec_queue_errRegsStep (hi : i ∈ [Instr.pqInsert, .pqPopmin, .pqPeekmin, .pqSize]) (he : exec i s = .next t) :
    ErrRegsStep s t := by
  simp only [List.mem_cons, List.not_mem_nil, or_false] at hi
  obtain rfl | rfl | rfl | rfl := hi
  · obtain ⟨-, rfl⟩ | ⟨-, rfl⟩ := exec_pqInsert_cases he
    · exact .inl rfl
    · exact .enterFault (by simp [Raisable]) 0 s
  · obtain ⟨m, q, -, rfl⟩ | ⟨-, rfl⟩ := exec_pqPopmin_cases he
    · exact .inl rfl
    · exact .enterFault (by simp [Raisable]) 0 s
  · obtain ⟨m, q, -, rfl⟩ | ⟨-, rfl⟩ := exec_pqPeekmin_cases he
    · exact .inl rfl
    · exact .enterFault (by simp [Raisable]) 0 s
  · cases he
    exact .inl rfl

theorem exec_errRegsStep (hs : NoCut s) (hi : i ≠ .reset) (he : exec i s = .next t) : ErrRegsStep s t := by
  by_cases hq : i ∈ [Instr.pqInsert, .pqPopmin, .pqPeekmin, .pqSize]
  · exact exec_queue_errRegsStep hq he
  · exact (engineRel_errFrame.exec_stage (List.not_mem_cons_of_ne_of_not_mem hi hq) he hs).2

/-- The actions of a piece from a state, as a function of the observer and the answers. -/
theorem Acting.acts {f : State → Result Unit} (h : Acting f) (s : State) :
    Acts s.fault s.snk (fun _ => s.obs) fun o as => f (s.env (fun _ => s.obs) o as) :=
  h s.fault s _ rfl

/-- A port error is a failed port's, and ERRINFO its code (R126). -/
theorem exec_port_error (hf : s.fault = false) (he : exec i s = .next t) (ht : t.fault = true) (hport : t.err = 5 ∨ t.err = 6) :
    Answer.failed t.errInfo ∈ s.answers := by
  by_cases hi : i = .reset
  · subst hi
    cases he
    cases ht
  · obtain ⟨f, hact, hexec⟩ := exec_acting i hi
    have hacts := hact.acts s
    rw [hf] at hacts
    exact hacts.port s.observerAttached t s.answers ((hexec s).symm.trans he) ht hport

/-- Settles O60: fault entry alone writes the error registers, and a port's error comes from its answer. -/
theorem errorRegisterFrame : Obligations.ErrorRegisterFrame := by
  refine ⟨fun i s t hs hi he => ?_, fun i s t hf he ht hport => exec_port_error hf he ht hport⟩
  exact (exec_errRegsStep hs hi he).imp_left fun h => by simpa [State.errRegs] using h

end Sys2Proof.Machine
end

section
/-! A missing validity flag (60_exceptions.md R129, R134). -/

namespace Sys2Proof.Machine

/-- A stage whose flags are missing ends in its head, whatever follows there. -/
theorem requireFlags_missing {α : Type} {flags : Bool} (h : flags = false) (o : BitVec 8) (s : State) (k : Unit → State → Result α) :
    (requireFlags flags o s).andThen k = .ended (s.enterFault .sequence (opcInfo o)) := by
  subst h
  rfl

/-- Settles O25: each stage's head. -/
theorem sequenceErrors : Obligations.SequenceErrors := by
  refine fun s => ⟨fun hf => ⟨?_, ?_⟩, fun ht => ?_, fun h => ?_, fun h => ?_⟩
  · exact congrArg Result.outcome (requireFlags_missing hf ..)
  · exact congrArg Result.outcome (requireFlags_missing hf ..)
  · exact congrArg Result.outcome (requireFlags_missing ht ..)
  · exact congrArg Result.outcome (requireFlags_missing (Bool.and_eq_false_iff.mpr h) ..)
  · exact congrArg Result.outcome (requireFlags_missing (Bool.and_eq_false_iff.mpr h) ..)

end Sys2Proof.Machine
end

section
/-! ENCODE stopped by a byte without a code or by a source that changed since COUNT (60_exceptions.md R131, R132, R135). -/

namespace Sys2Proof.Machine

/-- The whole groups of eight digits are the payload's bytes but a padded last one (30_encoding.md R52). -/
theorem fullBytes_eq_take_payload (ds : List Digit) : fullBytes ds = (payload ds).take (ds.length / 8) := by
  have hlen : (fullBytes ds).length = ds.length / 8 := by rw [fullBytes, List.length_map, List.length_range]
  rw [payload_eq, List.take_left' hlen]

theorem setPos_setPos (m n : Nat) (s : State) : (s.setPos m).setPos n = s.setPos n := rfl

/-- ENCODE's frame where it is stopped after it has packed these bytes and read up to position `n`. -/
theorem enterFault_packed (e : Error) (info : Word) (xs : List Byte) (n : Nat) (s : State) :
    ((s.packed xs).setPos n).enterFault e info = { s with
      fault := true
      err := e.code
      errInfo := info
      snk := s.snk ++ (payload (s.codesOf xs)).take ((s.codesOf xs).length / 8)
      src := ⟨s.src.data, n⟩
      obs := s.notified [4] } := by
  rw [State.packed, setPos_setPos, ← fullBytes_eq_take_payload]
  rfl

/-- Settles O37: the loop packs the bytes before the one without a code, and reads that one. -/
theorem encodeNoCode : Obligations.EncodeNoCode := by
  intro s xs ys b hq hv hcv hdata hcodes hb hlt
  calc exec .encode s
    _ = .next (((s.packed xs).setPos (xs.length + 1)).enterFault .noCode (byteInfo b)) :=
      congrArg Result.outcome (encodeBody_noCode s hq hv hcv xs ys b hdata hcodes hb hlt)
    _ = _ := congrArg _ (enterFault_packed ..)

/-- Settles O38: a longer source is found at the byte behind the TOTAL counted, a shorter one at its end. -/
theorem encodeSourceChanged : Obligations.EncodeSourceChanged := by
  refine fun s xs ys hq hv hcv hdata hcodes => ⟨fun hlen hys => ?_, fun hlen hys => ?_⟩
  · obtain ⟨b, bs, rfl⟩ := List.exists_cons_of_ne_nil hys
    have hinfo : BitVec.ofNat 32 xs.length = s.total := by rw [hlen, BitVec.ofNat_toNat, BitVec.setWidth_eq]
    calc exec .encode s
      _ = .next (((s.packed xs).setPos (xs.length + 1)).enterFault .sourceChanged (BitVec.ofNat 32 xs.length)) :=
        congrArg Result.outcome (encodeBody_long s hq hv hcv xs bs b hdata hcodes hlen)
      _ = .next (((s.packed xs).setPos (xs.length + 1)).enterFault .sourceChanged s.total) := by rw [hinfo]
      _ = _ := congrArg _ (enterFault_packed ..)
  · obtain rfl : xs = s.src.data := by rw [hdata, hys, List.append_nil]
    calc exec .encode s
      _ = .next ((s.packed s.src.data).enterFault .sourceChanged (BitVec.ofNat 32 s.src.data.length)) :=
        congrArg Result.outcome (encodeBody_short s hq hv hcv hcodes hlen)
      _ = _ := congrArg _ (enterFault_packed ..)

end Sys2Proof.Machine
end

section
/-! The first answer of the environment, given as the head of the list of answers (20_memory.md R38; log 2). -/

namespace Sys2Proof.Machine

/-- The state with these answers to come. -/
def State.answering (as : List Answer) (s : State) : State := { s with answers := as }

variable {s : State} {as : List Answer}

theorem answering_answering (as bs : List Answer) (s : State) : (s.answering as).answering bs = s.answering bs := rfl

theorem setPos_answering (n : Nat) (as : List Answer) (s : State) : (s.answering as).setPos n = (s.setPos n).answering as := rfl

theorem answer_cons {a : Answer} (ha : s.answers = a :: as) : s.answer = a := by
  rw [State.answer, ha, List.headD_cons]

theorem dropAnswer_cons {a : Answer} (ha : s.answers = a :: as) : s.dropAnswer = s.answering as := by
  rw [State.dropAnswer, ha, List.tail_cons, State.answering]

section Request

variable {α : Type} {onFail : Word → State → Result α} {serve : State → Result α}

theorem request_served (ha : s.answers = .served :: as) : request onFail serve s = serve (s.answering as) := by
  rw [request, answer_cons ha, dropAnswer_cons ha]

theorem request_failed {e : Word} (ha : s.answers = .failed e :: as) : request onFail serve s = onFail e (s.answering as) := by
  rw [request, answer_cons ha, dropAnswer_cons ha]

theorem request_cut (ha : s.answers = .reset :: as) : request onFail serve s = .ended (s.answering as).resetBlock := by
  rw [request, answer_cons ha, dropAnswer_cons ha]

end Request

/-- A notification is made unless a hardware reset comes before it (60_exceptions.md R140). -/
theorem notify_made {a : Answer} (ha : s.answers = a :: as) (hn : a ≠ .reset) (p : Phase) :
    notify p s = .done () ((s.answering as).appendPhase p) := by
  cases a with
  | served => exact request_served ha
  | failed e => exact request_failed ha
  | reset => exact absurd rfl hn

theorem notify_cut (ha : s.answers = .reset :: as) (p : Phase) : notify p s = .ended (s.answering as).resetBlock := request_cut ha

theorem srcRewind_served (ha : s.answers = .served :: as) : srcRewind s = .done () ((s.answering as).setPos 0) := request_served ha

theorem srcRewind_failed {e : Word} (ha : s.answers = .failed e :: as) : srcRewind s = .ended ((s.answering as).enterFault .sourceIO e) :=
  request_failed ha

theorem srcRead_served (ha : s.answers = .served :: as) {b : Byte} (hb : s.src.data[s.src.pos]? = some b) :
    srcRead s = .done (some b) ((s.answering as).setPos (s.src.pos + 1)) := by
  have hb : (s.answering as).src.data[(s.answering as).src.pos]? = some b := hb
  refine (request_served ha).trans ?_
  rw [hb]
  rfl

theorem srcRead_failed {e : Word} (ha : s.answers = .failed e :: as) : srcRead s = .ended ((s.answering as).enterFault .sourceIO e) :=
  request_failed ha

end Sys2Proof.Machine
end

section
/-! COUNT stopped by a source that is too long (60_exceptions.md R127) or by the source port (R126, 20_memory.md R38). -/

namespace Sys2Proof.Machine

variable {s : State}

/-- The state in which COUNT begins to read: the engine cleared, behind its notification, the source rewound
(40_frequency_counter.md R64). -/
def State.counting (s : State) : State := (s.clearEngine.appendPhase .counting).setPos 0

/-- COUNT's frame where it is stopped after these bytes are counted and the source read up to position `n`. -/
theorem enterFault_counting (e : Error) (info : Word) (bs : List Byte) (n : Nat) (s : State) :
    ((s.counting.countBytes bs).setPos n).enterFault e info = { s with
      fault := true, err := e.code, errInfo := info
      freq := (s.counting.countBytes bs).freq, total := BitVec.ofNat 32 bs.length
      freqValid := false, treeDone := false, codeValid := false
      ndist := 0, nnodes := 0, rootValid := false, rootIdx := 0, emitted := 0, pq := []
      node := Vector.replicate 511 (.leaf 0 0), code := Vector.replicate 256 []
      src := ⟨s.src.data, n⟩, obs := s.notified [1] } := by
  have htotal : s.counting.total + BitVec.ofNat 32 bs.length = BitVec.ofNat 32 bs.length := BitVec.zero_add _
  rw [countBytes_eq, htotal]
  rfl

theorem countBody_overflow (hq : Quiet s) (hl : Config.maxLen < s.src.data.length) :
    countBody s = .ended (((s.counting.countBytes (s.src.data.take Config.maxLen)).setPos (Config.maxLen + 1)).enterFault
      .lengthOverflow 0) := by
  have hnote : notify .counting s.clearEngine = .done () (s.clearEngine.appendPhase .counting) := notify_quiet hq
  have hrewind : srcRewind (s.clearEngine.appendPhase .counting) = .done () s.counting := srcRewind_quiet hq
  have hrem : s.counting.remaining = s.src.data.length := rfl
  have htotal : s.counting.total.toNat = 0 := rfl
  have hpos : s.counting.src.pos = 0 := rfl
  have hloop : countLoop (s.counting.remaining + 1) s.counting = .ended (((s.counting.countBytes
      (s.src.data.take Config.maxLen)).setPos (Config.maxLen + 1)).enterFault .lengthOverflow 0) := by
    rw [countLoop_overflow _ s.counting hq (Nat.lt_succ_self _) (by omega) (by omega), htotal, hpos, Nat.sub_zero, Nat.zero_add,
      List.drop_zero]
    rfl
  rw [countBody, hnote, Result.andThen_done, hrewind, Result.andThen_done, hloop, Result.andThen_ended]

/-- Settles O29: the first 2^32 - 1 bytes are counted, and the one behind them is read. -/
theorem countOverflow : Obligations.CountOverflow := by
  intro s hq hl
  have hlen : (s.src.data.take 4294967295).length = 4294967295 := List.length_take_of_le (Nat.le_of_lt hl)
  refine ⟨_, congrArg Result.outcome (countBody_overflow hq hl), fun b => toNat_freqAt_countBytes rfl (Nat.le_of_eq hlen) b, ?_⟩
  rw [enterFault_counting, hlen]
  rfl

/-! ### The source port fails -/

theorem answering_countBytes (as : List Answer) (bs : List Byte) (s : State) :
    (s.answering as).countBytes bs = (s.countBytes bs).answering as := by
  induction bs generalizing s with
  | nil => rfl
  | cons b bs ih => exact ih (s.countByte b)

theorem toNat_add_one {w : Word} (h : w.toNat < Config.maxLen) : (w + 1).toNat = w.toNat + 1 :=
  Nat.mod_eq_of_lt (Nat.succ_lt_succ h)

/-- One round of COUNT's loop on a byte that can be counted (R64). -/
theorem countLoop_byte {s t : State} {b : Byte} (hread : srcRead s = .done (some b) t) (ht : t.total.toNat < Config.maxLen) (n : Nat) :
    countLoop (n + 1) s = countLoop n (t.countByte b) := by
  rw [countLoop, hread, Result.andThen_done]
  dsimp only
  rw [decide_eq_true ht, require_true, Result.andThen_done]

/-- COUNT's loop while the environment serves the reads of these bytes. -/
theorem countLoop_served (bs : List Byte) {ys : List Byte} {as : List Answer} (m : Nat) (hr : s.rest = bs ++ ys)
    (ha : s.answers = List.replicate bs.length .served ++ as) (ht : s.total.toNat + bs.length ≤ Config.maxLen) :
    countLoop (bs.length + m) s = countLoop m (((s.countBytes bs).setPos (s.src.pos + bs.length)).answering as) := by
  induction bs generalizing s with
  | nil =>
    subst ha
    rw [List.length_nil, Nat.zero_add]
    rfl
  | cons b bs ih =>
    rw [List.length_cons] at ht
    have htotal : s.total.toNat < Config.maxLen := by omega
    have hcount (as : List Answer) (p : Nat) :
        (((s.answering as).setPos p).countByte b).countBytes bs = ((s.countBytes (b :: bs)).setPos p).answering as := by
      rw [← State.countBytes_cons, setPos_countBytes, answering_countBytes, setPos_answering]
    have hround : countLoop (bs.length + m + 1) s =
        countLoop (bs.length + m) (((s.answering (List.replicate bs.length .served ++ as)).setPos (s.src.pos + 1)).countByte b) :=
      countLoop_byte (srcRead_served ha (rest_cons hr)) htotal (bs.length + m)
    have hrest : (((s.answering (List.replicate bs.length .served ++ as)).setPos (s.src.pos + 1)).countByte b).rest = bs ++ ys := by
      show s.src.data.drop (s.src.pos + 1) = bs ++ ys
      rw [← List.tail_drop]
      exact congrArg List.tail hr
    rw [List.length_cons, Nat.add_right_comm, hround, ih hrest rfl, hcount, setPos_answering, setPos_setPos, answering_answering,
      ← Nat.add_assoc, Nat.add_right_comm s.src.pos]
    · rfl
    · exact (congrArg (· + bs.length) (toNat_add_one htotal)).trans_le (by omega)

theorem countLoop_failed {e : Word} {as : List Answer} (ha : s.answers = .failed e :: as) (n : Nat) :
    countLoop (n + 1) s = .ended ((s.answering as).enterFault .sourceIO e) := by
  rw [countLoop, srcRead_failed ha, Result.andThen_ended]

/-- COUNT begins to read when its notification is made and its rewind served. -/
theorem countBody_reading {n : Answer} {as : List Answer} (ha : s.answers = n :: .served :: as) (hn : n ≠ .reset) :
    countBody s = (countLoop (s.src.data.length + 1) (s.answering as).counting).andThen fun _ s => .done () s.setFreqValid := by
  have hrewind : srcRewind ((s.clearEngine.answering (.served :: as)).appendPhase .counting) = .done () (s.answering as).counting :=
    srcRewind_served rfl
  rw [countBody, notify_made (s := s.clearEngine) ha hn, Result.andThen_done, hrewind]
  rfl

theorem countBody_rewind_failed {n : Answer} {e : Word} {rest : List Answer} (ha : s.answers = n :: .failed e :: rest) (hn : n ≠ .reset) :
    countBody s = .ended (((s.answering rest).clearEngine.appendPhase .counting).enterFault .sourceIO e) := by
  have hrewind : srcRewind ((s.clearEngine.answering (.failed e :: rest)).appendPhase .counting) =
    .ended (((s.answering rest).clearEngine.appendPhase .counting).enterFault .sourceIO e) := srcRewind_failed rfl
  rw [countBody, notify_made (s := s.clearEngine) ha hn, Result.andThen_done, hrewind]
  rfl

theorem countBody_read_failed {n : Answer} {k : Nat} {e : Word} {rest : List Answer} (hk : k ≤ s.src.data.length)
    (hmax : k ≤ Config.maxLen) (ha : s.answers = n :: .served :: (List.replicate k .served ++ .failed e :: rest)) (hn : n ≠ .reset) :
    countBody s = .ended ((((s.answering rest).counting.countBytes (s.src.data.take k)).setPos k).enterFault .sourceIO e) := by
  obtain ⟨m, hm⟩ := Nat.exists_eq_add_of_le hk
  have hlen : (s.src.data.take k).length = k := List.length_take_of_le hk
  have hrest : (s.answering (List.replicate k .served ++ .failed e :: rest)).counting.rest = s.src.data.take k ++ s.src.data.drop k :=
    (List.take_append_drop k s.src.data).symm
  have hloop := countLoop_served (as := .failed e :: rest) (s.src.data.take k) (m + 1) hrest (by rw [hlen]; rfl)
    (by rw [hlen]; exact (Nat.zero_add k).trans_le hmax)
  have hcounting (as : List Answer) : (s.answering as).counting = s.counting.answering as := rfl
  rw [hlen] at hloop
  rw [countBody_reading ha hn, hm, Nat.add_assoc, hloop, countLoop_failed rfl, hcounting, hcounting, answering_countBytes,
    answering_countBytes, Result.andThen_ended]
  have hpos : (s.counting.answering (List.replicate k .served ++ .failed e :: rest)).src.pos + k = k := Nat.zero_add k
  rw [hpos]
  rfl

end Sys2Proof.Machine
end

section
/-! One action of a command answered otherwise (60_exceptions.md R126, R135, R140; 20_memory.md R38), found by two probing runs, and
the port failures of COUNT and WRHDR. -/

namespace Sys2Proof.Machine

section Probed

variable {i : Instr} {s a u : State} {as rest : List Answer} {e : Word} (hs : s.answers = as ++ .failed e :: rest)
  (ha : exec i (s.probe (as ++ .reset :: rest)) = .next a) (har : a.answers = rest)
  (hu : exec i (s.probe (as ++ .served :: .reset :: rest)) = .next u)

include ha har in
/-- RESET takes no action, so a probing run finds none. -/
theorem ne_reset_of_probe : i ≠ .reset := by
  rintro rfl
  cases ha
  have hlen : (as ++ .reset :: rest).length = rest.length := congrArg List.length har
  rw [List.length_append, List.length_cons] at hlen
  omega

include hs ha har hu

/-- The action is a port request unless the probing runs notified something between them. -/
theorem exec_port_failed (hobs : u.obs = a.obs) :
    ∃ t, exec i s = .next t ∧ t.fault = true ∧ t.err = (if u.snk = a.snk then 5 else 6) ∧ t.errInfo = e ∧ t.src = a.src ∧
      t.snk = a.snk ∧ t.answers = rest := by
  obtain ⟨f, hact, hexec⟩ := exec_acting i (ne_reset_of_probe ha har)
  rw [hexec] at ha hu
  obtain ⟨hport, -⟩ := (hact.acts s).otherwise rest a u as ha har hu
  obtain ⟨t, ht, hfault⟩ := hport hobs s.observerAttached e
  rw [← hs] at ht
  exact ⟨t, (hexec s).trans ht, hfault⟩

/-- The action is a notification if the probing runs notified something between them: nothing was written, and the failure counts as
served. -/
theorem exec_notification_failed (hobs : u.obs ≠ a.obs) :
    u.snk = a.snk ∧ exec i s = exec i { s with answers := as ++ .served :: rest } := by
  obtain ⟨f, hact, hexec⟩ := exec_acting i (ne_reset_of_probe ha har)
  rw [hexec] at ha hu
  obtain ⟨-, hnote⟩ := (hact.acts s).otherwise rest a u as ha har hu
  obtain ⟨hsnk, hsame⟩ := hnote hobs
  have hrun := hsame s.observerAttached e
  rw [← hs] at hrun
  refine ⟨hsnk, ?_⟩
  rw [hexec, hexec]
  exact congrArg Result.outcome hrun

end Probed

/-- Settles O26: where the probing runs notified and wrote nothing between them, the action is a source request; COUNT's are its rewind
and its reads. -/
theorem sourceFailure : Obligations.SourceFailure := by
  refine ⟨fun i s a u as rest e hs ha har hu hobs hsnk => ?_, fun s n e rest hn => ⟨fun ha => ?_, fun k hk hmax ha => ?_⟩⟩
  · obtain ⟨t, ht, hfault, herr, hrest⟩ := exec_port_failed hs ha har hu hobs
    exact ⟨t, ht, hfault, herr.trans (if_pos hsnk), hrest⟩
  · exact ⟨_, congrArg Result.outcome (countBody_rewind_failed ha hn), rfl, rfl, rfl, rfl, rfl, rfl, rfl, rfl, rfl⟩
  · have hlen : (s.src.data.take k).length = k := List.length_take_of_le hk
    have hle : (s.src.data.take k).length ≤ 4294967295 := hlen.trans_le hmax
    refine ⟨_, congrArg Result.outcome (countBody_read_failed hk hmax ha hn), ?_⟩
    have htotal : (BitVec.ofNat 32 (s.src.data.take k).length).toNat = k := by
      rw [hlen, BitVec.toNat_ofNat]
      exact Nat.mod_eq_of_lt (by omega)
    rw [enterFault_counting]
    exact ⟨rfl, rfl, rfl, rfl, htotal, fun b => toNat_freqAt_countBytes rfl hle b, rfl, rfl, rfl, rfl⟩

/-- WRHDR begins to write when its notification is made. -/
theorem wrhdrBody_writing {s : State} {n : Answer} {as : List Answer} (hv : s.freqValid = true) (ha : s.answers = n :: as)
    (hn : n ≠ .reset) : wrhdrBody s = snkWriteAll (headerBytes s) ((s.answering as).appendPhase .writingHeader) := by
  rw [wrhdrBody, requireFlags, hv, require_true, Result.andThen_done, notify_made ha hn, Result.andThen_done]
  rfl

/-- WRHDR stopped at its write number `k`: the bytes before it stay (60_exceptions.md R135, 70_reset_and_hazards.md R150). -/
theorem wrhdrBody_stopped {s : State} {n a : Answer} {k : Nat} {rest : List Answer} (hv : s.freqValid = true) (hn : n ≠ .reset)
    (hk : k < 1032) (ha : s.answers = n :: (List.replicate k .served ++ a :: rest)) :
    (∀ e, a = .failed e → wrhdrBody s = .ended (({ s with
      snk := s.snk ++ (headerBytes s).take k, obs := s.notified [3], answers := rest } : State).enterFault .sinkIO e)) ∧
    (a = .reset → wrhdrBody s = .ended ({ s with
      snk := s.snk ++ (headerBytes s).take k, obs := s.notified [3], answers := rest } : State).resetBlock) := by
  rw [wrhdrBody_writing hv ha hn]
  exact snkWriteAll_stopped (headerBytes s) _ k a rest (hk.trans_eq (headerBytes_length s).symm) rfl

/-- Settles O27: where the probing runs wrote a byte between them, the action is a sink request; WRHDR's are its 1032 writes. -/
theorem sinkFailure : Obligations.SinkFailure := by
  refine ⟨fun i s a u as rest e hs ha har hu hsnk => ?_, fun s n k e rest hv hn hk ha => ?_⟩
  · have hobs : u.obs = a.obs := by
      by_contra hobs
      exact hsnk (exec_notification_failed hs ha har hu hobs).1
    obtain ⟨t, ht, hfault, herr, hrest⟩ := exec_port_failed hs ha har hu hobs
    exact ⟨t, ht, hfault, herr.trans (if_neg hsnk), hrest⟩
  · obtain ⟨hfailed, -⟩ := wrhdrBody_stopped hv hn hk ha
    exact congrArg Result.outcome (hfailed e rfl)

/-! ### The observer -/

theorem Result.outcome_map_next {f : State → State} {r : Result Unit} {t : State} (h : r.outcome = .next t) :
    (r.map f).outcome = .next (f t) := by
  cases r with
  | done _ s | ended s =>
    cases h
    rfl
  | stuck e => cases h

theorem Result.outcome_map_fault {f : State → State} {r : Result Unit} {e : Fault} (h : r.outcome = .fault e) :
    (r.map f).outcome = .fault e := by
  cases r with
  | done _ s | ended s => cases h
  | stuck e => exact h

theorem EngineMap.andThen_setResult {f : State → State} (h : EngineMap f) {r q : Result Item} (hr : q = r.map f) :
    (q.andThen fun it s => .done () (s.setResult it)) = (r.andThen fun it s => .done () (s.setResult it)).map f := by
  rw [hr]
  exact Result.map_andThen fun it s => congrArg _ (h.setResult it s)

theorem EngineMap.insertOperand {f : State → State} (h : EngineMap f) (s : State) : (f s).insertOperand = s.insertOperand := by
  rw [State.insertOperand, h.arg0, h.arg1, State.insertOperand]

/-- A change that no command sees goes through every command. -/
theorem EngineMap.exec {f : State → State} (h : EngineMap f) (i : Instr) :
    ∃ body : State → Result Unit, (∀ s, Machine.exec i s = (body s).outcome) ∧ ∀ s, body (f s) = (body s).map f := by
  cases i with
  | nop => exact ⟨fun s => .done () s, fun _ => rfl, fun _ => rfl⟩
  | reset => exact ⟨fun s => .done () s.resetBlock, fun _ => rfl, fun s => congrArg _ (h.resetBlock s)⟩
  | pqInsert => exact ⟨_, fun _ => rfl, fun s => h.insertOperand s ▸ h.pqInsert s.insertOperand s⟩
  | pqPopmin => exact ⟨_, fun _ => rfl, fun s => h.andThen_setResult (h.pqPopMin s)⟩
  | pqPeekmin => exact ⟨_, fun _ => rfl, fun s => h.andThen_setResult (h.pqPeekMin s)⟩
  | pqSize =>
    exact ⟨fun s => .done () (s.setSize (Machine.pqSize s)), fun _ => rfl, fun s => by dsimp only; rw [h.pqSize, h.setSize, Result.map]⟩
  | count => exact ⟨_, fun _ => rfl, h.countBody⟩
  | build => exact ⟨_, fun _ => rfl, h.buildBody⟩
  | gencode => exact ⟨_, fun _ => rfl, h.gencodeBody⟩
  | encode => exact ⟨_, fun _ => rfl, h.encodeBody⟩
  | decode => exact ⟨_, fun _ => rfl, h.decodeBody⟩
  | wrhdr => exact ⟨_, fun _ => rfl, h.wrhdrBody⟩
  | rdhdr => exact ⟨_, fun _ => rfl, h.rdhdrBody⟩
  | compress => exact ⟨_, fun _ => rfl, h.compressBody⟩
  | decompress => exact ⟨_, fun _ => rfl, h.decompressBody⟩

/-- Settles O55: no command sees the observer, and a notification's failure counts as served. -/
theorem observerChangesNothingElse : Obligations.ObserverChangesNothingElse := by
  refine ⟨fun i s => ?_, fun i s a u as rest e hs ha har hu hobs => (exec_notification_failed hs ha har hu hobs).2⟩
  obtain ⟨body, hexec, hmap⟩ := unobserved_map.exec i
  rw [hexec, hexec, hmap]
  exact ⟨fun t => Result.outcome_map_next, fun e => Result.outcome_map_fault⟩

end Sys2Proof.Machine
end

section
/-! A hardware reset during a command (70_reset_and_hazards.md R150, R151). -/

namespace Sys2Proof.Machine

variable {s : State} {rest : List Answer}

/-- A hardware reset at the first notification, whatever was to follow. -/
theorem notify_cut_andThen {α : Type} (ha : s.answers = .reset :: rest) (p : Phase) (k : Unit → State → Result α) :
    (notify p s).andThen k = .ended (s.answering rest).resetBlock := by
  rw [notify_cut ha, Result.andThen_ended]

/-- A stage command that has its flags and is cut off at its notification. -/
theorem stage_cut_andThen {α : Type} {flags : Bool} (hf : flags = true) (ha : s.answers = .reset :: rest) (o : BitVec 8) (p : Phase)
    (k : Unit → State → Result α) :
    ((requireFlags flags o s).andThen fun _ s => (notify p s).andThen k) = .ended (s.answering rest).resetBlock := by
  subst hf
  exact notify_cut_andThen ha p k

theorem countBody_cut (ha : s.answers = .reset :: rest) : countBody s = .ended (s.answering rest).resetBlock :=
  notify_cut_andThen (s := s.clearEngine) ha .counting _

theorem rdhdrBody_cut (ha : s.answers = .reset :: rest) : rdhdrBody s = .ended (s.answering rest).resetBlock :=
  notify_cut_andThen (s := s.clearEngine) ha .readingHeader _

/-- Cut off at its first notification, a command leaves the state RESET leaves. -/
theorem exec_cut_first {i : Instr} (ha : s.answers = .reset :: rest)
    (hi : i ∈ [Instr.count, .rdhdr, .compress, .decompress] ∨ (i ∈ [Instr.build, .wrhdr] ∧ s.freqValid = true) ∨
      (i = .gencode ∧ s.treeDone = true) ∨ (i = .encode ∧ s.freqValid = true ∧ s.codeValid = true) ∨
      (i = .decode ∧ s.freqValid = true ∧ s.treeDone = true)) :
    exec i s = .next (s.answering rest).resetBlock := by
  simp only [List.mem_cons, List.not_mem_nil, or_false] at hi
  obtain (rfl | rfl | rfl | rfl) | ⟨rfl | rfl, hv⟩ | ⟨rfl, ht⟩ | ⟨rfl, hv, hc⟩ | ⟨rfl, hv, ht⟩ := hi
  · exact congrArg Result.outcome (countBody_cut ha)
  · exact congrArg Result.outcome (rdhdrBody_cut ha)
  · exact congrArg (fun r => (Result.andThen r _).outcome) (countBody_cut ha)
  · exact congrArg (fun r => (Result.andThen r _).outcome) (rdhdrBody_cut ha)
  · exact congrArg Result.outcome (stage_cut_andThen hv ha _ .buildingTree _)
  · exact congrArg Result.outcome (stage_cut_andThen hv ha _ .writingHeader _)
  · exact congrArg Result.outcome (stage_cut_andThen ht ha _ .derivingCodes _)
  · exact congrArg Result.outcome (stage_cut_andThen (Bool.and_eq_true_iff.mpr ⟨hv, hc⟩) ha _ .writingPayload _)
  · exact congrArg Result.outcome (stage_cut_andThen (Bool.and_eq_true_iff.mpr ⟨hv, ht⟩) ha _ .readingPayload _)

/-- Cut off before any action, a command leaves the block in its reset state, unless it ended before that action. -/
theorem exec_cut {i : Instr} {t : State} {as : List Answer} (hn : Answer.reset ∉ as) (ha : s.answers = as ++ .reset :: rest)
    (he : exec i s = .next t) : rest.length < t.answers.length ∨ t.answers = rest ∧ t.resetBlock = t := by
  by_cases hi : i = .reset
  · subst hi
    cases he
    have hlen : s.resetBlock.answers.length = (as ++ .reset :: rest).length := congrArg List.length ha
    rw [hlen, List.length_append, List.length_cons]
    exact .inl (by omega)
  · obtain ⟨f, hact, hexec⟩ := exec_acting i hi
    refine (hact.acts s).cut rest s.observerAttached t as hn ?_
    rw [← ha]
    exact (hexec s).symm.trans he

/-- Settles O19: WRHDR's writes, the first notification, and the actions of every command. -/
theorem resetDuringCommand : Obligations.ResetDuringCommand := by
  refine ⟨fun s t n k rest hv hn hk ha ht => ?_, fun i s rest ha hi => exec_cut_first ha hi, fun i s t as rest hn ha he => ?_⟩
  · obtain ⟨-, hcut⟩ := wrhdrBody_stopped hv hn hk ha
    exact (congrArg Result.outcome (hcut rfl)).trans ht
  · exact (exec_cut hn ha he).imp_right fun ⟨hrest, hreset⟩ => ⟨hrest, congrArg _ hreset⟩

end Sys2Proof.Machine
end
